-- ==== Sys2Proof/Word.lean ====
section
/-! DEFINITION. The two word types of the processor: bytes (10 R20: A, B, DP, CC and every memory location) and
16-bit words (10 R20: X, Y, U, S, PC and every address). -/

namespace Sys2Proof

/-- A memory byte or an 8-bit register (20 R50, 10 R20). -/
abbrev Byte := BitVec 8

/-- An address or a 16-bit register (00 R5, 10 R20). -/
abbrev Word := BitVec 16

end Sys2Proof
end

