-- ==== Sys2Proof/Config.lean ====
section
/-! DEFINITION. What the architecture leaves to an implementation, a board or chance: the parameter NMI_ARM_SET
(00 R6), the bytes the environment answers (20 R59) and the free values of undefined flags and of the registers reset
leaves unspecified (00 R13, 10 R41). Every constant here is opaque: nothing can be proved of its value. -/

namespace Sys2Proof

/-- The kinds of instruction that load the hardware stack pointer S, the candidates for NMI_ARM_SET (60 R405). -/
inductive SLoad where
  | lds
  | leas
  | tfr
  | exg
  | pulu
  deriving DecidableEq, Repr

/-- One access that the environment answers or receives (20 R59): a read of a device register or of an unpopulated
address, or a write delivered to a device register. -/
inductive BusAccess where
  | read (addr : Word)
  | write (addr : Word) (value : Byte)
  deriving DecidableEq, Repr

/-- The values of the registers and flags that a reset leaves unspecified (10 R41, 70 R450). -/
structure Unspecified where
  a : Byte
  b : Byte
  x : Word
  y : Word
  u : Word
  s : Word
  e : Bool
  h : Bool
  n : Bool
  z : Bool
  v : Bool
  c : Bool
  deriving DecidableEq, Repr, Inhabited

namespace Config

/-- The `n`-th free draw `Undef1()` of a run (00 R13). A free value: log 6. -/
opaque undefBit : Nat → Bool

/-- What the registers that a reset does not write hold after the reset event that took draw `n` (70 R450). A free
value: log 2. -/
opaque afterReset : Nat → Unspecified

/-- The byte the environment answers a read of a device register or of an unpopulated address with (20 R59): it may
depend on the address and on every earlier access of the environment. A free value: log 5. -/
opaque environment : List BusAccess → Word → Byte

/-- Whether a kind of instruction other than LDS belongs to NMI_ARM_SET (00 R6, 60 R405). A parameter: log 7. -/
opaque armsNmi : SLoad → Bool

end Config

end Sys2Proof
end

