-- ==== Sys2Proof/Machine/Bits.lean ====
section
/-! DEFINITION. Byte order and extension helpers: `a : b` (00 R7), `sext_16` and `zext_16` (00 R8), and the two halves
of a big-endian word (20 R56). -/

namespace Sys2Proof

/-- `h : l`, the word with `h` in bits 15..8 (00 R7, 20 R53). -/
def joinBytes (h l : Byte) : Word := h ++ l

/-- Bits 15..8 of a word. -/
def hiByte (w : Word) : Byte := w.extractLsb' 8 8

/-- Bits 7..0 of a word. -/
def loByte (w : Word) : Byte := w.extractLsb' 0 8

/-- `sext_16` of a byte (00 R8). -/
def sext8 (v : Byte) : Word := v.signExtend 16

/-- `sext_16` of a 5-bit offset (30 R89). -/
def sext5 (v : BitVec 5) : Word := v.signExtend 16

/-- `zext_16` of a byte (00 R8). -/
def zext8 (v : Byte) : Word := v.setWidth 16

end Sys2Proof
end

