-- ==== Sys2Proof/Syntax.lean ====
section
/-! DEFINITION. The instructions, one constructor per mnemonic of TABLES 4 to 8 (30 R113, R114), with the row's format
(30 R80) as the operand. The seven second names (30 R120) are other names of these constructors: LSL is `asl`, LSLA
`asla`, LSLB `aslb`, BHS `bcc`, BLO `bcs`, LBHS `lbcc`, LBLO `lbcs`. -/

namespace Sys2Proof

/-- The base registers of indexed addressing, IDXREG[rr] (00 R9, 30 R88). -/
inductive IndexReg where
  | x
  | y
  | u
  | s
  deriving DecidableEq, Repr

/-- The legal indexed operands (30 R107). `ind` is the indirect bit (30 R105); `rr` is the field that the PC-relative
modes ignore (30 R101, R118), kept so that no bit of an instruction is dropped. -/
inductive Indexed where
  /-- `n,R` with a 5-bit offset (30 R89) -/
  | offset5 (r : IndexReg) (n : BitVec 5)
  /-- `,R+` (30 R90) -/
  | postInc1 (r : IndexReg)
  /-- `,R++` (30 R91) -/
  | postInc2 (r : IndexReg) (ind : Bool)
  /-- `,-R` (30 R92) -/
  | preDec1 (r : IndexReg)
  /-- `,--R` (30 R93) -/
  | preDec2 (r : IndexReg) (ind : Bool)
  /-- `,R` (30 R94) -/
  | noOffset (r : IndexReg) (ind : Bool)
  /-- `B,R` (30 R95) -/
  | accB (r : IndexReg) (ind : Bool)
  /-- `A,R` (30 R96) -/
  | accA (r : IndexReg) (ind : Bool)
  /-- `n,R` with an 8-bit offset (30 R97) -/
  | offset8 (r : IndexReg) (n : Byte) (ind : Bool)
  /-- `n,R` with a 16-bit offset (30 R98) -/
  | offset16 (r : IndexReg) (n : Word) (ind : Bool)
  /-- `D,R` (30 R99) -/
  | accD (r : IndexReg) (ind : Bool)
  /-- `n,PCR` with an 8-bit offset (30 R101) -/
  | pcOffset8 (rr : BitVec 2) (n : Byte) (ind : Bool)
  /-- `n,PCR` with a 16-bit offset (30 R102) -/
  | pcOffset16 (rr : BitVec 2) (n : Word) (ind : Bool)
  /-- `[n]` (30 R103) -/
  | extIndirect (addr : Word)
  deriving DecidableEq, Repr

/-- A memory operand: formats DIR, EXT, IDX (30 R86, R87, R88). -/
inductive Ea where
  | dir (lo : Byte)
  | ext (addr : Word)
  | idx (m : Indexed)
  deriving DecidableEq, Repr

/-- An 8-bit source operand: format IMM8 or a memory operand (30 R112). -/
inductive Src8 where
  | imm (v : Byte)
  | mem (ea : Ea)
  deriving DecidableEq, Repr

/-- A 16-bit source operand: format IMM16 or a memory operand (30 R112). -/
inductive Src16 where
  | imm (v : Word)
  | mem (ea : Ea)
  deriving DecidableEq, Repr

/-- The ten registers a REGPAIR postbyte can name (30 R110). -/
inductive Reg where
  | d
  | x
  | y
  | u
  | s
  | pc
  | a
  | b
  | cc
  | dp
  deriving DecidableEq, Repr

/-- Whether a register is 16 bits wide (30 R110). -/
def Reg.wide : Reg → Bool
  | .d | .x | .y | .u | .s | .pc => true
  | .a | .b | .cc | .dp => false

/-- The REGLIST postbyte, bit by bit (30 R111); `other` is bit 6, U for PSHS and PULS and S for PSHU and PULU. -/
structure RegList where
  pc : Bool
  other : Bool
  y : Bool
  x : Bool
  dp : Bool
  b : Bool
  a : Bool
  cc : Bool
  deriving DecidableEq, Repr

/-- The instruction set, TABLES 4 to 8 in order. -/
inductive Instr where
  -- TABLE 4
  | adca (o : Src8)
  | adcb (o : Src8)
  | adda (o : Src8)
  | addb (o : Src8)
  | anda (o : Src8)
  | andb (o : Src8)
  | asl (ea : Ea)
  | asla
  | aslb
  | asr (ea : Ea)
  | asra
  | asrb
  | bita (o : Src8)
  | bitb (o : Src8)
  | clr (ea : Ea)
  | clra
  | clrb
  | cmpa (o : Src8)
  | cmpb (o : Src8)
  | com (ea : Ea)
  | coma
  | comb
  | daa
  | dec (ea : Ea)
  | deca
  | decb
  | eora (o : Src8)
  | eorb (o : Src8)
  | exg (r1 r2 : Reg)
  | inc (ea : Ea)
  | inca
  | incb
  | lda (o : Src8)
  | ldb (o : Src8)
  | lsr (ea : Ea)
  | lsra
  | lsrb
  | mul
  | neg (ea : Ea)
  | nega
  | negb
  | ora (o : Src8)
  | orb (o : Src8)
  | rol (ea : Ea)
  | rola
  | rolb
  | ror (ea : Ea)
  | rora
  | rorb
  | sbca (o : Src8)
  | sbcb (o : Src8)
  | sta (ea : Ea)
  | stb (ea : Ea)
  | suba (o : Src8)
  | subb (o : Src8)
  | tst (ea : Ea)
  | tsta
  | tstb
  | tfr (r1 r2 : Reg)
  -- TABLE 5
  | addd (o : Src16)
  | cmpd (o : Src16)
  | ldd (o : Src16)
  | sex
  | std (ea : Ea)
  | subd (o : Src16)
  -- TABLE 6
  | cmps (o : Src16)
  | cmpu (o : Src16)
  | cmpx (o : Src16)
  | cmpy (o : Src16)
  | leas (m : Indexed)
  | leau (m : Indexed)
  | leax (m : Indexed)
  | leay (m : Indexed)
  | lds (o : Src16)
  | ldu (o : Src16)
  | ldx (o : Src16)
  | ldy (o : Src16)
  | pshs (l : RegList)
  | pshu (l : RegList)
  | puls (l : RegList)
  | pulu (l : RegList)
  | sts (ea : Ea)
  | stu (ea : Ea)
  | stx (ea : Ea)
  | sty (ea : Ea)
  | abx
  -- TABLE 7
  | beq (off : Byte)
  | lbeq (off : Word)
  | bne (off : Byte)
  | lbne (off : Word)
  | bmi (off : Byte)
  | lbmi (off : Word)
  | bpl (off : Byte)
  | lbpl (off : Word)
  | bcs (off : Byte)
  | lbcs (off : Word)
  | bcc (off : Byte)
  | lbcc (off : Word)
  | bvs (off : Byte)
  | lbvs (off : Word)
  | bvc (off : Byte)
  | lbvc (off : Word)
  | bgt (off : Byte)
  | lbgt (off : Word)
  | bge (off : Byte)
  | lbge (off : Word)
  | ble (off : Byte)
  | lble (off : Word)
  | blt (off : Byte)
  | lblt (off : Word)
  | bhi (off : Byte)
  | lbhi (off : Word)
  | bls (off : Byte)
  | lbls (off : Word)
  | bsr (off : Byte)
  | lbsr (off : Word)
  | bra (off : Byte)
  | lbra (off : Word)
  | brn (off : Byte)
  | lbrn (off : Word)
  -- TABLE 8
  | andcc (m : Byte)
  | cwai (m : Byte)
  | nop
  | orcc (m : Byte)
  | jmp (ea : Ea)
  | jsr (ea : Ea)
  | rti
  | rts
  | swi
  | swi2
  | swi3
  | sync
  deriving DecidableEq, Repr

end Sys2Proof
end

