-- ==== Sys2Proof/WellFormed.lean ====
section
/-! DEFINITION. Which instruction terms an encoding exists for. The operand types already rule out a store with an
immediate operand (30 R85), an undefined register code and an illegal indexed form; what is left is that EXG and TFR
name two registers of one width (30 R110, 41 R173, R206). -/

namespace Sys2Proof

/-- The two registers of a REGPAIR postbyte have the same width (30 R110). -/
def pairWellFormed (r1 r2 : Reg) : Bool := r1.wide == r2.wide

/-- An instruction that some sequence of bytes encodes. -/
def Instr.wellFormed : Instr → Bool
  | .exg r1 r2 => pairWellFormed r1 r2
  | .tfr r1 r2 => pairWellFormed r1 r2
  | .adca _ | .adcb _ | .adda _ | .addb _ | .anda _ | .andb _ | .asl _ | .asla | .aslb | .asr _ | .asra | .asrb
  | .bita _ | .bitb _ | .clr _ | .clra | .clrb | .cmpa _ | .cmpb _ | .com _ | .coma | .comb | .daa | .dec _
  | .deca | .decb | .eora _ | .eorb _ | .inc _ | .inca | .incb | .lda _ | .ldb _ | .lsr _ | .lsra | .lsrb
  | .mul | .neg _ | .nega | .negb | .ora _ | .orb _ | .rol _ | .rola | .rolb | .ror _ | .rora | .rorb | .sbca _
  | .sbcb _ | .sta _ | .stb _ | .suba _ | .subb _ | .tst _ | .tsta | .tstb | .addd _ | .cmpd _ | .ldd _ | .sex
  | .std _ | .subd _ | .cmps _ | .cmpu _ | .cmpx _ | .cmpy _ | .leas _ | .leau _ | .leax _ | .leay _ | .lds _
  | .ldu _ | .ldx _ | .ldy _ | .pshs _ | .pshu _ | .puls _ | .pulu _ | .sts _ | .stu _ | .stx _ | .sty _ | .abx
  | .beq _ | .lbeq _ | .bne _ | .lbne _ | .bmi _ | .lbmi _ | .bpl _ | .lbpl _ | .bcs _ | .lbcs _ | .bcc _
  | .lbcc _ | .bvs _ | .lbvs _ | .bvc _ | .lbvc _ | .bgt _ | .lbgt _ | .bge _ | .lbge _ | .ble _ | .lble _
  | .blt _ | .lblt _ | .bhi _ | .lbhi _ | .bls _ | .lbls _ | .bsr _ | .lbsr _ | .bra _ | .lbra _ | .brn _
  | .lbrn _ | .andcc _ | .cwai _ | .nop | .orcc _ | .jmp _ | .jsr _ | .rti | .rts | .swi | .swi2 | .swi3
  | .sync => true

end Sys2Proof
end

