-- ==== Sys2Proof/Decode.lean ====
section
/-! DEFINITION. The decoder, total on any bytes and rejecting by name (30 R80 to R118), and after it the encoder. The
opcode maps have the manual's shape: page 1 as sixteen rows of sixteen cells (30 R113), pages 2 and 3 as lists (30 R114).
The encoder is written from the Encoding clause of each instruction's own rule. -/

namespace Sys2Proof

/-- Why bytes are no instruction. Each reason is the model fault `IllegalInstruction` (00 R12); `truncated` stands for a
list of bytes that ends inside an instruction, which a fetch never hands the decoder. -/
inductive Illegal where
  /-- a page 1 cell with no instruction (30 R115) -/
  | undefinedOpcode
  /-- a second byte that page 2 does not define (30 R116) -/
  | undefinedPage2
  /-- a second byte that page 3 does not define (30 R116) -/
  | undefinedPage3
  /-- an undefined indexed postbyte (30 R104) -/
  | indexedPostbyte
  /-- a register pair with an undefined code or two widths (30 R110) -/
  | registerPair
  /-- the bytes end inside the instruction -/
  | truncated
  deriving DecidableEq, Repr

/-- The answer of the decoder: an instruction and its length in bytes, or the reason it is none with the bytes decoded
so far (60 R417). -/
inductive Decoded where
  | ok (i : Instr) (length : Nat)
  | illegal (why : Illegal) (bytes : List Byte)
  deriving DecidableEq, Repr

/-- The ten formats (30 R80), each with what its operand makes of an opcode. -/
inductive Format where
  | inherent (i : Instr)
  | imm8 (k : Byte → Instr)
  | imm16 (k : Word → Instr)
  | direct (k : Byte → Instr)
  | extended (k : Word → Instr)
  | indexed (k : Indexed → Instr)
  | rel8 (k : Byte → Instr)
  | rel16 (k : Word → Instr)
  | regPair (k : Reg → Reg → Instr)
  | regList (k : RegList → Instr)

/-! ## Cells of the opcode maps -/

/-- A cell of format INH. -/
def inh (i : Instr) : Option Format := some (.inherent i)
/-- A cell of format IMM8 whose byte is no 8-bit accumulator's operand: ORCC, ANDCC, CWAI (30 R81, R125). -/
def byteOf (k : Byte → Instr) : Option Format := some (.imm8 k)
/-- A cell of format IMM8 of an 8-bit source operand. -/
def imm8Of (k : Src8 → Instr) : Option Format := some (.imm8 fun v => k (.imm v))
/-- A cell of format IMM16 of a 16-bit source operand. -/
def imm16Of (k : Src16 → Instr) : Option Format := some (.imm16 fun v => k (.imm v))
/-- A cell of format DIR of a memory operand. -/
def dirOf (k : Ea → Instr) : Option Format := some (.direct fun lo => k (.dir lo))
/-- A cell of format EXT of a memory operand. -/
def extOf (k : Ea → Instr) : Option Format := some (.extended fun a => k (.ext a))
/-- A cell of format IDX of a memory operand. -/
def idxOf (k : Ea → Instr) : Option Format := some (.indexed fun m => k (.idx m))
/-- A cell of format IDX of a LEA instruction. -/
def indexedOf (k : Indexed → Instr) : Option Format := some (.indexed k)
/-- A cell of format DIR of an 8-bit source operand. -/
def dirOf8 (k : Src8 → Instr) : Option Format := dirOf fun ea => k (.mem ea)
/-- A cell of format EXT of an 8-bit source operand. -/
def extOf8 (k : Src8 → Instr) : Option Format := extOf fun ea => k (.mem ea)
/-- A cell of format IDX of an 8-bit source operand. -/
def idxOf8 (k : Src8 → Instr) : Option Format := idxOf fun ea => k (.mem ea)
/-- A cell of format DIR of a 16-bit source operand. -/
def dirOf16 (k : Src16 → Instr) : Option Format := dirOf fun ea => k (.mem ea)
/-- A cell of format EXT of a 16-bit source operand. -/
def extOf16 (k : Src16 → Instr) : Option Format := extOf fun ea => k (.mem ea)
/-- A cell of format IDX of a 16-bit source operand. -/
def idxOf16 (k : Src16 → Instr) : Option Format := idxOf fun ea => k (.mem ea)
/-- A cell of format REL8. -/
def rel8Of (k : Byte → Instr) : Option Format := some (.rel8 k)
/-- A cell of format REL16. -/
def rel16Of (k : Word → Instr) : Option Format := some (.rel16 k)
/-- A cell of format REGPAIR. -/
def pairOf (k : Reg → Reg → Instr) : Option Format := some (.regPair k)
/-- A cell of format REGLIST. -/
def listOf (k : RegList → Instr) : Option Format := some (.regList k)

/-! ## The opcode maps -/

/-- Row 0 of the page 1 map (30 R113). -/
def page1Row0 : List (Option Format) :=
  [dirOf .neg, none, none, dirOf .com, dirOf .lsr, none, dirOf .ror, dirOf .asr, dirOf .asl, dirOf .rol,
   dirOf .dec, none, dirOf .inc, dirOf .tst, dirOf .jmp, dirOf .clr]

/-- Row 1 of the page 1 map (30 R113). -/
def page1Row1 : List (Option Format) :=
  [none, none, inh .nop, inh .sync, none, none, rel16Of .lbra, rel16Of .lbsr, none, inh .daa, byteOf .orcc, none,
   byteOf .andcc, inh .sex, pairOf .exg, pairOf .tfr]

/-- Row 2 of the page 1 map (30 R113). -/
def page1Row2 : List (Option Format) :=
  [rel8Of .bra, rel8Of .brn, rel8Of .bhi, rel8Of .bls, rel8Of .bcc, rel8Of .bcs, rel8Of .bne, rel8Of .beq,
   rel8Of .bvc, rel8Of .bvs, rel8Of .bpl, rel8Of .bmi, rel8Of .bge, rel8Of .blt, rel8Of .bgt, rel8Of .ble]

/-- Row 3 of the page 1 map (30 R113). -/
def page1Row3 : List (Option Format) :=
  [indexedOf .leax, indexedOf .leay, indexedOf .leas, indexedOf .leau, listOf .pshs, listOf .puls, listOf .pshu,
   listOf .pulu, none, inh .rts, inh .abx, inh .rti, byteOf .cwai, inh .mul, none, inh .swi]

/-- Row 4 of the page 1 map (30 R113). -/
def page1Row4 : List (Option Format) :=
  [inh .nega, none, none, inh .coma, inh .lsra, none, inh .rora, inh .asra, inh .asla, inh .rola, inh .deca, none,
   inh .inca, inh .tsta, none, inh .clra]

/-- Row 5 of the page 1 map (30 R113). -/
def page1Row5 : List (Option Format) :=
  [inh .negb, none, none, inh .comb, inh .lsrb, none, inh .rorb, inh .asrb, inh .aslb, inh .rolb, inh .decb, none,
   inh .incb, inh .tstb, none, inh .clrb]

/-- Row 6 of the page 1 map (30 R113). -/
def page1Row6 : List (Option Format) :=
  [idxOf .neg, none, none, idxOf .com, idxOf .lsr, none, idxOf .ror, idxOf .asr, idxOf .asl, idxOf .rol,
   idxOf .dec, none, idxOf .inc, idxOf .tst, idxOf .jmp, idxOf .clr]

/-- Row 7 of the page 1 map (30 R113). -/
def page1Row7 : List (Option Format) :=
  [extOf .neg, none, none, extOf .com, extOf .lsr, none, extOf .ror, extOf .asr, extOf .asl, extOf .rol,
   extOf .dec, none, extOf .inc, extOf .tst, extOf .jmp, extOf .clr]

/-- Row 8 of the page 1 map (30 R113). -/
def page1Row8 : List (Option Format) :=
  [imm8Of .suba, imm8Of .cmpa, imm8Of .sbca, imm16Of .subd, imm8Of .anda, imm8Of .bita, imm8Of .lda, none,
   imm8Of .eora, imm8Of .adca, imm8Of .ora, imm8Of .adda, imm16Of .cmpx, rel8Of .bsr, imm16Of .ldx, none]

/-- Row 9 of the page 1 map (30 R113). -/
def page1Row9 : List (Option Format) :=
  [dirOf8 .suba, dirOf8 .cmpa, dirOf8 .sbca, dirOf16 .subd, dirOf8 .anda, dirOf8 .bita, dirOf8 .lda, dirOf .sta,
   dirOf8 .eora, dirOf8 .adca, dirOf8 .ora, dirOf8 .adda, dirOf16 .cmpx, dirOf .jsr, dirOf16 .ldx, dirOf .stx]

/-- Row A of the page 1 map (30 R113). -/
def page1RowA : List (Option Format) :=
  [idxOf8 .suba, idxOf8 .cmpa, idxOf8 .sbca, idxOf16 .subd, idxOf8 .anda, idxOf8 .bita, idxOf8 .lda, idxOf .sta,
   idxOf8 .eora, idxOf8 .adca, idxOf8 .ora, idxOf8 .adda, idxOf16 .cmpx, idxOf .jsr, idxOf16 .ldx, idxOf .stx]

/-- Row B of the page 1 map (30 R113). -/
def page1RowB : List (Option Format) :=
  [extOf8 .suba, extOf8 .cmpa, extOf8 .sbca, extOf16 .subd, extOf8 .anda, extOf8 .bita, extOf8 .lda, extOf .sta,
   extOf8 .eora, extOf8 .adca, extOf8 .ora, extOf8 .adda, extOf16 .cmpx, extOf .jsr, extOf16 .ldx, extOf .stx]

/-- Row C of the page 1 map (30 R113). -/
def page1RowC : List (Option Format) :=
  [imm8Of .subb, imm8Of .cmpb, imm8Of .sbcb, imm16Of .addd, imm8Of .andb, imm8Of .bitb, imm8Of .ldb, none,
   imm8Of .eorb, imm8Of .adcb, imm8Of .orb, imm8Of .addb, imm16Of .ldd, none, imm16Of .ldu, none]

/-- Row D of the page 1 map (30 R113). -/
def page1RowD : List (Option Format) :=
  [dirOf8 .subb, dirOf8 .cmpb, dirOf8 .sbcb, dirOf16 .addd, dirOf8 .andb, dirOf8 .bitb, dirOf8 .ldb, dirOf .stb,
   dirOf8 .eorb, dirOf8 .adcb, dirOf8 .orb, dirOf8 .addb, dirOf16 .ldd, dirOf .std, dirOf16 .ldu, dirOf .stu]

/-- Row E of the page 1 map (30 R113). -/
def page1RowE : List (Option Format) :=
  [idxOf8 .subb, idxOf8 .cmpb, idxOf8 .sbcb, idxOf16 .addd, idxOf8 .andb, idxOf8 .bitb, idxOf8 .ldb, idxOf .stb,
   idxOf8 .eorb, idxOf8 .adcb, idxOf8 .orb, idxOf8 .addb, idxOf16 .ldd, idxOf .std, idxOf16 .ldu, idxOf .stu]

/-- Row F of the page 1 map (30 R113). -/
def page1RowF : List (Option Format) :=
  [extOf8 .subb, extOf8 .cmpb, extOf8 .sbcb, extOf16 .addd, extOf8 .andb, extOf8 .bitb, extOf8 .ldb, extOf .stb,
   extOf8 .eorb, extOf8 .adcb, extOf8 .orb, extOf8 .addb, extOf16 .ldd, extOf .std, extOf16 .ldu, extOf .stu]

/-- The page 1 map (30 R113), row by the high nibble, column by the low; cells 0x10 and 0x11 are the page bytes. -/
def page1 : List (List (Option Format)) :=
  [page1Row0, page1Row1, page1Row2, page1Row3, page1Row4, page1Row5, page1Row6, page1Row7,
   page1Row8, page1Row9, page1RowA, page1RowB, page1RowC, page1RowD, page1RowE, page1RowF]

/-- The format of a page 1 opcode, if the map defines it. -/
def page1Format (b : Byte) : Option Format :=
  ((page1.getD (b.toNat / 16) []).getD (b.toNat % 16) none)

/-- Page 2, the second bytes after 0x10 (30 R114). -/
def page2 : List (Byte × Option Format) :=
  [(0x21, rel16Of .lbrn), (0x22, rel16Of .lbhi), (0x23, rel16Of .lbls), (0x24, rel16Of .lbcc),
   (0x25, rel16Of .lbcs), (0x26, rel16Of .lbne), (0x27, rel16Of .lbeq), (0x28, rel16Of .lbvc),
   (0x29, rel16Of .lbvs), (0x2A, rel16Of .lbpl), (0x2B, rel16Of .lbmi), (0x2C, rel16Of .lbge),
   (0x2D, rel16Of .lblt), (0x2E, rel16Of .lbgt), (0x2F, rel16Of .lble), (0x3F, inh .swi2), (0x83, imm16Of .cmpd),
   (0x8C, imm16Of .cmpy), (0x8E, imm16Of .ldy), (0x93, dirOf16 .cmpd), (0x9C, dirOf16 .cmpy),
   (0x9E, dirOf16 .ldy), (0x9F, dirOf .sty), (0xA3, idxOf16 .cmpd), (0xAC, idxOf16 .cmpy), (0xAE, idxOf16 .ldy),
   (0xAF, idxOf .sty), (0xB3, extOf16 .cmpd), (0xBC, extOf16 .cmpy), (0xBE, extOf16 .ldy), (0xBF, extOf .sty),
   (0xCE, imm16Of .lds), (0xDE, dirOf16 .lds), (0xDF, dirOf .sts), (0xEE, idxOf16 .lds), (0xEF, idxOf .sts),
   (0xFE, extOf16 .lds), (0xFF, extOf .sts)]

/-- Page 3, the second bytes after 0x11 (30 R114). -/
def page3 : List (Byte × Option Format) :=
  [(0x3F, inh .swi3), (0x83, imm16Of .cmpu), (0x8C, imm16Of .cmps), (0x93, dirOf16 .cmpu), (0x9C, dirOf16 .cmps),
   (0xA3, idxOf16 .cmpu), (0xAC, idxOf16 .cmps), (0xB3, extOf16 .cmpu), (0xBC, extOf16 .cmps)]

/-- The cell of a second byte in page 2 or page 3; a byte the page does not list has none. -/
def cellOf (b : Byte) : List (Byte × Option Format) → Option Format
  | [] => none
  | (k, f) :: rest => if b = k then f else cellOf b rest

/-! ## Operand bytes -/

/-- IDXREG[rr] (00 R9). -/
def indexReg (rr : BitVec 2) : IndexReg :=
  if rr = 0 then .x else if rr = 1 then .y else if rr = 2 then .u else .s

/-- The answer for an indexed operand: the operand and how many bytes follow the postbyte. -/
inductive IndexedDecoded where
  | ok (m : Indexed) (extra : Nat)
  | illegal
  | truncated
  deriving DecidableEq, Repr

/-- An indexed operand that takes one byte after the postbyte. -/
def oneMore (k : Byte → Indexed) : List Byte → IndexedDecoded
  | o :: _ => .ok (k o) 1
  | [] => .truncated

/-- An indexed operand that takes two bytes after the postbyte, high byte first. -/
def twoMore (k : Word → Indexed) : List Byte → IndexedDecoded
  | h :: l :: _ => .ok (k (joinBytes h l)) 2
  | _ => .truncated

/-- The indexed postbyte `pb` and the bytes after it (30 R88 to R104). -/
def decodeIndexed (pb : Byte) (more : List Byte) : IndexedDecoded :=
  let rr : BitVec 2 := pb.extractLsb' 5 2
  let r := indexReg rr
  let ind := pb.getLsbD 4
  if pb.getLsbD 7 = false then .ok (.offset5 r (pb.extractLsb' 0 5)) 0
  else
    match (pb.extractLsb' 0 4 : BitVec 4).toNat with
    | 0x0 => if ind then .illegal else .ok (.postInc1 r) 0
    | 0x1 => .ok (.postInc2 r ind) 0
    | 0x2 => if ind then .illegal else .ok (.preDec1 r) 0
    | 0x3 => .ok (.preDec2 r ind) 0
    | 0x4 => .ok (.noOffset r ind) 0
    | 0x5 => .ok (.accB r ind) 0
    | 0x6 => .ok (.accA r ind) 0
    | 0x8 => oneMore (fun o => .offset8 r o ind) more
    | 0x9 => twoMore (fun o => .offset16 r o ind) more
    | 0xB => .ok (.accD r ind) 0
    | 0xC => oneMore (fun o => .pcOffset8 rr o ind) more
    | 0xD => twoMore (fun o => .pcOffset16 rr o ind) more
    | 0xF => if pb = 0x9F then twoMore .extIndirect more else .illegal
    | _ => .illegal

/-- The register of a REGPAIR code (30 R110). -/
def regOfCode (c : BitVec 4) : Option Reg :=
  match c.toNat with
  | 0x0 => some .d
  | 0x1 => some .x
  | 0x2 => some .y
  | 0x3 => some .u
  | 0x4 => some .s
  | 0x5 => some .pc
  | 0x8 => some .a
  | 0x9 => some .b
  | 0xA => some .cc
  | 0xB => some .dp
  | _ => none

/-- The two registers of a REGPAIR postbyte, if both codes are defined and the widths agree (30 R110). -/
def pairOfByte (pb : Byte) : Option (Reg × Reg) :=
  match regOfCode (pb.extractLsb' 4 4), regOfCode (pb.extractLsb' 0 4) with
  | some r1, some r2 => if pairWellFormed r1 r2 then some (r1, r2) else none
  | _, _ => none

/-- The register list of a REGLIST postbyte (30 R111): every byte is legal. -/
def listOfByte (pb : Byte) : RegList :=
  { pc := pb.getLsbD 7, other := pb.getLsbD 6, y := pb.getLsbD 5, x := pb.getLsbD 4,
    dp := pb.getLsbD 3, b := pb.getLsbD 2, a := pb.getLsbD 1, cc := pb.getLsbD 0 }

/-- The operand bytes `rest` after the opcode bytes `op`, as the format asks (30 R80, R83). -/
def decodeOperand (op : List Byte) (f : Format) (rest : List Byte) : Decoded :=
  match f, rest with
  | .inherent i, _ => .ok i op.length
  | .imm8 k, v :: _ => .ok (k v) (op.length + 1)
  | .direct k, lo :: _ => .ok (k lo) (op.length + 1)
  | .rel8 k, off :: _ => .ok (k off) (op.length + 1)
  | .imm16 k, h :: l :: _ => .ok (k (joinBytes h l)) (op.length + 2)
  | .extended k, h :: l :: _ => .ok (k (joinBytes h l)) (op.length + 2)
  | .rel16 k, h :: l :: _ => .ok (k (joinBytes h l)) (op.length + 2)
  | .regList k, pb :: _ => .ok (k (listOfByte pb)) (op.length + 1)
  | .regPair k, pb :: _ =>
    match pairOfByte pb with
    | some (r1, r2) => .ok (k r1 r2) (op.length + 1)
    | none => .illegal .registerPair (op ++ [pb])
  | .indexed k, pb :: more =>
    match decodeIndexed pb more with
    | .ok m extra => .ok (k m) (op.length + 1 + extra)
    | .illegal => .illegal .indexedPostbyte (op ++ [pb])
    | .truncated => .illegal .truncated (op ++ pb :: more)
  | _, short => .illegal .truncated (op ++ short)

/-- An opcode's cell and the bytes after it: an empty cell is the illegal opcode `why` (30 R115, R116). -/
def decodeCell (why : Illegal) (op : List Byte) (cell : Option Format) (rest : List Byte) : Decoded :=
  match cell with
  | some f => decodeOperand op f rest
  | none => .illegal why op

/-- The decoder (30 R82, R83): a first byte 0x10 or 0x11 selects page 2 or page 3, any other is looked up in page 1. -/
def decode (bytes : List Byte) : Decoded :=
  match bytes with
  | [] => .illegal .truncated []
  | b0 :: rest =>
    if b0 = 0x10 then
      match rest with
      | [] => .illegal .truncated [b0]
      | b1 :: more => decodeCell .undefinedPage2 [b0, b1] (cellOf b1 page2) more
    else if b0 = 0x11 then
      match rest with
      | [] => .illegal .truncated [b0]
      | b1 :: more => decodeCell .undefinedPage3 [b0, b1] (cellOf b1 page3) more
    else decodeCell .undefinedOpcode [b0] (page1Format b0) rest

/-! ## The encoder -/

/-- The field `rr` of a base register (30 R88). -/
def IndexReg.code : IndexReg → BitVec 2
  | .x => 0
  | .y => 1
  | .u => 2
  | .s => 3

/-- The postbyte `1 rr i mode` (30 R88). -/
def modeByte (rr : BitVec 2) (ind : Bool) (mode : BitVec 4) : Byte :=
  1#1 ++ rr ++ BitVec.ofBool ind ++ mode

/-- The postbyte of an indexed operand and the bytes after it (30 R107). -/
def encodeIndexed : Indexed → List Byte
  | .offset5 r n => [0#1 ++ r.code ++ n]
  | .postInc1 r => [modeByte r.code false 0x0]
  | .postInc2 r ind => [modeByte r.code ind 0x1]
  | .preDec1 r => [modeByte r.code false 0x2]
  | .preDec2 r ind => [modeByte r.code ind 0x3]
  | .noOffset r ind => [modeByte r.code ind 0x4]
  | .accB r ind => [modeByte r.code ind 0x5]
  | .accA r ind => [modeByte r.code ind 0x6]
  | .offset8 r n ind => [modeByte r.code ind 0x8, n]
  | .offset16 r n ind => [modeByte r.code ind 0x9, hiByte n, loByte n]
  | .accD r ind => [modeByte r.code ind 0xB]
  | .pcOffset8 rr n ind => [modeByte rr ind 0xC, n]
  | .pcOffset16 rr n ind => [modeByte rr ind 0xD, hiByte n, loByte n]
  | .extIndirect a => [0x9F, hiByte a, loByte a]

/-- The bytes of a memory operand behind the page byte and the opcode of its format. -/
def encodeEa (page : List Byte) (dir idx ext : Byte) : Ea → List Byte
  | .dir lo => page ++ [dir, lo]
  | .idx m => page ++ idx :: encodeIndexed m
  | .ext a => page ++ [ext, hiByte a, loByte a]

/-- The bytes of an instruction with an 8-bit source operand, from the opcodes of its four formats. -/
def encodeSrc8 (imm dir idx ext : Byte) : Src8 → List Byte
  | .imm v => [imm, v]
  | .mem ea => encodeEa [] dir idx ext ea

/-- The bytes of an instruction with a 16-bit source operand, from its page byte and the opcodes of its formats. -/
def encodeSrc16 (page : List Byte) (imm dir idx ext : Byte) : Src16 → List Byte
  | .imm v => page ++ [imm, hiByte v, loByte v]
  | .mem ea => encodeEa page dir idx ext ea

/-- The REGPAIR code of a register (30 R110). -/
def Reg.code : Reg → BitVec 4
  | .d => 0x0
  | .x => 0x1
  | .y => 0x2
  | .u => 0x3
  | .s => 0x4
  | .pc => 0x5
  | .a => 0x8
  | .b => 0x9
  | .cc => 0xA
  | .dp => 0xB

/-- The REGPAIR postbyte (30 R110). -/
def pairByte (r1 r2 : Reg) : Byte := r1.code ++ r2.code

/-- The REGLIST postbyte (30 R111). -/
def RegList.toByte (l : RegList) : Byte :=
  BitVec.ofBool l.pc ++ BitVec.ofBool l.other ++ BitVec.ofBool l.y ++ BitVec.ofBool l.x ++
    BitVec.ofBool l.dp ++ BitVec.ofBool l.b ++ BitVec.ofBool l.a ++ BitVec.ofBool l.cc

/-- The bytes of an instruction, each line from the Encoding clause of the instruction's rule. -/
def encode : Instr → List Byte
  | .adca o => encodeSrc8 0x89 0x99 0xA9 0xB9 o
  | .adcb o => encodeSrc8 0xC9 0xD9 0xE9 0xF9 o
  | .adda o => encodeSrc8 0x8B 0x9B 0xAB 0xBB o
  | .addb o => encodeSrc8 0xCB 0xDB 0xEB 0xFB o
  | .anda o => encodeSrc8 0x84 0x94 0xA4 0xB4 o
  | .andb o => encodeSrc8 0xC4 0xD4 0xE4 0xF4 o
  | .asl ea => encodeEa [] 0x08 0x68 0x78 ea
  | .asla => [0x48]
  | .aslb => [0x58]
  | .asr ea => encodeEa [] 0x07 0x67 0x77 ea
  | .asra => [0x47]
  | .asrb => [0x57]
  | .bita o => encodeSrc8 0x85 0x95 0xA5 0xB5 o
  | .bitb o => encodeSrc8 0xC5 0xD5 0xE5 0xF5 o
  | .clr ea => encodeEa [] 0x0F 0x6F 0x7F ea
  | .clra => [0x4F]
  | .clrb => [0x5F]
  | .cmpa o => encodeSrc8 0x81 0x91 0xA1 0xB1 o
  | .cmpb o => encodeSrc8 0xC1 0xD1 0xE1 0xF1 o
  | .com ea => encodeEa [] 0x03 0x63 0x73 ea
  | .coma => [0x43]
  | .comb => [0x53]
  | .daa => [0x19]
  | .dec ea => encodeEa [] 0x0A 0x6A 0x7A ea
  | .deca => [0x4A]
  | .decb => [0x5A]
  | .eora o => encodeSrc8 0x88 0x98 0xA8 0xB8 o
  | .eorb o => encodeSrc8 0xC8 0xD8 0xE8 0xF8 o
  | .exg r1 r2 => [0x1E, pairByte r1 r2]
  | .inc ea => encodeEa [] 0x0C 0x6C 0x7C ea
  | .inca => [0x4C]
  | .incb => [0x5C]
  | .lda o => encodeSrc8 0x86 0x96 0xA6 0xB6 o
  | .ldb o => encodeSrc8 0xC6 0xD6 0xE6 0xF6 o
  | .lsr ea => encodeEa [] 0x04 0x64 0x74 ea
  | .lsra => [0x44]
  | .lsrb => [0x54]
  | .mul => [0x3D]
  | .neg ea => encodeEa [] 0x00 0x60 0x70 ea
  | .nega => [0x40]
  | .negb => [0x50]
  | .ora o => encodeSrc8 0x8A 0x9A 0xAA 0xBA o
  | .orb o => encodeSrc8 0xCA 0xDA 0xEA 0xFA o
  | .rol ea => encodeEa [] 0x09 0x69 0x79 ea
  | .rola => [0x49]
  | .rolb => [0x59]
  | .ror ea => encodeEa [] 0x06 0x66 0x76 ea
  | .rora => [0x46]
  | .rorb => [0x56]
  | .sbca o => encodeSrc8 0x82 0x92 0xA2 0xB2 o
  | .sbcb o => encodeSrc8 0xC2 0xD2 0xE2 0xF2 o
  | .sta ea => encodeEa [] 0x97 0xA7 0xB7 ea
  | .stb ea => encodeEa [] 0xD7 0xE7 0xF7 ea
  | .suba o => encodeSrc8 0x80 0x90 0xA0 0xB0 o
  | .subb o => encodeSrc8 0xC0 0xD0 0xE0 0xF0 o
  | .tst ea => encodeEa [] 0x0D 0x6D 0x7D ea
  | .tsta => [0x4D]
  | .tstb => [0x5D]
  | .tfr r1 r2 => [0x1F, pairByte r1 r2]
  | .addd o => encodeSrc16 [] 0xC3 0xD3 0xE3 0xF3 o
  | .cmpd o => encodeSrc16 [0x10] 0x83 0x93 0xA3 0xB3 o
  | .ldd o => encodeSrc16 [] 0xCC 0xDC 0xEC 0xFC o
  | .sex => [0x1D]
  | .std ea => encodeEa [] 0xDD 0xED 0xFD ea
  | .subd o => encodeSrc16 [] 0x83 0x93 0xA3 0xB3 o
  | .cmps o => encodeSrc16 [0x11] 0x8C 0x9C 0xAC 0xBC o
  | .cmpu o => encodeSrc16 [0x11] 0x83 0x93 0xA3 0xB3 o
  | .cmpx o => encodeSrc16 [] 0x8C 0x9C 0xAC 0xBC o
  | .cmpy o => encodeSrc16 [0x10] 0x8C 0x9C 0xAC 0xBC o
  | .leas m => 0x32 :: encodeIndexed m
  | .leau m => 0x33 :: encodeIndexed m
  | .leax m => 0x30 :: encodeIndexed m
  | .leay m => 0x31 :: encodeIndexed m
  | .lds o => encodeSrc16 [0x10] 0xCE 0xDE 0xEE 0xFE o
  | .ldu o => encodeSrc16 [] 0xCE 0xDE 0xEE 0xFE o
  | .ldx o => encodeSrc16 [] 0x8E 0x9E 0xAE 0xBE o
  | .ldy o => encodeSrc16 [0x10] 0x8E 0x9E 0xAE 0xBE o
  | .pshs l => [0x34, l.toByte]
  | .pshu l => [0x36, l.toByte]
  | .puls l => [0x35, l.toByte]
  | .pulu l => [0x37, l.toByte]
  | .sts ea => encodeEa [0x10] 0xDF 0xEF 0xFF ea
  | .stu ea => encodeEa [] 0xDF 0xEF 0xFF ea
  | .stx ea => encodeEa [] 0x9F 0xAF 0xBF ea
  | .sty ea => encodeEa [0x10] 0x9F 0xAF 0xBF ea
  | .abx => [0x3A]
  | .beq off => [0x27, off]
  | .lbeq off => [0x10, 0x27, hiByte off, loByte off]
  | .bne off => [0x26, off]
  | .lbne off => [0x10, 0x26, hiByte off, loByte off]
  | .bmi off => [0x2B, off]
  | .lbmi off => [0x10, 0x2B, hiByte off, loByte off]
  | .bpl off => [0x2A, off]
  | .lbpl off => [0x10, 0x2A, hiByte off, loByte off]
  | .bcs off => [0x25, off]
  | .lbcs off => [0x10, 0x25, hiByte off, loByte off]
  | .bcc off => [0x24, off]
  | .lbcc off => [0x10, 0x24, hiByte off, loByte off]
  | .bvs off => [0x29, off]
  | .lbvs off => [0x10, 0x29, hiByte off, loByte off]
  | .bvc off => [0x28, off]
  | .lbvc off => [0x10, 0x28, hiByte off, loByte off]
  | .bgt off => [0x2E, off]
  | .lbgt off => [0x10, 0x2E, hiByte off, loByte off]
  | .bge off => [0x2C, off]
  | .lbge off => [0x10, 0x2C, hiByte off, loByte off]
  | .ble off => [0x2F, off]
  | .lble off => [0x10, 0x2F, hiByte off, loByte off]
  | .blt off => [0x2D, off]
  | .lblt off => [0x10, 0x2D, hiByte off, loByte off]
  | .bhi off => [0x22, off]
  | .lbhi off => [0x10, 0x22, hiByte off, loByte off]
  | .bls off => [0x23, off]
  | .lbls off => [0x10, 0x23, hiByte off, loByte off]
  | .bsr off => [0x8D, off]
  | .lbsr off => [0x17, hiByte off, loByte off]
  | .bra off => [0x20, off]
  | .lbra off => [0x16, hiByte off, loByte off]
  | .brn off => [0x21, off]
  | .lbrn off => [0x10, 0x21, hiByte off, loByte off]
  | .andcc m => [0x1C, m]
  | .cwai m => [0x3C, m]
  | .nop => [0x12]
  | .orcc m => [0x1A, m]
  | .jmp ea => encodeEa [] 0x0E 0x6E 0x7E ea
  | .jsr ea => encodeEa [] 0x9D 0xAD 0xBD ea
  | .rti => [0x3B]
  | .rts => [0x39]
  | .swi => [0x3F]
  | .swi2 => [0x10, 0x3F]
  | .swi3 => [0x11, 0x3F]
  | .sync => [0x13]

/-! ## The opcode table's words -/

/-- Whether a byte selects page 2 or page 3 (30 R82). -/
def isPageByte (b : Byte) : Bool := b == 0x10 || b == 0x11

/-- The low `n` bytes of a number, least significant first. -/
def bytesOfNat : Nat → Nat → List Byte
  | 0, _ => []
  | n + 1, w => BitVec.ofNat 8 w :: bytesOfNat n (w / 256)

/-- The longest instruction, in bytes (30 R80). -/
def longest : Nat := 5

/-- The bytes of an instruction given as the number `w` of `nbits` bits. spec/opcode_table.json writes a two-byte opcode
with its page byte leftmost (30 section 3, `match`), so a number whose top byte is a page byte is read top byte first;
any other number is read with its first byte in the low bits. Zero bytes follow up to the longest instruction (log 12). -/
def tableBytes (nbits w : Nat) : List Byte :=
  let low := bytesOfNat ((nbits + 7) / 8) w
  let ordered :=
    match low.reverse with
    | top :: rest => if isPageByte top && !rest.isEmpty then top :: rest else low
    | [] => []
  (ordered ++ List.replicate longest 0).take (max longest ordered.length)

/-- The instruction the decoder reads from a word of spec/opcode_table.json. -/
def decodeTableWord (nbits w : Nat) : Option Instr :=
  match decode (tableBytes nbits w) with
  | .ok i _ => some i
  | .illegal _ _ => none

end Sys2Proof
end

