-- ==== Sys2Proof/Machine/Memory.lean ====
section
/-! DEFINITION. The 65,536 bytes of memory (20 R50) as a list of address and byte pairs in one canonical form: addresses
strictly rising and below 2^16, and no entry equal to what an unlisted address reads as, so that equal memories are equal
lists. -/

namespace Sys2Proof.Machine

/-- Memory contents: the listed bytes; every other address reads as `Memory.unlisted`. -/
abbrev Memory := List Host.Cell

/-- What an address that the list does not name reads as. DESIGN CHOICE (log 3): the spec leaves RAM at power-up to the
platform (20 R59, 93 U8). -/
def Memory.unlisted : Byte := 0x00

/-- The content of an address. -/
def Memory.read : Memory → Nat → Byte
  | [], _ => Memory.unlisted
  | (k, v) :: rest, a => if a = k then v else Memory.read rest a

/-- The list without the address. -/
def Memory.erase : Memory → Nat → Memory
  | [], _ => []
  | (k, v) :: rest, a => if a = k then Memory.erase rest a else (k, v) :: Memory.erase rest a

/-- The list with the address holding `v`, in rising order. -/
def Memory.insert : Memory → Nat → Byte → Memory
  | [], a, v => [(a, v)]
  | (k, w) :: rest, a, v =>
    if a < k then (a, v) :: (k, w) :: rest
    else if a = k then (a, v) :: rest
    else (k, w) :: Memory.insert rest a v

/-- The memory after storing `v` at an address: storing what an unlisted address reads as removes the entry. -/
def Memory.write (m : Memory) (a : Nat) (v : Byte) : Memory :=
  if v = Memory.unlisted then m.erase a else m.insert a v

/-- Every listed address is above `lo`, below 2^16 and rising, and no listed byte is the unlisted one. -/
def Memory.wfAbove (lo : Nat) : Memory → Bool
  | [] => true
  | (k, v) :: rest => decide (lo ≤ k) && decide (k < 65536) && v != Memory.unlisted && Memory.wfAbove (k + 1) rest

/-- The canonical form. -/
def Memory.wf (m : Memory) : Bool := m.wfAbove 0

/-- The content of an address and its successor modulo 2^16, high byte first (20 R53): what `MemRead(addr, 2)` returns
where both are RAM or ROM. -/
def Memory.word (m : Memory) (a : Word) : Word := joinBytes (m.read a.toNat) (m.read (a + 1).toNat)

end Sys2Proof.Machine
end

