-- ==== Sys2Proof/Machine/State.lean ====
section
/-! DEFINITION. The state of the machine: the registers (10 R20), the hidden state (10 R40), memory and what the platform
puts at each address (20 R50, R59), the environment's interrupt inputs (60 R401), and two fields of the model's own. -/

namespace Sys2Proof.Machine

/-- The condition code register, bit 7 to bit 0 (10 R27). No bit is reserved or hardwired, so the eight flags are the
whole register (log 16). -/
structure CC where
  /-- bit 7, entire state on the stack (10 R35) -/
  e : Bool
  /-- bit 6, FIRQ mask (10 R34) -/
  f : Bool
  /-- bit 5, half carry (10 R33) -/
  h : Bool
  /-- bit 4, IRQ mask (10 R32) -/
  i : Bool
  /-- bit 3, negative (10 R31) -/
  n : Bool
  /-- bit 2, zero (10 R30) -/
  z : Bool
  /-- bit 1, two's-complement overflow (10 R29) -/
  v : Bool
  /-- bit 0, carry or borrow (10 R28) -/
  c : Bool
  deriving DecidableEq, Repr

/-- What the processor is doing between steps (10 R40). -/
inductive Wait where
  | running
  | syncing
  | cwaiWaiting
  deriving DecidableEq, Repr

/-- What answers at an address (20 R59). -/
inductive RegionKind where
  /-- a read returns the last byte written -/
  | ram
  /-- a read returns a fixed byte, a write has no effect -/
  | rom
  /-- the environment answers a read, with side effects, and receives a write -/
  | device
  /-- the environment answers a read, a write has no effect -/
  | unpopulated
  deriving DecidableEq, Repr

/-- A run of addresses `base`, ..., `base + size - 1` of one kind. -/
structure Region where
  base : Nat
  size : Nat
  kind : RegionKind
  deriving DecidableEq, Repr

/-- The environment's inputs at one step, `IrqInputs` (60 R401). -/
structure Inputs where
  /-- the RESET line is asserted -/
  reset : Bool
  /-- a falling edge of the NMI line since the step before -/
  nmiEdge : Bool
  /-- the FIRQ line is asserted now -/
  firq : Bool
  /-- the IRQ line is asserted now -/
  irq : Bool
  deriving DecidableEq, Repr

/-- No input asserted. -/
def Inputs.quiet : Inputs := { reset := false, nmiEdge := false, firq := false, irq := false }

/-- The machine. -/
structure State where
  /-- accumulator A (10 R20) -/
  a : Byte
  /-- accumulator B (10 R20) -/
  b : Byte
  /-- direct page register (10 R38) -/
  dp : Byte
  /-- condition codes (10 R27) -/
  cc : CC
  /-- index register X (10 R22) -/
  x : Word
  /-- index register Y (10 R22) -/
  y : Word
  /-- user stack pointer U (10 R23) -/
  u : Word
  /-- hardware stack pointer S (10 R23) -/
  s : Word
  /-- program counter (10 R25) -/
  pc : Word
  /-- NMI requests are heeded (10 R40, 60 R405) -/
  nmiArmed : Bool
  /-- an NMI edge has been latched and not yet serviced (10 R40, 60 R405) -/
  nmiPending : Bool
  /-- executing, in SYNC or in CWAI (10 R40) -/
  wait : Wait
  /-- the contents of RAM and ROM (20 R50) -/
  mem : Memory
  /-- the parameter `Mem` (00 R6, 20 R59): the first region that holds an address gives its kind, an address in no
  region is RAM; no step changes it (log 4) -/
  platform : List Region
  /-- the parameter `IrqInputs` (00 R6, 60 R401): the inputs of this step and of those after it; beyond the list no
  input is asserted (log 8) -/
  inputs : List Inputs
  /-- the model's own: the accesses the environment has answered or received, newest first (20 R59, log 5) -/
  bus : List BusAccess
  /-- the model's own: how many free draws have been taken (00 R13, log 6) -/
  draws : Nat
  deriving DecidableEq, Repr

/-- Why the machine stops. -/
inductive Fault where
  /-- `IllegalInstruction` (00 R12, 60 R417): raised by fetch and decode, and by EXG and TFR on a pair of two widths,
  before any effect; `address` is that of the first byte, `bytes` those decoded so far. It is the model's, not a trap of
  the hardware, and safe: no claim about such a run can be proved past it (log 9). -/
  | illegalInstruction (address : Word) (why : Illegal) (bytes : List Byte)
  deriving DecidableEq, Repr

/-- Why the model gives an instruction no meaning. -/
inductive Refusal where
  /-- raised by an arm of `exec` that has no meaning yet; safe. No arm is left that raises it. -/
  | notModelled (mnemonic : String)
  deriving DecidableEq, Repr

/-- The machine right after reset (10 R41, 70 R450): DP 0, I and F set, NMI unarmed and not pending, running, and PC the
word at 0xFFFE, which over the empty memory is 0. The spec gives A, B, X, Y, U, S and the flags E, H, N, Z, V, C no value:
they hold 0, DESIGN CHOICE (log 1). Memory, platform and inputs are empty, DESIGN CHOICE (log 3, 4, 8). -/
def State.reset : State :=
  { a := 0, b := 0, dp := 0,
    cc := { e := false, f := true, h := false, i := true, n := false, z := false, v := false, c := false },
    x := 0, y := 0, u := 0, s := 0, pc := Memory.word [] 0xFFFE,
    nmiArmed := false, nmiPending := false, wait := .running,
    mem := [], platform := [], inputs := [], bus := [], draws := 0 }

end Sys2Proof.Machine
end

