-- ==== Sys2Proof/Machine/Flags.lean ====
section
/-! DEFINITION. The condition codes as a byte (10 R27) and every flag computation of the spec: the helpers of 40 R140 to
R142 and 42 R250 to R252, and the single-operand functions, DAA, MUL and SEX from their rules. A function takes the codes
before and returns its result with the codes after; a flag the spec leaves undefined is the argument `undef`. -/

namespace Sys2Proof.Machine

/-! ## CC as a byte -/

/-- CC as the byte that a program reads (10 R27). -/
def CC.toByte (cc : CC) : Byte :=
  BitVec.ofBool cc.e ++ BitVec.ofBool cc.f ++ BitVec.ofBool cc.h ++ BitVec.ofBool cc.i ++
    BitVec.ofBool cc.n ++ BitVec.ofBool cc.z ++ BitVec.ofBool cc.v ++ BitVec.ofBool cc.c

/-- CC from the byte that a program writes (10 R27). -/
def CC.ofByte (w : Byte) : CC :=
  { e := w.getLsbD 7, f := w.getLsbD 6, h := w.getLsbD 5, i := w.getLsbD 4,
    n := w.getLsbD 3, z := w.getLsbD 2, v := w.getLsbD 1, c := w.getLsbD 0 }

/-- `CC & m` flag by flag (45 R360, R361). -/
def CC.andByte (cc : CC) (m : Byte) : CC :=
  { e := cc.e && m.getLsbD 7, f := cc.f && m.getLsbD 6, h := cc.h && m.getLsbD 5, i := cc.i && m.getLsbD 4,
    n := cc.n && m.getLsbD 3, z := cc.z && m.getLsbD 2, v := cc.v && m.getLsbD 1, c := cc.c && m.getLsbD 0 }

/-- `CC | m` flag by flag (45 R363). -/
def CC.orByte (cc : CC) (m : Byte) : CC :=
  { e := cc.e || m.getLsbD 7, f := cc.f || m.getLsbD 6, h := cc.h || m.getLsbD 5, i := cc.i || m.getLsbD 4,
    n := cc.n || m.getLsbD 3, z := cc.z || m.getLsbD 2, v := cc.v || m.getLsbD 1, c := cc.c || m.getLsbD 0 }

/-! ## Addition, subtraction and logic -/

/-- `Add8` (40 R140). -/
def add8 (a m : Byte) (cin : Bool) (cc : CC) : Byte × CC :=
  let s9 : BitVec 9 := a.setWidth 9 + m.setWidth 9 + (BitVec.ofBool cin).setWidth 9
  let r : Byte := s9.setWidth 8
  let nibbles := (a.extractLsb' 0 4).toNat + (m.extractLsb' 0 4).toNat + cin.toNat
  (r, { cc with
    h := decide (nibbles > 15)
    n := r.msb
    z := r == 0
    v := a.msb == m.msb && r.msb != a.msb
    c := s9.getLsbD 8 })

/-- `Sub8` (40 R141): the flags are those of the difference, C is the borrow and H is undefined. -/
def sub8 (a m : Byte) (bin undef : Bool) (cc : CC) : Byte × CC :=
  let d : Int := (a.toNat : Int) - (m.toNat : Int) - (bin.toNat : Int)
  let r : Byte := BitVec.ofInt 8 d
  (r, { cc with
    h := undef
    n := r.msb
    z := r == 0
    v := a.msb != m.msb && r.msb != a.msb
    c := decide (d < 0) })

/-- `Logic8` (40 R142). -/
def logic8 (r : Byte) (cc : CC) : CC := { cc with n := r.msb, z := r == 0, v := false }

/-- `Add16` (42 R250). -/
def add16 (a m : Word) (cc : CC) : Word × CC :=
  let s17 : BitVec 17 := a.setWidth 17 + m.setWidth 17
  let r : Word := s17.setWidth 16
  (r, { cc with
    n := r.msb
    z := r == 0
    v := a.msb == m.msb && r.msb != a.msb
    c := s17.getLsbD 16 })

/-- `Sub16` (42 R251). -/
def sub16 (a m : Word) (cc : CC) : Word × CC :=
  let d : Int := (a.toNat : Int) - (m.toNat : Int)
  let r : Word := BitVec.ofInt 16 d
  (r, { cc with
    n := r.msb
    z := r == 0
    v := a.msb != m.msb && r.msb != a.msb
    c := decide (d < 0) })

/-- `Logic16` (42 R252). -/
def logic16 (r : Word) (cc : CC) : CC := { cc with n := r.msb, z := r == 0, v := false }

/-! ## Single-operand functions (40 R143) -/

/-- ASL, LSL (40 R151): V is bit 7 xor bit 6 of the operand and H is undefined. -/
def asl8 (m : Byte) (undef : Bool) (cc : CC) : Byte × CC :=
  let r : Byte := m <<< 1
  (r, { cc with c := m.getLsbD 7, v := m.getLsbD 7 ^^ m.getLsbD 6, n := r.msb, z := r == 0, h := undef })

/-- ASR (40 R154): bit 7 is kept and H is undefined. -/
def asr8 (m : Byte) (undef : Bool) (cc : CC) : Byte × CC :=
  let r : Byte := BitVec.ofBool (m.getLsbD 7) ++ m.extractLsb' 1 7
  (r, { cc with c := m.getLsbD 0, n := r.msb, z := r == 0, h := undef })

/-- LSR (41 R182). -/
def lsr8 (m : Byte) (cc : CC) : Byte × CC :=
  let r : Byte := 0#1 ++ m.extractLsb' 1 7
  (r, { cc with c := m.getLsbD 0, n := false, z := r == 0 })

/-- ROL (41 R191): the old C enters bit 0. -/
def rol8 (m : Byte) (cc : CC) : Byte × CC :=
  let r : Byte := m.extractLsb' 0 7 ++ BitVec.ofBool cc.c
  (r, { cc with v := m.getLsbD 7 ^^ m.getLsbD 6, c := m.getLsbD 7, n := r.msb, z := r == 0 })

/-- ROR (41 R194): the old C enters bit 7. -/
def ror8 (m : Byte) (cc : CC) : Byte × CC :=
  let r : Byte := BitVec.ofBool cc.c ++ m.extractLsb' 1 7
  (r, { cc with c := m.getLsbD 0, n := r.msb, z := r == 0 })

/-- COM (40 R164): C is set whatever the operand. -/
def com8 (m : Byte) (cc : CC) : Byte × CC :=
  let r : Byte := ~~~m
  (r, { logic8 r cc with c := true })

/-- NEG (41 R186): the flags of 0 - m. -/
def neg8 (m : Byte) (undef : Bool) (cc : CC) : Byte × CC := sub8 0 m false undef cc

/-- INC (41 R174): C and H are untouched. -/
def inc8 (m : Byte) (cc : CC) : Byte × CC :=
  let r : Byte := m + 1
  (r, { cc with n := r.msb, z := r == 0, v := m == 0x7F })

/-- DEC (40 R168): C and H are untouched. -/
def dec8 (m : Byte) (cc : CC) : Byte × CC :=
  let r : Byte := m - 1
  (r, { cc with n := r.msb, z := r == 0, v := m == 0x80 })

/-- CLR (40 R159). -/
def clr8 (_m : Byte) (cc : CC) : Byte × CC :=
  (0x00, { cc with n := false, z := true, v := false, c := false })

/-! ## DAA, MUL, SEX -/

/-- DAA (40 R167): C is only ever set and V is undefined. -/
def daa8 (a : Byte) (undef : Bool) (cc : CC) : Byte × CC :=
  let lo := (a.extractLsb' 0 4).toNat
  let hi := (a.extractLsb' 4 4).toNat
  let low : Byte := if lo > 9 || cc.h then 0x06 else 0x00
  let high : Byte := if hi > 9 || cc.c || (hi > 8 && lo > 9) then 0x60 else 0x00
  let s9 : BitVec 9 := a.setWidth 9 + (low ||| high).setWidth 9
  let r : Byte := s9.setWidth 8
  (r, { cc with c := cc.c || s9.getLsbD 8, n := r.msb, z := r == 0, v := undef })

/-- MUL (41 R185): Z from the 16-bit product, C its bit 7. -/
def mul8 (a b : Byte) (cc : CC) : Word × CC :=
  let p : Word := a.setWidth 16 * b.setWidth 16
  (p, { cc with z := p == 0, c := p.getLsbD 7 })

/-- SEX (42 R256): the 16-bit result and its N and Z; V is untouched. -/
def sex16 (b : Byte) (cc : CC) : Word × CC :=
  let d : Word := joinBytes (if b.getLsbD 7 then 0xFF else 0x00) b
  (d, { cc with n := d.msb, z := d == 0 })

/-! ## Branch conditions (44 R311) -/

/-- C = 0 and Z = 0. -/
def CC.higher (cc : CC) : Bool := !cc.c && !cc.z
/-- C = 1 or Z = 1. -/
def CC.lowerOrSame (cc : CC) : Bool := cc.c || cc.z
/-- N = V. -/
def CC.greaterOrEqual (cc : CC) : Bool := cc.n == cc.v
/-- N != V. -/
def CC.less (cc : CC) : Bool := cc.n != cc.v
/-- Z = 0 and N = V. -/
def CC.greater (cc : CC) : Bool := !cc.z && cc.n == cc.v
/-- Z = 1 or N != V. -/
def CC.lessOrEqual (cc : CC) : Bool := cc.z || cc.n != cc.v

end Sys2Proof.Machine
end

