-- ==== Sys2Proof/Machine/Ops.lean ====
section
/-! DEFINITION. The named operations over registers, memory and stacks that every meaning is made of, and the interrupt
machinery: entry sequences, the return, the reset sequence (60 R408 to R413, 45 R366, 70 R450). -/

namespace Sys2Proof.Machine

/-- What an instruction or a step answers. -/
abbrev Result := Host.Outcome State Fault Refusal

/-! ## Register writes -/

/-- Writes A. -/
def State.setA (st : State) (v : Byte) : State := { st with a := v }
/-- Writes B. -/
def State.setB (st : State) (v : Byte) : State := { st with b := v }
/-- Writes DP. -/
def State.setDp (st : State) (v : Byte) : State := { st with dp := v }
/-- Writes CC. -/
def State.setCC (st : State) (v : CC) : State := { st with cc := v }
/-- Writes X. -/
def State.setX (st : State) (v : Word) : State := { st with x := v }
/-- Writes Y. -/
def State.setY (st : State) (v : Word) : State := { st with y := v }
/-- Writes U. -/
def State.setU (st : State) (v : Word) : State := { st with u := v }
/-- Writes S. -/
def State.setS (st : State) (v : Word) : State := { st with s := v }
/-- Writes PC. -/
def State.setPc (st : State) (v : Word) : State := { st with pc := v }
/-- Writes `nmi_armed`. -/
def State.setNmiArmed (st : State) (v : Bool) : State := { st with nmiArmed := v }
/-- Writes `nmi_pending`. -/
def State.setNmiPending (st : State) (v : Bool) : State := { st with nmiPending := v }
/-- Writes `wait`. -/
def State.setWait (st : State) (v : Wait) : State := { st with wait := v }
/-- Writes the memory contents. -/
def State.setMem (st : State) (v : Memory) : State := { st with mem := v }
/-- Writes the inputs still to come. -/
def State.setInputs (st : State) (v : List Inputs) : State := { st with inputs := v }
/-- Writes the record of the environment's accesses. -/
def State.setBus (st : State) (v : List BusAccess) : State := { st with bus := v }
/-- Writes the number of free draws taken. -/
def State.setDraws (st : State) (v : Nat) : State := { st with draws := v }

/-- D, the pair A : B (10 R21). -/
def State.d (st : State) : Word := joinBytes st.a st.b
/-- A write of D writes A and B (10 R21). -/
def State.setD (st : State) (v : Word) : State := (st.setA (hiByte v)).setB (loByte v)

/-! ## Named registers -/

/-- The two 8-bit accumulators. -/
inductive Acc where
  | a
  | b
  deriving DecidableEq, Repr

/-- The value of an accumulator. -/
def State.acc (st : State) : Acc → Byte
  | .a => st.a
  | .b => st.b

/-- Writes an accumulator. -/
def State.setAcc (st : State) (r : Acc) (v : Byte) : State :=
  match r with
  | .a => st.setA v
  | .b => st.setB v

/-- The value of a register of 30 R110, an 8-bit one in the low byte. -/
def State.readReg (st : State) : Reg → Word
  | .d => st.d
  | .x => st.x
  | .y => st.y
  | .u => st.u
  | .s => st.s
  | .pc => st.pc
  | .a => zext8 st.a
  | .b => zext8 st.b
  | .cc => zext8 st.cc.toByte
  | .dp => zext8 st.dp

/-- Writes a register of 30 R110, an 8-bit one from the low byte. -/
def State.writeReg (st : State) (r : Reg) (v : Word) : State :=
  match r with
  | .d => st.setD v
  | .x => st.setX v
  | .y => st.setY v
  | .u => st.setU v
  | .s => st.setS v
  | .pc => st.setPc v
  | .a => st.setA (loByte v)
  | .b => st.setB (loByte v)
  | .cc => st.setCC (CC.ofByte (loByte v))
  | .dp => st.setDp (loByte v)

/-- IDXREG[rr] (00 R9). -/
def State.indexReg (st : State) : IndexReg → Word
  | .x => st.x
  | .y => st.y
  | .u => st.u
  | .s => st.s

/-- Writes IDXREG[rr]. -/
def State.setIndexReg (st : State) (r : IndexReg) (v : Word) : State :=
  match r with
  | .x => st.setX v
  | .y => st.setY v
  | .u => st.setU v
  | .s => st.setS v

/-! ## Free draws -/

/-- `Undef1()` (00 R13): the next free draw, and the state in which it is taken. -/
def State.draw (st : State) : Bool × State := (Config.undefBit st.draws, st.setDraws (st.draws + 1))

/-! ## Memory accesses (20 R52 to R54, R59) -/

/-- Whether a region holds an address. -/
def Region.holds (r : Region) (a : Word) : Bool := decide (r.base ≤ a.toNat) && decide (a.toNat < r.base + r.size)

/-- The kind of an address: that of the first region that holds it, else RAM (log 4). -/
def kindAt : List Region → Word → RegionKind
  | [], _ => .ram
  | r :: rest, a => if r.holds a then r.kind else kindAt rest a

/-- The kind of an address on the machine's platform. -/
def State.kind (st : State) (a : Word) : RegionKind := kindAt st.platform a

/-- `MemRead(addr, 1)` (20 R52, R59): RAM and ROM return their content, a device register or an unpopulated address what
the environment answers, and the environment sees the access. -/
def State.read8 (st : State) (a : Word) : Byte × State :=
  match st.kind a with
  | .ram | .rom => (st.mem.read a.toNat, st)
  | .device | .unpopulated => (Config.environment st.bus a, st.setBus (.read a :: st.bus))

/-- `MemWrite(addr, 1, v)` (20 R54, R59): RAM takes the byte, a device register receives it, ROM and unpopulated
addresses ignore it. -/
def State.write8 (st : State) (a : Word) (v : Byte) : State :=
  match st.kind a with
  | .ram => st.setMem (st.mem.write a.toNat v)
  | .device => st.setBus (.write a v :: st.bus)
  | .rom | .unpopulated => st

/-- `MemRead(addr, 2)` (20 R53): the high byte first, from the lower address. -/
def State.read16 (st : State) (a : Word) : Word × State :=
  let h := st.read8 a
  let l := h.2.read8 (a + 1)
  (joinBytes h.1 l.1, l.2)

/-- `MemWrite(addr, 2, v)` (20 R54): the high byte first, to the lower address. -/
def State.write16 (st : State) (a : Word) (v : Word) : State :=
  (st.write8 a (hiByte v)).write8 (a + 1) (loByte v)

/-! ## Stacks (00 R11) -/

/-- The two stacks: the hardware stack of S and the user stack of U (10 R23). -/
inductive Stack where
  | hardware
  | user
  deriving DecidableEq, Repr

/-- The stack pointer of a stack. -/
def State.sp (st : State) : Stack → Word
  | .hardware => st.s
  | .user => st.u

/-- Writes the stack pointer of a stack. -/
def State.setSp (st : State) (k : Stack) (v : Word) : State :=
  match k with
  | .hardware => st.setS v
  | .user => st.setU v

/-- `Push8(SP, v)` (00 R11): decrement, then write. -/
def State.push8 (st : State) (k : Stack) (v : Byte) : State :=
  (st.setSp k (st.sp k - 1)).write8 (st.sp k - 1) v

/-- `Push16(SP, v)` (00 R11): the low byte first. -/
def State.push16 (st : State) (k : Stack) (v : Word) : State :=
  (st.push8 k (loByte v)).push8 k (hiByte v)

/-- `Pull8(SP)` (00 R11): read, then increment. -/
def State.pull8 (st : State) (k : Stack) : Byte × State :=
  let p := st.read8 (st.sp k)
  (p.1, p.2.setSp k (p.2.sp k + 1))

/-- `Pull16(SP)` (00 R11): the high byte first. -/
def State.pull16 (st : State) (k : Stack) : Word × State :=
  let h := st.pull8 k
  let l := h.2.pull8 k
  (joinBytes h.1 l.1, l.2)

/-- The register that bit 6 of a REGLIST postbyte names: the other stack's pointer (43 R268). -/
def Stack.other : Stack → Stack
  | .hardware => .user
  | .user => .hardware

/-- One line `if pb[i] then ...` of a push or pull (43 R282). -/
def State.when (st : State) (c : Bool) (f : State → State) : State := if c then f st else st

/-- PSHS and PSHU (43 R282, R283): PC first and CC last. -/
def State.pushList (st : State) (k : Stack) (l : RegList) : State :=
  let st := st.when l.pc fun t => t.push16 k t.pc
  let st := st.when l.other fun t => t.push16 k (t.sp k.other)
  let st := st.when l.y fun t => t.push16 k t.y
  let st := st.when l.x fun t => t.push16 k t.x
  let st := st.when l.dp fun t => t.push8 k t.dp
  let st := st.when l.b fun t => t.push8 k t.b
  let st := st.when l.a fun t => t.push8 k t.a
  st.when l.cc fun t => t.push8 k t.cc.toByte

/-- PULS and PULU (43 R284, R285): CC first and PC last. -/
def State.pullList (st : State) (k : Stack) (l : RegList) : State :=
  let st := st.when l.cc fun t => let p := t.pull8 k; p.2.setCC (CC.ofByte p.1)
  let st := st.when l.a fun t => let p := t.pull8 k; p.2.setA p.1
  let st := st.when l.b fun t => let p := t.pull8 k; p.2.setB p.1
  let st := st.when l.dp fun t => let p := t.pull8 k; p.2.setDp p.1
  let st := st.when l.x fun t => let p := t.pull16 k; p.2.setX p.1
  let st := st.when l.y fun t => let p := t.pull16 k; p.2.setY p.1
  let st := st.when l.other fun t => let p := t.pull16 k; p.2.setSp k.other p.1
  st.when l.pc fun t => let p := t.pull16 k; p.2.setPc p.1

/-! ## NMI arming (60 R405) -/

/-- Whether a kind of instruction is in NMI_ARM_SET: LDS always is, the others as the parameter says (log 7). -/
def inArmSet : SLoad → Bool
  | .lds => true
  | .leas => Config.armsNmi .leas
  | .tfr => Config.armsNmi .tfr
  | .exg => Config.armsNmi .exg
  | .pulu => Config.armsNmi .pulu

/-- A write of S by a kind of instruction arms the NMI if the kind is in NMI_ARM_SET (60 R405). -/
def State.armNmi (st : State) (k : SLoad) : State := st.setNmiArmed (st.nmiArmed || inArmSet k)

/-! ## Interrupts (60 R402 to R413) -/

/-- The vector addresses (60 R402). -/
def vectorSwi3 : Word := 0xFFF2
/-- 60 R402 -/
def vectorSwi2 : Word := 0xFFF4
/-- 60 R402 -/
def vectorFirq : Word := 0xFFF6
/-- 60 R402 -/
def vectorIrq : Word := 0xFFF8
/-- 60 R402 -/
def vectorSwi : Word := 0xFFFA
/-- 60 R402 -/
def vectorNmi : Word := 0xFFFC
/-- 60 R402 -/
def vectorReset : Word := 0xFFFE

/-- Taking a vector: `PC <- MemRead(vector_address, 2)` (60 R402). -/
def State.takeVector (st : State) (vector : Word) : State :=
  let p := st.read16 vector
  p.2.setPc p.1

/-- Writes CC.E. -/
def State.setE (st : State) (v : Bool) : State := st.setCC { st.cc with e := v }
/-- Sets CC.I. -/
def State.maskIrq (st : State) : State := st.setCC { st.cc with i := true }
/-- Sets CC.F and CC.I. -/
def State.maskBoth (st : State) : State := st.setCC { st.cc with f := true, i := true }

/-- `PushEntire()` (60 R408). -/
def State.pushEntire (st : State) : State :=
  let st := st.push16 .hardware st.pc
  let st := st.push16 .hardware st.u
  let st := st.push16 .hardware st.y
  let st := st.push16 .hardware st.x
  let st := st.push8 .hardware st.dp
  let st := st.push8 .hardware st.b
  let st := st.push8 .hardware st.a
  st.push8 .hardware st.cc.toByte

/-- `PushFast()` (60 R409). -/
def State.pushFast (st : State) : State :=
  let st := st.push16 .hardware st.pc
  st.push8 .hardware st.cc.toByte

/-- Stacking the entire state with E set, unless CWAI has stacked it already (60 R410, R412). -/
def State.stackEntire (st : State) : State :=
  if st.wait = .cwaiWaiting then st else (st.setE true).pushEntire

/-- Stacking PC and CC with E cleared, unless CWAI has stacked the entire state already (60 R411). -/
def State.stackFast (st : State) : State :=
  if st.wait = .cwaiWaiting then st else (st.setE false).pushFast

/-- NMI entry (60 R410). -/
def State.nmiEntry (st : State) : State :=
  (((st.setNmiPending false).stackEntire.setWait .running).maskBoth).takeVector vectorNmi

/-- FIRQ entry (60 R411). -/
def State.firqEntry (st : State) : State :=
  ((st.stackFast.setWait .running).maskBoth).takeVector vectorFirq

/-- IRQ entry (60 R412). -/
def State.irqEntry (st : State) : State :=
  ((st.stackEntire.setWait .running).maskIrq).takeVector vectorIrq

/-- What the software interrupts do first (60 R413): E set, the entire state stacked. -/
def State.swiStack (st : State) : State := (st.setE true).pushEntire

/-- The return from every interrupt (45 R366): the E bit just pulled decides whether the whole frame is pulled. -/
def State.returnFromInterrupt (st : State) : State :=
  let p := st.pull8 .hardware
  let st := p.2.setCC (CC.ofByte p.1)
  st.pullList .hardware
    { pc := true, other := st.cc.e, y := st.cc.e, x := st.cc.e, dp := st.cc.e, b := st.cc.e, a := st.cc.e, cc := false }

/-- The reset sequence (70 R450): what it does not write is unspecified afterwards, a free value (log 2). -/
def State.resetSequence (st : State) : State :=
  let free := Config.afterReset st.draws
  State.takeVector
    { st with
      a := free.a, b := free.b, x := free.x, y := free.y, u := free.u, s := free.s, dp := 0x00,
      cc := { e := free.e, f := true, h := free.h, i := true, n := free.n, z := free.z, v := free.v, c := free.c },
      nmiArmed := false, nmiPending := false, wait := .running, draws := st.draws + 1 }
    vectorReset

end Sys2Proof.Machine
end

