-- ==== Sys2Proof/Machine/Operands.lean ====
section
/-! DEFINITION. Effective addresses and operands (30 R84 to R112). PC is `pc_next` throughout: all bytes of the
instruction have been fetched (00 R14, 30 R106). -/

namespace Sys2Proof.Machine

/-- The address an indexed mode computes before indirection, and the state after its register side effect (30 R89 to
R103). -/
def State.indexedBase (st : State) : Indexed → Word × State
  | .offset5 r n => (st.indexReg r + sext5 n, st)
  | .postInc1 r => (st.indexReg r, st.setIndexReg r (st.indexReg r + 1))
  | .postInc2 r _ => (st.indexReg r, st.setIndexReg r (st.indexReg r + 2))
  | .preDec1 r => (st.indexReg r - 1, st.setIndexReg r (st.indexReg r - 1))
  | .preDec2 r _ => (st.indexReg r - 2, st.setIndexReg r (st.indexReg r - 2))
  | .noOffset r _ => (st.indexReg r, st)
  | .accB r _ => (st.indexReg r + sext8 st.b, st)
  | .accA r _ => (st.indexReg r + sext8 st.a, st)
  | .offset8 r n _ => (st.indexReg r + sext8 n, st)
  | .offset16 r n _ => (st.indexReg r + n, st)
  | .accD r _ => (st.indexReg r + st.d, st)
  | .pcOffset8 _ n _ => (st.pc + sext8 n, st)
  | .pcOffset16 _ n _ => (st.pc + n, st)
  | .extIndirect a => (a, st)

end Sys2Proof.Machine

namespace Sys2Proof

/-- Whether the computed address is a pointer (30 R105); the extended indirect form always is (30 R103). -/
def Indexed.indirect : Indexed → Bool
  | .offset5 _ _ | .postInc1 _ | .preDec1 _ => false
  | .postInc2 _ ind | .preDec2 _ ind | .noOffset _ ind | .accB _ ind | .accA _ ind | .accD _ ind => ind
  | .offset8 _ _ ind | .offset16 _ _ ind | .pcOffset8 _ _ ind | .pcOffset16 _ _ ind => ind
  | .extIndirect _ => true

end Sys2Proof

namespace Sys2Proof.Machine

/-- `EA_IDX()` (30 R88, R105, R106): address and register side effect first, then indirection. -/
def State.eaIndexed (st : State) (m : Indexed) : Word × State :=
  let p := st.indexedBase m
  if m.indirect then p.2.read16 p.1 else p

/-- `EA(fmt)` (30 R86, R87, R112). -/
def State.ea (st : State) : Ea → Word × State
  | .dir lo => (joinBytes st.dp lo, st)
  | .ext a => (a, st)
  | .idx m => st.eaIndexed m

/-- `Operand8(fmt)` (30 R112). -/
def State.operand8 (st : State) : Src8 → Byte × State
  | .imm v => (v, st)
  | .mem ea => let p := st.ea ea; p.2.read8 p.1

/-- `Operand16(fmt)` (30 R112). -/
def State.operand16 (st : State) : Src16 → Word × State
  | .imm v => (v, st)
  | .mem ea => let p := st.ea ea; p.2.read16 p.1

end Sys2Proof.Machine
end

