-- ==== Sys2Proof/Machine/Alu.lean ====
section
/-! DEFINITION. The shared shapes of the data instructions: accumulator with operand, single operand, load, store,
compare, LEA, branch, exchange (40 R140 to R143, 42 R250 to R252, 43 R269, 44 R310, 41 R173, R206). -/

namespace Sys2Proof.Machine

/-! ## Accumulator and 8-bit operand -/

/-- ADD and, with the incoming C, ADC (40 R145, R147). -/
def State.addAcc (st : State) (r : Acc) (withCarry : Bool) (o : Src8) : State :=
  let p := st.operand8 o
  let q := add8 (p.2.acc r) p.1 (withCarry && p.2.cc.c) p.2.cc
  (p.2.setAcc r q.1).setCC q.2

/-- SUB and, with the incoming borrow, SBC (41 R197, R201). -/
def State.subAcc (st : State) (r : Acc) (withBorrow : Bool) (o : Src8) : State :=
  let p := st.operand8 o
  let h := p.2.draw
  let q := sub8 (h.2.acc r) p.1 (withBorrow && h.2.cc.c) h.1 h.2.cc
  (h.2.setAcc r q.1).setCC q.2

/-- CMP (40 R162): the flags of SUB, the difference discarded. -/
def State.cmpAcc (st : State) (r : Acc) (o : Src8) : State :=
  let p := st.operand8 o
  let h := p.2.draw
  h.2.setCC (sub8 (h.2.acc r) p.1 false h.1 h.2.cc).2

/-- AND, EOR, OR (40 R149, 41 R171, R189), by the operation on the two bytes. -/
def State.logicAcc (st : State) (r : Acc) (f : Byte → Byte → Byte) (o : Src8) : State :=
  let p := st.operand8 o
  let v := f (p.2.acc r) p.1
  (p.2.setAcc r v).setCC (logic8 v p.2.cc)

/-- BIT (40 R157): the flags of AND, the result discarded. -/
def State.bitAcc (st : State) (r : Acc) (o : Src8) : State :=
  let p := st.operand8 o
  p.2.setCC (logic8 (p.2.acc r &&& p.1) p.2.cc)

/-- LDA, LDB (41 R177). -/
def State.loadAcc (st : State) (r : Acc) (o : Src8) : State :=
  let p := st.operand8 o
  (p.2.setAcc r p.1).setCC (logic8 p.1 p.2.cc)

/-- STA, STB (41 R199): the destination is not read. -/
def State.storeAcc (st : State) (r : Acc) (ea : Ea) : State :=
  let p := st.ea ea
  (p.2.setCC (logic8 (p.2.acc r) p.2.cc)).write8 p.1 (p.2.acc r)

/-! ## Single operand (40 R143) -/

/-- What a single-operand instruction makes of its operand: the result, and the state with the flags written. -/
abbrev Unary := State → Byte → Byte × State

/-- A single-operand function with every flag defined. -/
def definedFlags (f : Byte → CC → Byte × CC) : Unary := fun st m =>
  let q := f m st.cc
  (q.1, st.setCC q.2)

/-- A single-operand function that leaves H undefined: one free draw supplies it (10 R33). -/
def undefinedH (f : Byte → Bool → CC → Byte × CC) : Unary := fun st m =>
  let h := st.draw
  let q := f m h.1 h.2.cc
  (q.1, h.2.setCC q.2)

/-- The spelling with A or B. -/
def State.unaryAcc (st : State) (r : Acc) (f : Unary) : State :=
  let q := f st (st.acc r)
  q.2.setAcc r q.1

/-- The memory spelling: one read, then one write of the same address (20 R60 (e)). -/
def State.unaryMem (st : State) (ea : Ea) (f : Unary) : State :=
  let p := st.ea ea
  let m := p.2.read8 p.1
  let q := f m.2 m.1
  q.2.write8 p.1 q.1

/-- TST of an accumulator (41 R204). -/
def State.testAcc (st : State) (r : Acc) : State := st.setCC (logic8 (st.acc r) st.cc)

/-- TST of memory (41 R203): one read and no write. -/
def State.testMem (st : State) (ea : Ea) : State :=
  let p := st.ea ea
  let m := p.2.read8 p.1
  m.2.setCC (logic8 m.1 m.2.cc)

/-! ## 16-bit data -/

/-- ADDD (42 R253). -/
def State.addD (st : State) (o : Src16) : State :=
  let p := st.operand16 o
  let q := add16 p.2.d p.1 p.2.cc
  (p.2.setD q.1).setCC q.2

/-- SUBD (42 R258). -/
def State.subD (st : State) (o : Src16) : State :=
  let p := st.operand16 o
  let q := sub16 p.2.d p.1 p.2.cc
  (p.2.setD q.1).setCC q.2

/-- CMPD, CMPX, CMPY, CMPU, CMPS (42 R254, 43 R270 to R273). -/
def State.compare16 (st : State) (r : Reg) (o : Src16) : State :=
  let p := st.operand16 o
  p.2.setCC (sub16 (p.2.readReg r) p.1 p.2.cc).2

/-- LDD, LDX, LDY, LDU, LDS (42 R255, 43 R278 to R281). -/
def State.load16 (st : State) (r : Reg) (o : Src16) : State :=
  let p := st.operand16 o
  (p.2.writeReg r p.1).setCC (logic16 p.1 p.2.cc)

/-- STD, STX, STY, STU, STS (42 R257, 43 R286 to R289): the register as it is after the address was computed
(30 R106). -/
def State.store16 (st : State) (r : Reg) (ea : Ea) : State :=
  let p := st.ea ea
  (p.2.setCC (logic16 (p.2.readReg r) p.2.cc)).write16 p.1 (p.2.readReg r)

/-! ## LEA, branches, register pairs -/

/-- LEAX, LEAY (43 R276, R277): Z from the address. -/
def State.leaIndex (st : State) (r : Reg) (m : Indexed) : State :=
  let p := st.eaIndexed m
  (p.2.writeReg r p.1).setCC { p.2.cc with z := p.1 == 0 }

/-- LEAS, LEAU (43 R274, R275): no flag. -/
def State.leaStack (st : State) (r : Reg) (m : Indexed) : State :=
  let p := st.eaIndexed m
  p.2.writeReg r p.1

/-- A branch by an offset that is already 16 bits (44 R310). -/
def State.branch (st : State) (taken : Bool) (off : Word) : State :=
  if taken then st.setPc (st.pc + off) else st

/-- BSR, LBSR (44 R344, R345). -/
def State.branchSub (st : State) (off : Word) : State :=
  let t := st.push16 .hardware st.pc
  t.setPc (t.pc + off)

/-- The fault of a register pair that EXG and TFR are not defined on (41 R173, R206): the opcode and its postbyte stand
just before `pc_next`. No decoded instruction names such a pair (log 14). -/
def State.illegalPair (st : State) (opcode : Byte) (r1 r2 : Reg) : Result :=
  .fault (.illegalInstruction (st.pc - 2) .registerPair [opcode, pairByte r1 r2])

/-- EXG of two registers of one width (41 R173): both are read before either is written. -/
def State.exchange (st : State) (r1 r2 : Reg) : State :=
  let t := (st.writeReg r1 (st.readReg r2)).writeReg r2 (st.readReg r1)
  if r1 = .s ∨ r2 = .s then t.armNmi .exg else t

/-- TFR between two registers of one width (41 R206). -/
def State.transfer (st : State) (r1 r2 : Reg) : State :=
  let t := st.writeReg r2 (st.readReg r1)
  if r2 = .s then t.armNmi .tfr else t

end Sys2Proof.Machine
end

