-- ==== Sys2Proof/Machine/Acc16.lean ====
section
/-! DEFINITION. The meanings of TABLE 5, the 16-bit accumulator instructions (42).
PC is `pc_next` when a meaning runs (00 R14). -/

namespace Sys2Proof.Machine

/-- ADDD: D := D + M (42 R253). -/
def execAddd (o : Src16) (st : State) : Result := .next (st.addD o)

/-- CMPD: flags of D - M (42 R254). -/
def execCmpd (o : Src16) (st : State) : Result := .next (st.compare16 .d o)

/-- LDD: D := M (42 R255). -/
def execLdd (o : Src16) (st : State) : Result := .next (st.load16 .d o)

/-- SEX: A := the sign of B (42 R256). -/
def execSex (st : State) : Result :=
  let q := sex16 st.b st.cc
  .next ((st.setA (hiByte q.1)).setCC q.2)

/-- STD: M := D (42 R257). -/
def execStd (ea : Ea) (st : State) : Result := .next (st.store16 .d ea)

/-- SUBD: D := D - M (42 R258). -/
def execSubd (o : Src16) (st : State) : Result := .next (st.subD o)

end Sys2Proof.Machine
end

