-- ==== Sys2Proof/Machine/Acc8.lean ====
section
/-! DEFINITION. The meanings of TABLE 4 of the spec, the 8-bit accumulator and memory instructions (40, 41).
PC is `pc_next` when a meaning runs (00 R14). -/

namespace Sys2Proof.Machine

/-- ADCA: A := A + M + C (40 R145). -/
def execAdca (o : Src8) (st : State) : Result := .next (st.addAcc .a true o)

/-- ADCB: B := B + M + C (40 R146). -/
def execAdcb (o : Src8) (st : State) : Result := .next (st.addAcc .b true o)

/-- ADDA: A := A + M (40 R147). -/
def execAdda (o : Src8) (st : State) : Result := .next (st.addAcc .a false o)

/-- ADDB: B := B + M (40 R148). -/
def execAddb (o : Src8) (st : State) : Result := .next (st.addAcc .b false o)

/-- ANDA: A := A and M (40 R149). -/
def execAnda (o : Src8) (st : State) : Result := .next (st.logicAcc .a (· &&& ·) o)

/-- ANDB: B := B and M (40 R150). -/
def execAndb (o : Src8) (st : State) : Result := .next (st.logicAcc .b (· &&& ·) o)

/-- ASL: arithmetic shift left of a memory byte (40 R151). -/
def execAsl (ea : Ea) (st : State) : Result := .next (st.unaryMem ea (undefinedH asl8))

/-- ASLA: arithmetic shift left of A (40 R152). -/
def execAsla (st : State) : Result := .next (st.unaryAcc .a (undefinedH asl8))

/-- ASLB: arithmetic shift left of B (40 R153). -/
def execAslb (st : State) : Result := .next (st.unaryAcc .b (undefinedH asl8))

/-- ASR: arithmetic shift right of a memory byte (40 R154). -/
def execAsr (ea : Ea) (st : State) : Result := .next (st.unaryMem ea (undefinedH asr8))

/-- ASRA: arithmetic shift right of A (40 R155). -/
def execAsra (st : State) : Result := .next (st.unaryAcc .a (undefinedH asr8))

/-- ASRB: arithmetic shift right of B (40 R156). -/
def execAsrb (st : State) : Result := .next (st.unaryAcc .b (undefinedH asr8))

/-- BITA: flags of A and M (40 R157). -/
def execBita (o : Src8) (st : State) : Result := .next (st.bitAcc .a o)

/-- BITB: flags of B and M (40 R158). -/
def execBitb (o : Src8) (st : State) : Result := .next (st.bitAcc .b o)

/-- CLR: clear of a memory byte (40 R159). -/
def execClr (ea : Ea) (st : State) : Result := .next (st.unaryMem ea (definedFlags clr8))

/-- CLRA: clear of A (40 R160). -/
def execClra (st : State) : Result := .next (st.unaryAcc .a (definedFlags clr8))

/-- CLRB: clear of B (40 R161). -/
def execClrb (st : State) : Result := .next (st.unaryAcc .b (definedFlags clr8))

/-- CMPA: flags of A - M (40 R162). -/
def execCmpa (o : Src8) (st : State) : Result := .next (st.cmpAcc .a o)

/-- CMPB: flags of B - M (40 R163). -/
def execCmpb (o : Src8) (st : State) : Result := .next (st.cmpAcc .b o)

/-- COM: complement of a memory byte (40 R164). -/
def execCom (ea : Ea) (st : State) : Result := .next (st.unaryMem ea (definedFlags com8))

/-- COMA: complement of A (40 R165). -/
def execComa (st : State) : Result := .next (st.unaryAcc .a (definedFlags com8))

/-- COMB: complement of B (40 R166). -/
def execComb (st : State) : Result := .next (st.unaryAcc .b (definedFlags com8))

/-- DAA: decimal adjust of A, V undefined (40 R167). -/
def execDaa (st : State) : Result :=
  let h := st.draw
  let q := daa8 h.2.a h.1 h.2.cc
  .next ((h.2.setA q.1).setCC q.2)

/-- DEC: decrement of a memory byte (40 R168). -/
def execDec (ea : Ea) (st : State) : Result := .next (st.unaryMem ea (definedFlags dec8))

/-- DECA: decrement of A (40 R169). -/
def execDeca (st : State) : Result := .next (st.unaryAcc .a (definedFlags dec8))

/-- DECB: decrement of B (40 R170). -/
def execDecb (st : State) : Result := .next (st.unaryAcc .b (definedFlags dec8))

/-- EORA: A := A exclusive or M (41 R171). -/
def execEora (o : Src8) (st : State) : Result := .next (st.logicAcc .a (· ^^^ ·) o)

/-- EORB: B := B exclusive or M (41 R172). -/
def execEorb (o : Src8) (st : State) : Result := .next (st.logicAcc .b (· ^^^ ·) o)

/-- EXG: R1 and R2 exchanged (41 R173). -/
def execExg (r1 r2 : Reg) (st : State) : Result :=
  if pairWellFormed r1 r2 then .next (st.exchange r1 r2) else st.illegalPair 0x1E r1 r2

/-- INC: increment of a memory byte (41 R174). -/
def execInc (ea : Ea) (st : State) : Result := .next (st.unaryMem ea (definedFlags inc8))

/-- INCA: increment of A (41 R175). -/
def execInca (st : State) : Result := .next (st.unaryAcc .a (definedFlags inc8))

/-- INCB: increment of B (41 R176). -/
def execIncb (st : State) : Result := .next (st.unaryAcc .b (definedFlags inc8))

/-- LDA: A := M (41 R177). -/
def execLda (o : Src8) (st : State) : Result := .next (st.loadAcc .a o)

/-- LDB: B := M (41 R178). -/
def execLdb (o : Src8) (st : State) : Result := .next (st.loadAcc .b o)

/-- LSR: logical shift right of a memory byte (41 R182). -/
def execLsr (ea : Ea) (st : State) : Result := .next (st.unaryMem ea (definedFlags lsr8))

/-- LSRA: logical shift right of A (41 R183). -/
def execLsra (st : State) : Result := .next (st.unaryAcc .a (definedFlags lsr8))

/-- LSRB: logical shift right of B (41 R184). -/
def execLsrb (st : State) : Result := .next (st.unaryAcc .b (definedFlags lsr8))

/-- MUL: D := A x B (41 R185). -/
def execMul (st : State) : Result :=
  let q := mul8 st.a st.b st.cc
  .next ((st.setD q.1).setCC q.2)

/-- NEG: negate of a memory byte (41 R186). -/
def execNeg (ea : Ea) (st : State) : Result := .next (st.unaryMem ea (undefinedH neg8))

/-- NEGA: negate of A (41 R187). -/
def execNega (st : State) : Result := .next (st.unaryAcc .a (undefinedH neg8))

/-- NEGB: negate of B (41 R188). -/
def execNegb (st : State) : Result := .next (st.unaryAcc .b (undefinedH neg8))

/-- ORA: A := A or M (41 R189). -/
def execOra (o : Src8) (st : State) : Result := .next (st.logicAcc .a (· ||| ·) o)

/-- ORB: B := B or M (41 R190). -/
def execOrb (o : Src8) (st : State) : Result := .next (st.logicAcc .b (· ||| ·) o)

/-- ROL: rotate left through C of a memory byte (41 R191). -/
def execRol (ea : Ea) (st : State) : Result := .next (st.unaryMem ea (definedFlags rol8))

/-- ROLA: rotate left through C of A (41 R192). -/
def execRola (st : State) : Result := .next (st.unaryAcc .a (definedFlags rol8))

/-- ROLB: rotate left through C of B (41 R193). -/
def execRolb (st : State) : Result := .next (st.unaryAcc .b (definedFlags rol8))

/-- ROR: rotate right through C of a memory byte (41 R194). -/
def execRor (ea : Ea) (st : State) : Result := .next (st.unaryMem ea (definedFlags ror8))

/-- RORA: rotate right through C of A (41 R195). -/
def execRora (st : State) : Result := .next (st.unaryAcc .a (definedFlags ror8))

/-- RORB: rotate right through C of B (41 R196). -/
def execRorb (st : State) : Result := .next (st.unaryAcc .b (definedFlags ror8))

/-- SBCA: A := A - M - C (41 R197). -/
def execSbca (o : Src8) (st : State) : Result := .next (st.subAcc .a true o)

/-- SBCB: B := B - M - C (41 R198). -/
def execSbcb (o : Src8) (st : State) : Result := .next (st.subAcc .b true o)

/-- STA: M := A (41 R199). -/
def execSta (ea : Ea) (st : State) : Result := .next (st.storeAcc .a ea)

/-- STB: M := B (41 R200). -/
def execStb (ea : Ea) (st : State) : Result := .next (st.storeAcc .b ea)

/-- SUBA: A := A - M (41 R201). -/
def execSuba (o : Src8) (st : State) : Result := .next (st.subAcc .a false o)

/-- SUBB: B := B - M (41 R202). -/
def execSubb (o : Src8) (st : State) : Result := .next (st.subAcc .b false o)

/-- TST: flags of a memory byte (41 R203). -/
def execTst (ea : Ea) (st : State) : Result := .next (st.testMem ea)

/-- TSTA: flags of A (41 R204). -/
def execTsta (st : State) : Result := .next (st.testAcc .a)

/-- TSTB: flags of B (41 R205). -/
def execTstb (st : State) : Result := .next (st.testAcc .b)

/-- TFR: R2 := R1 (41 R206). -/
def execTfr (r1 r2 : Reg) (st : State) : Result :=
  if pairWellFormed r1 r2 then .next (st.transfer r1 r2) else st.illegalPair 0x1F r1 r2

end Sys2Proof.Machine
end

