-- ==== Sys2Proof/Machine/Branch.lean ====
section
/-! DEFINITION. The meanings of TABLE 7, the branches (44).
PC is `pc_next` when a meaning runs (00 R14). -/

namespace Sys2Proof.Machine

/-- BEQ: branch if Z = 1 (44 R312). -/
def execBeq (off : Byte) (st : State) : Result := .next (st.branch st.cc.z (sext8 off))

/-- LBEQ: long branch if Z = 1 (44 R313). -/
def execLbeq (off : Word) (st : State) : Result := .next (st.branch st.cc.z off)

/-- BNE: branch if Z = 0 (44 R314). -/
def execBne (off : Byte) (st : State) : Result := .next (st.branch (!st.cc.z) (sext8 off))

/-- LBNE: long branch if Z = 0 (44 R315). -/
def execLbne (off : Word) (st : State) : Result := .next (st.branch (!st.cc.z) off)

/-- BMI: branch if N = 1 (44 R316). -/
def execBmi (off : Byte) (st : State) : Result := .next (st.branch st.cc.n (sext8 off))

/-- LBMI: long branch if N = 1 (44 R317). -/
def execLbmi (off : Word) (st : State) : Result := .next (st.branch st.cc.n off)

/-- BPL: branch if N = 0 (44 R318). -/
def execBpl (off : Byte) (st : State) : Result := .next (st.branch (!st.cc.n) (sext8 off))

/-- LBPL: long branch if N = 0 (44 R319). -/
def execLbpl (off : Word) (st : State) : Result := .next (st.branch (!st.cc.n) off)

/-- BCS: branch if C = 1 (44 R320). -/
def execBcs (off : Byte) (st : State) : Result := .next (st.branch st.cc.c (sext8 off))

/-- LBCS: long branch if C = 1 (44 R321). -/
def execLbcs (off : Word) (st : State) : Result := .next (st.branch st.cc.c off)

/-- BCC: branch if C = 0 (44 R322). -/
def execBcc (off : Byte) (st : State) : Result := .next (st.branch (!st.cc.c) (sext8 off))

/-- LBCC: long branch if C = 0 (44 R323). -/
def execLbcc (off : Word) (st : State) : Result := .next (st.branch (!st.cc.c) off)

/-- BVS: branch if V = 1 (44 R324). -/
def execBvs (off : Byte) (st : State) : Result := .next (st.branch st.cc.v (sext8 off))

/-- LBVS: long branch if V = 1 (44 R325). -/
def execLbvs (off : Word) (st : State) : Result := .next (st.branch st.cc.v off)

/-- BVC: branch if V = 0 (44 R326). -/
def execBvc (off : Byte) (st : State) : Result := .next (st.branch (!st.cc.v) (sext8 off))

/-- LBVC: long branch if V = 0 (44 R327). -/
def execLbvc (off : Word) (st : State) : Result := .next (st.branch (!st.cc.v) off)

/-- BGT: branch if Z = 0 and N = V (44 R328). -/
def execBgt (off : Byte) (st : State) : Result := .next (st.branch st.cc.greater (sext8 off))

/-- LBGT: long branch if Z = 0 and N = V (44 R329). -/
def execLbgt (off : Word) (st : State) : Result := .next (st.branch st.cc.greater off)

/-- BGE: branch if N = V (44 R330). -/
def execBge (off : Byte) (st : State) : Result := .next (st.branch st.cc.greaterOrEqual (sext8 off))

/-- LBGE: long branch if N = V (44 R331). -/
def execLbge (off : Word) (st : State) : Result := .next (st.branch st.cc.greaterOrEqual off)

/-- BLE: branch if Z = 1 or N != V (44 R332). -/
def execBle (off : Byte) (st : State) : Result := .next (st.branch st.cc.lessOrEqual (sext8 off))

/-- LBLE: long branch if Z = 1 or N != V (44 R333). -/
def execLble (off : Word) (st : State) : Result := .next (st.branch st.cc.lessOrEqual off)

/-- BLT: branch if N != V (44 R334). -/
def execBlt (off : Byte) (st : State) : Result := .next (st.branch st.cc.less (sext8 off))

/-- LBLT: long branch if N != V (44 R335). -/
def execLblt (off : Word) (st : State) : Result := .next (st.branch st.cc.less off)

/-- BHI: branch if C = 0 and Z = 0 (44 R336). -/
def execBhi (off : Byte) (st : State) : Result := .next (st.branch st.cc.higher (sext8 off))

/-- LBHI: long branch if C = 0 and Z = 0 (44 R337). -/
def execLbhi (off : Word) (st : State) : Result := .next (st.branch st.cc.higher off)

/-- BLS: branch if C = 1 or Z = 1 (44 R340). -/
def execBls (off : Byte) (st : State) : Result := .next (st.branch st.cc.lowerOrSame (sext8 off))

/-- LBLS: long branch if C = 1 or Z = 1 (44 R341). -/
def execLbls (off : Word) (st : State) : Result := .next (st.branch st.cc.lowerOrSame off)

/-- BSR: branch to subroutine (44 R344). -/
def execBsr (off : Byte) (st : State) : Result := .next (st.branchSub (sext8 off))

/-- LBSR: long branch to subroutine (44 R345). -/
def execLbsr (off : Word) (st : State) : Result := .next (st.branchSub off)

/-- BRA: branch always (44 R346). -/
def execBra (off : Byte) (st : State) : Result := .next (st.branch true (sext8 off))

/-- LBRA: long branch always (44 R347). -/
def execLbra (off : Word) (st : State) : Result := .next (st.branch true off)

/-- BRN: branch never (44 R348). -/
def execBrn (off : Byte) (st : State) : Result := .next (st.branch false (sext8 off))

/-- LBRN: long branch never (44 R349). -/
def execLbrn (off : Word) (st : State) : Result := .next (st.branch false off)

end Sys2Proof.Machine
end

