-- ==== Sys2Proof/Machine/IndexStack.lean ====
section
/-! DEFINITION. The meanings of TABLE 6, the index register and stack pointer instructions (43).
PC is `pc_next` when a meaning runs (00 R14). -/

namespace Sys2Proof.Machine

/-- CMPS: flags of S - M (43 R270). -/
def execCmps (o : Src16) (st : State) : Result := .next (st.compare16 .s o)

/-- CMPU: flags of U - M (43 R271). -/
def execCmpu (o : Src16) (st : State) : Result := .next (st.compare16 .u o)

/-- CMPX: flags of X - M (43 R272). -/
def execCmpx (o : Src16) (st : State) : Result := .next (st.compare16 .x o)

/-- CMPY: flags of Y - M (43 R273). -/
def execCmpy (o : Src16) (st : State) : Result := .next (st.compare16 .y o)

/-- LEAS: S := the address; may arm the NMI (60 R405) (43 R274). -/
def execLeas (m : Indexed) (st : State) : Result := .next ((st.leaStack .s m).armNmi .leas)

/-- LEAU: U := the address (43 R275). -/
def execLeau (m : Indexed) (st : State) : Result := .next (st.leaStack .u m)

/-- LEAX: X := the address (43 R276). -/
def execLeax (m : Indexed) (st : State) : Result := .next (st.leaIndex .x m)

/-- LEAY: Y := the address (43 R277). -/
def execLeay (m : Indexed) (st : State) : Result := .next (st.leaIndex .y m)

/-- LDS: S := M; arms the NMI (60 R405) (43 R278). -/
def execLds (o : Src16) (st : State) : Result := .next ((st.load16 .s o).armNmi .lds)

/-- LDU: U := M (43 R279). -/
def execLdu (o : Src16) (st : State) : Result := .next (st.load16 .u o)

/-- LDX: X := M (43 R280). -/
def execLdx (o : Src16) (st : State) : Result := .next (st.load16 .x o)

/-- LDY: Y := M (43 R281). -/
def execLdy (o : Src16) (st : State) : Result := .next (st.load16 .y o)

/-- PSHS: push on the hardware stack (43 R282). -/
def execPshs (l : RegList) (st : State) : Result := .next (st.pushList .hardware l)

/-- PSHU: push on the user stack (43 R283). -/
def execPshu (l : RegList) (st : State) : Result := .next (st.pushList .user l)

/-- PULS: pull from the hardware stack (43 R284). -/
def execPuls (l : RegList) (st : State) : Result := .next (st.pullList .hardware l)

/-- PULU: pull from the user stack; pulling S may arm the NMI (60 R405) (43 R285). -/
def execPulu (l : RegList) (st : State) : Result :=
  let t := st.pullList .user l
  .next (t.when l.other fun t => t.armNmi .pulu)

/-- STS: M := S (43 R286). -/
def execSts (ea : Ea) (st : State) : Result := .next (st.store16 .s ea)

/-- STU: M := U (43 R287). -/
def execStu (ea : Ea) (st : State) : Result := .next (st.store16 .u ea)

/-- STX: M := X (43 R288). -/
def execStx (ea : Ea) (st : State) : Result := .next (st.store16 .x ea)

/-- STY: M := Y (43 R289). -/
def execSty (ea : Ea) (st : State) : Result := .next (st.store16 .y ea)

/-- ABX: X := X + B unsigned, no flag (43 R290). -/
def execAbx (st : State) : Result := .next (st.setX (st.x + zext8 st.b))

end Sys2Proof.Machine
end

