-- ==== Sys2Proof/Machine/Misc.lean ====
section
/-! DEFINITION. The meanings of TABLE 8, the miscellaneous instructions (45).
PC is `pc_next` when a meaning runs (00 R14). -/

namespace Sys2Proof.Machine

/-- ANDCC: CC := CC and m (45 R360). -/
def execAndcc (m : Byte) (st : State) : Result := .next (st.setCC (st.cc.andByte m))

/-- CWAI: CC := CC and m, E set, the entire state stacked, then wait (45 R361). -/
def execCwai (m : Byte) (st : State) : Result := .next ((((st.setCC (st.cc.andByte m)).setE true).pushEntire).setWait .cwaiWaiting)

/-- NOP: no operation (45 R362). -/
def execNop (st : State) : Result := .next st

/-- ORCC: CC := CC or m (45 R363). -/
def execOrcc (m : Byte) (st : State) : Result := .next (st.setCC (st.cc.orByte m))

/-- JMP: PC := the address (45 R364). -/
def execJmp (ea : Ea) (st : State) : Result :=
  let p := st.ea ea
  .next (p.2.setPc p.1)

/-- JSR: the return address stacked, PC := the address (45 R365). -/
def execJsr (ea : Ea) (st : State) : Result :=
  let p := st.ea ea
  .next ((p.2.push16 .hardware p.2.pc).setPc p.1)

/-- RTI: return from interrupt (45 R366). -/
def execRti (st : State) : Result := .next st.returnFromInterrupt

/-- RTS: return from subroutine (45 R367). -/
def execRts (st : State) : Result :=
  let p := st.pull16 .hardware
  .next (p.2.setPc p.1)

/-- SWI: software interrupt, masking IRQ and FIRQ (45 R368). -/
def execSwi (st : State) : Result := .next (st.swiStack.maskBoth.takeVector vectorSwi)

/-- SWI2: software interrupt, masks unchanged (45 R369). -/
def execSwi2 (st : State) : Result := .next (st.swiStack.takeVector vectorSwi2)

/-- SWI3: software interrupt, masks unchanged (45 R370). -/
def execSwi3 (st : State) : Result := .next (st.swiStack.takeVector vectorSwi3)

/-- SYNC: wait for an interrupt line (45 R371). -/
def execSync (st : State) : Result := .next (st.setWait .syncing)

end Sys2Proof.Machine
end

