-- ==== Sys2Proof/Machine/Dispatch.lean ====
section
/-! DEFINITION. The dispatch: one arm per constructor of `Instr`, each one call of the meaning of that instruction. -/

namespace Sys2Proof.Machine

def exec (i : Instr) (s : State) : Host.Outcome State Fault Refusal :=
  match i with
  | .adca o => Sys2Proof.Machine.execAdca o s
  | .adcb o => Sys2Proof.Machine.execAdcb o s
  | .adda o => Sys2Proof.Machine.execAdda o s
  | .addb o => Sys2Proof.Machine.execAddb o s
  | .anda o => Sys2Proof.Machine.execAnda o s
  | .andb o => Sys2Proof.Machine.execAndb o s
  | .asl ea => Sys2Proof.Machine.execAsl ea s
  | .asla => Sys2Proof.Machine.execAsla s
  | .aslb => Sys2Proof.Machine.execAslb s
  | .asr ea => Sys2Proof.Machine.execAsr ea s
  | .asra => Sys2Proof.Machine.execAsra s
  | .asrb => Sys2Proof.Machine.execAsrb s
  | .bita o => Sys2Proof.Machine.execBita o s
  | .bitb o => Sys2Proof.Machine.execBitb o s
  | .clr ea => Sys2Proof.Machine.execClr ea s
  | .clra => Sys2Proof.Machine.execClra s
  | .clrb => Sys2Proof.Machine.execClrb s
  | .cmpa o => Sys2Proof.Machine.execCmpa o s
  | .cmpb o => Sys2Proof.Machine.execCmpb o s
  | .com ea => Sys2Proof.Machine.execCom ea s
  | .coma => Sys2Proof.Machine.execComa s
  | .comb => Sys2Proof.Machine.execComb s
  | .daa => Sys2Proof.Machine.execDaa s
  | .dec ea => Sys2Proof.Machine.execDec ea s
  | .deca => Sys2Proof.Machine.execDeca s
  | .decb => Sys2Proof.Machine.execDecb s
  | .eora o => Sys2Proof.Machine.execEora o s
  | .eorb o => Sys2Proof.Machine.execEorb o s
  | .exg r1 r2 => Sys2Proof.Machine.execExg r1 r2 s
  | .inc ea => Sys2Proof.Machine.execInc ea s
  | .inca => Sys2Proof.Machine.execInca s
  | .incb => Sys2Proof.Machine.execIncb s
  | .lda o => Sys2Proof.Machine.execLda o s
  | .ldb o => Sys2Proof.Machine.execLdb o s
  | .lsr ea => Sys2Proof.Machine.execLsr ea s
  | .lsra => Sys2Proof.Machine.execLsra s
  | .lsrb => Sys2Proof.Machine.execLsrb s
  | .mul => Sys2Proof.Machine.execMul s
  | .neg ea => Sys2Proof.Machine.execNeg ea s
  | .nega => Sys2Proof.Machine.execNega s
  | .negb => Sys2Proof.Machine.execNegb s
  | .ora o => Sys2Proof.Machine.execOra o s
  | .orb o => Sys2Proof.Machine.execOrb o s
  | .rol ea => Sys2Proof.Machine.execRol ea s
  | .rola => Sys2Proof.Machine.execRola s
  | .rolb => Sys2Proof.Machine.execRolb s
  | .ror ea => Sys2Proof.Machine.execRor ea s
  | .rora => Sys2Proof.Machine.execRora s
  | .rorb => Sys2Proof.Machine.execRorb s
  | .sbca o => Sys2Proof.Machine.execSbca o s
  | .sbcb o => Sys2Proof.Machine.execSbcb o s
  | .sta ea => Sys2Proof.Machine.execSta ea s
  | .stb ea => Sys2Proof.Machine.execStb ea s
  | .suba o => Sys2Proof.Machine.execSuba o s
  | .subb o => Sys2Proof.Machine.execSubb o s
  | .tst ea => Sys2Proof.Machine.execTst ea s
  | .tsta => Sys2Proof.Machine.execTsta s
  | .tstb => Sys2Proof.Machine.execTstb s
  | .tfr r1 r2 => Sys2Proof.Machine.execTfr r1 r2 s
  | .addd o => Sys2Proof.Machine.execAddd o s
  | .cmpd o => Sys2Proof.Machine.execCmpd o s
  | .ldd o => Sys2Proof.Machine.execLdd o s
  | .sex => Sys2Proof.Machine.execSex s
  | .std ea => Sys2Proof.Machine.execStd ea s
  | .subd o => Sys2Proof.Machine.execSubd o s
  | .cmps o => Sys2Proof.Machine.execCmps o s
  | .cmpu o => Sys2Proof.Machine.execCmpu o s
  | .cmpx o => Sys2Proof.Machine.execCmpx o s
  | .cmpy o => Sys2Proof.Machine.execCmpy o s
  | .leas m => Sys2Proof.Machine.execLeas m s
  | .leau m => Sys2Proof.Machine.execLeau m s
  | .leax m => Sys2Proof.Machine.execLeax m s
  | .leay m => Sys2Proof.Machine.execLeay m s
  | .lds o => Sys2Proof.Machine.execLds o s
  | .ldu o => Sys2Proof.Machine.execLdu o s
  | .ldx o => Sys2Proof.Machine.execLdx o s
  | .ldy o => Sys2Proof.Machine.execLdy o s
  | .pshs l => Sys2Proof.Machine.execPshs l s
  | .pshu l => Sys2Proof.Machine.execPshu l s
  | .puls l => Sys2Proof.Machine.execPuls l s
  | .pulu l => Sys2Proof.Machine.execPulu l s
  | .sts ea => Sys2Proof.Machine.execSts ea s
  | .stu ea => Sys2Proof.Machine.execStu ea s
  | .stx ea => Sys2Proof.Machine.execStx ea s
  | .sty ea => Sys2Proof.Machine.execSty ea s
  | .abx => Sys2Proof.Machine.execAbx s
  | .beq off => Sys2Proof.Machine.execBeq off s
  | .lbeq off => Sys2Proof.Machine.execLbeq off s
  | .bne off => Sys2Proof.Machine.execBne off s
  | .lbne off => Sys2Proof.Machine.execLbne off s
  | .bmi off => Sys2Proof.Machine.execBmi off s
  | .lbmi off => Sys2Proof.Machine.execLbmi off s
  | .bpl off => Sys2Proof.Machine.execBpl off s
  | .lbpl off => Sys2Proof.Machine.execLbpl off s
  | .bcs off => Sys2Proof.Machine.execBcs off s
  | .lbcs off => Sys2Proof.Machine.execLbcs off s
  | .bcc off => Sys2Proof.Machine.execBcc off s
  | .lbcc off => Sys2Proof.Machine.execLbcc off s
  | .bvs off => Sys2Proof.Machine.execBvs off s
  | .lbvs off => Sys2Proof.Machine.execLbvs off s
  | .bvc off => Sys2Proof.Machine.execBvc off s
  | .lbvc off => Sys2Proof.Machine.execLbvc off s
  | .bgt off => Sys2Proof.Machine.execBgt off s
  | .lbgt off => Sys2Proof.Machine.execLbgt off s
  | .bge off => Sys2Proof.Machine.execBge off s
  | .lbge off => Sys2Proof.Machine.execLbge off s
  | .ble off => Sys2Proof.Machine.execBle off s
  | .lble off => Sys2Proof.Machine.execLble off s
  | .blt off => Sys2Proof.Machine.execBlt off s
  | .lblt off => Sys2Proof.Machine.execLblt off s
  | .bhi off => Sys2Proof.Machine.execBhi off s
  | .lbhi off => Sys2Proof.Machine.execLbhi off s
  | .bls off => Sys2Proof.Machine.execBls off s
  | .lbls off => Sys2Proof.Machine.execLbls off s
  | .bsr off => Sys2Proof.Machine.execBsr off s
  | .lbsr off => Sys2Proof.Machine.execLbsr off s
  | .bra off => Sys2Proof.Machine.execBra off s
  | .lbra off => Sys2Proof.Machine.execLbra off s
  | .brn off => Sys2Proof.Machine.execBrn off s
  | .lbrn off => Sys2Proof.Machine.execLbrn off s
  | .andcc m => Sys2Proof.Machine.execAndcc m s
  | .cwai m => Sys2Proof.Machine.execCwai m s
  | .nop => Sys2Proof.Machine.execNop s
  | .orcc m => Sys2Proof.Machine.execOrcc m s
  | .jmp ea => Sys2Proof.Machine.execJmp ea s
  | .jsr ea => Sys2Proof.Machine.execJsr ea s
  | .rti => Sys2Proof.Machine.execRti s
  | .rts => Sys2Proof.Machine.execRts s
  | .swi => Sys2Proof.Machine.execSwi s
  | .swi2 => Sys2Proof.Machine.execSwi2 s
  | .swi3 => Sys2Proof.Machine.execSwi3 s
  | .sync => Sys2Proof.Machine.execSync s

end Sys2Proof.Machine
end

