-- ==== Sys2Proof/Machine/Fetch.lean ====
section
/-! DEFINITION. Instruction fetch (00 R10, R14, 30 R83): the bytes at PC in ascending order, each read once. Also the
placing of an instruction where the fetch finds it. -/

namespace Sys2Proof.Machine

/-- `Fetch8()` (00 R10). -/
def State.fetch8 (st : State) : Byte × State :=
  let p := st.read8 st.pc
  (p.1, p.2.setPc (st.pc + 1))

/-- `n` bytes fetched one after another. -/
def State.fetchBytes : Nat → State → List Byte × State
  | 0, st => ([], st)
  | n + 1, st =>
    let p := st.fetch8
    let q := State.fetchBytes n p.2
    (p.1 :: q.1, q.2)

/-- The instruction at PC: decoded from the bytes that a fetch of the longest instruction would return. -/
def State.decodeAtPc (st : State) : Decoded := decode (State.fetchBytes longest st).1

/-- The `n` addresses from `a` upward, modulo 2^16. -/
def addressesFrom : Nat → Word → List Word
  | 0, _ => []
  | n + 1, a => a :: addressesFrom n (a + 1)

/-- The contents with the bytes stored from `a` upward, modulo 2^16. -/
def Memory.writeBytes (m : Memory) : Word → List Byte → Memory
  | _, [] => m
  | a, v :: rest => Memory.writeBytes (m.write a.toNat v) (a + 1) rest

/-- Whether the platform has RAM or ROM at an address. -/
def State.isMemory (st : State) (a : Word) : Bool :=
  match st.kind a with
  | .ram | .rom => true
  | .device | .unpopulated => false

/-- The platform with RAM at every address of a list where the environment would answer. -/
def State.platformFor (st : State) (as : List Word) : List Region :=
  if as.all st.isMemory then st.platform
  else as.map (fun a => { base := a.toNat, size := 1, kind := .ram }) ++ st.platform

/-- The inputs with nothing asserted at the next step. -/
def quietNext : List Inputs → List Inputs
  | [] => []
  | _ :: rest => Inputs.quiet :: rest

/-- The state whose next step fetches and runs exactly the bytes given: they stand at PC, in RAM or ROM, the processor
is running and no interrupt is asserted or pending. -/
def State.placeAtPc (st : State) (bytes : List Byte) : State :=
  { st with
    mem := st.mem.writeBytes st.pc bytes
    platform := st.platformFor (addressesFrom bytes.length st.pc)
    inputs := quietNext st.inputs
    nmiPending := false
    wait := .running }

end Sys2Proof.Machine
end

