-- ==== Sys2Proof/Machine/Cycle.lean ====
section
/-! DEFINITION. One step of the machine (00 R14, 60 R406, R407): the instruction boundary, where reset and the interrupts
are examined in their fixed order, and the fetch and execution of one instruction. -/

namespace Sys2Proof.Machine

/-- What a boundary comes to: an event has been taken, or the wait goes on, and the step is over; or an instruction is
to be fetched. -/
inductive Boundary where
  | settled (st : State)
  | execute (st : State)
  deriving DecidableEq, Repr

/-- The inputs of this step; beyond the list nothing is asserted. -/
def State.nowInputs (st : State) : Inputs := st.inputs.headD Inputs.quiet

/-- Step 0 of 60 R407: an edge is latched only while NMI is armed (60 R405). -/
def State.latchNmi (st : State) (edge : Bool) : State :=
  st.setNmiPending (st.nmiPending || (edge && st.nmiArmed))

/-- Step 2 of 60 R407: any active input ends SYNC, masked or not (60 R416 (b)). -/
def State.leaveSync (st : State) (inp : Inputs) : State :=
  if st.wait = .syncing ∧ (st.nmiPending || inp.firq || inp.irq) = true then st.setWait .running else st

/-- Steps 3 to 7 of 60 R407. -/
def State.recognise (st : State) (inp : Inputs) : Boundary :=
  if st.nmiPending then .settled st.nmiEntry
  else if inp.firq && !st.cc.f then .settled st.firqEntry
  else if inp.irq && !st.cc.i then .settled st.irqEntry
  else if st.wait = .running then .execute st
  else .settled st

/-- The boundary before an instruction (60 R407): the inputs of the step are consumed, then steps 0 to 7. -/
def State.boundary (st : State) : Boundary :=
  let inp := st.nowInputs
  let st := (st.setInputs st.inputs.tail).latchNmi inp.nmiEdge
  if inp.reset then .settled st.resetSequence else (st.leaveSync inp).recognise inp

/-- Fetch, decode and execution of one instruction (00 R14 step 3): exactly the bytes of the instruction are fetched,
and an undefined encoding faults before any effect (60 R407). -/
def State.runInstruction (st : State) : Result :=
  match st.decodeAtPc with
  | .ok i length => exec i (State.fetchBytes length st).2
  | .illegal why bytes => .fault (.illegalInstruction st.pc why bytes)

/-- One step (60 R407). -/
def State.cycle (st : State) : Result :=
  match st.boundary with
  | .settled t => .next t
  | .execute t => t.runInstruction

end Sys2Proof.Machine
end

