-- ==== Sys2Proof/Machine/Step.lean ====
section
/-! DEFINITION. The step function, and the placing of an opcode table's word where the next step fetches it. -/

namespace Sys2Proof.Machine

/-- One step of the machine (60 R407). -/
def step (s : State) : Host.Outcome State Fault Refusal := s.cycle

/-- `s` with the word's bytes stored at PC, where the next step fetches, and with everything that could keep the next
step from fetching cleared (log 11, log 12). -/
def State.withFetchWord (s : State) (nbits w : Nat) : State := s.placeAtPc (tableBytes nbits w)

end Sys2Proof.Machine
end

