-- ==== Sys2Proof/Safety.lean ====
section
/-! DEFINITION. The words that the statements are written in: the invariant, frames, stored and stacked bytes, and the
results of the instructions in the arithmetic of numbers, next to the bit operations the machine computes them with. -/

namespace Sys2Proof.Machine

/-! ## The invariant -/

/-- Memory is in canonical form, a pending NMI is an armed one (60 R405), and in a CWAI wait E is set, because the frame on
the stack is the entire state (60 R416 (a)). -/
def State.Inv (s : State) : Prop :=
  s.mem.wf = true ∧ (s.nmiPending = true → s.nmiArmed = true) ∧ (s.wait = .cwaiWaiting → s.cc.e = true)

/-! ## Frames -/

/-- The fields of the state that a frame speaks of: all but memory and the model's own `bus` and `draws`. -/
inductive Field where
  | a
  | b
  | dp
  | cc
  | x
  | y
  | u
  | s
  | pc
  | nmiArmed
  | nmiPending
  | wait
  | platform
  | inputs
  deriving DecidableEq, Repr

/-- A field is the same in two states. -/
def Field.same (f : Field) (s t : State) : Prop :=
  match f with
  | .a => t.a = s.a
  | .b => t.b = s.b
  | .dp => t.dp = s.dp
  | .cc => t.cc = s.cc
  | .x => t.x = s.x
  | .y => t.y = s.y
  | .u => t.u = s.u
  | .s => t.s = s.s
  | .pc => t.pc = s.pc
  | .nmiArmed => t.nmiArmed = s.nmiArmed
  | .nmiPending => t.nmiPending = s.nmiPending
  | .wait => t.wait = s.wait
  | .platform => t.platform = s.platform
  | .inputs => t.inputs = s.inputs

/-- Every field but those listed is in `t` what it was in `s`. -/
def Keeps (changed : List Field) (s t : State) : Prop := ∀ f : Field, f ∉ changed → f.same s t

/-- Every byte of memory reads in `t` as in `s`. -/
def KeepsMemory (s t : State) : Prop := ∀ w : Word, t.mem.read w.toNat = s.mem.read w.toNat

/-- The bytes have been stored from address `a` upward, modulo 2^16: those whose address is RAM are there, at every other
kind of address memory is as it was, and so it is at every address that is not one of the bytes' (20 R54, R59). -/
def Stored (s t : State) (a : Word) (bytes : List Byte) : Prop :=
  (∀ w : Word, w ∉ addressesFrom bytes.length a → t.mem.read w.toNat = s.mem.read w.toNat) ∧
  ∀ (j : Nat) (h : j < bytes.length),
    t.mem.read (a + BitVec.ofNat 16 j).toNat =
      if s.kind (a + BitVec.ofNat 16 j) = .ram then bytes[j] else s.mem.read (a + BitVec.ofNat 16 j).toNat

/-- The field of an accumulator. -/
def Acc.field : Acc → Field
  | .a => .a
  | .b => .b

/-- The fields that a register of 30 R110 is held in. -/
def regFields : Reg → List Field
  | .d => [.a, .b]
  | .x => [.x]
  | .y => [.y]
  | .u => [.u]
  | .s => [.s]
  | .pc => [.pc]
  | .a => [.a]
  | .b => [.b]
  | .cc => [.cc]
  | .dp => [.dp]

/-! ## Operands -/

/-- The base register an indexed mode writes back and the amount it adds (30 R90 to R93). -/
def indexedUpdate : Indexed → Option (IndexReg × Word)
  | .postInc1 r => some (r, 1)
  | .postInc2 r _ => some (r, 2)
  | .preDec1 r => some (r, -1)
  | .preDec2 r _ => some (r, -2)
  | .offset5 _ _ | .noOffset _ _ | .accB _ _ | .accA _ _ | .offset8 _ _ _ | .offset16 _ _ _ | .accD _ _ => none
  | .pcOffset8 _ _ _ | .pcOffset16 _ _ _ | .extIndirect _ => none

/-- The register update of a memory operand. -/
def eaUpdate : Ea → Option (IndexReg × Word)
  | .dir _ | .ext _ => none
  | .idx m => indexedUpdate m

/-- The register update of an 8-bit source operand. -/
def src8Update : Src8 → Option (IndexReg × Word)
  | .imm _ => none
  | .mem ea => eaUpdate ea

/-- The register update of a 16-bit source operand. -/
def src16Update : Src16 → Option (IndexReg × Word)
  | .imm _ => none
  | .mem ea => eaUpdate ea

/-- The state after an operand's register update, if it has one. -/
def State.updated (s : State) : Option (IndexReg × Word) → State
  | none => s
  | some (r, d) => s.setIndexReg r (s.indexReg r + d)

/-- The address an indexed mode computes before indirection, as an integer before it wraps modulo 2^16 (30 R89 to R103). -/
def State.indexedAddress (s : State) : Indexed → Int
  | .offset5 r n => (s.indexReg r).toNat + n.toInt
  | .postInc1 r | .postInc2 r _ => (s.indexReg r).toNat
  | .preDec1 r => (s.indexReg r).toNat - 1
  | .preDec2 r _ => (s.indexReg r).toNat - 2
  | .noOffset r _ => (s.indexReg r).toNat
  | .accB r _ => (s.indexReg r).toNat + s.b.toInt
  | .accA r _ => (s.indexReg r).toNat + s.a.toInt
  | .offset8 r n _ => (s.indexReg r).toNat + n.toInt
  | .offset16 r n _ => (s.indexReg r).toNat + n.toInt
  | .accD r _ => (s.indexReg r).toNat + (s.a.toNat * 256 + s.b.toNat)
  | .pcOffset8 _ n _ => s.pc.toNat + n.toInt
  | .pcOffset16 _ n _ => s.pc.toNat + n.toInt
  | .extIndirect a => a.toNat

/-- The byte that a read of an address returns. -/
def State.byteAt (s : State) (a : Word) : Byte := (s.read8 a).1

/-- The byte at the effective address of an operand, read after the address has been computed. -/
def State.eaByte (s : State) (ea : Ea) : Byte := ((s.ea ea).2.read8 (s.ea ea).1).1

/-- `n` bytes read one after another from address `a` upward, and the state after the reads. -/
def State.readBytes : Nat → Word → State → List Byte × State
  | 0, _, s => ([], s)
  | n + 1, a, s =>
    let p := s.read8 a
    let q := State.readBytes n (a + 1) p.2
    (p.1 :: q.1, q.2)

/-! ## Results in numbers -/

/-- a + m + cin modulo 2^8. -/
def sum8 (a m : Byte) (cin : Nat) : Byte := BitVec.ofNat 8 (a.toNat + m.toNat + cin)

/-- a - m - bin modulo 2^8. -/
def difference8 (a m : Byte) (bin : Nat) : Byte := BitVec.ofInt 8 ((a.toNat : Int) - m.toNat - bin)

/-- a + m modulo 2^16. -/
def sum16 (a m : Word) : Word := BitVec.ofNat 16 (a.toNat + m.toNat)

/-- a - m modulo 2^16. -/
def difference16 (a m : Word) : Word := BitVec.ofInt 16 ((a.toNat : Int) - m.toNat)

/-- N and Z of an 8-bit result, V as given. -/
def CC.ofByteResult (cc : CC) (r : Byte) (v : Bool) : CC :=
  { cc with n := decide (128 ≤ r.toNat), z := decide (r.toNat = 0), v := v }

/-- N and Z of a 16-bit result, V as given. -/
def CC.ofWordResult (cc : CC) (r : Word) (v : Bool) : CC :=
  { cc with n := decide (32768 ≤ r.toNat), z := decide (r.toNat = 0), v := v }

/-- The flags of a + m + cin: carries out of bit 3 and bit 7, and whether the signed sum leaves -128..127. -/
def CC.ofSum8 (cc : CC) (a m : Byte) (cin : Nat) : CC :=
  { cc.ofByteResult (sum8 a m cin) (decide (a.toInt + m.toInt + cin < -128 ∨ 127 < a.toInt + m.toInt + cin)) with
    h := decide (16 ≤ a.toNat % 16 + m.toNat % 16 + cin)
    c := decide (256 ≤ a.toNat + m.toNat + cin) }

/-- The flags of a - m - bin: the borrow, and whether the signed difference leaves -128..127; H is given, for it is
undefined. -/
def CC.ofDifference8 (cc : CC) (a m : Byte) (bin : Nat) (h : Bool) : CC :=
  { cc.ofByteResult (difference8 a m bin) (decide (a.toInt - m.toInt - bin < -128 ∨ 127 < a.toInt - m.toInt - bin)) with
    h := h
    c := decide (a.toNat < m.toNat + bin) }

/-- The flags of a 16-bit sum; H is untouched. -/
def CC.ofSum16 (cc : CC) (a m : Word) : CC :=
  { cc.ofWordResult (sum16 a m) (decide (a.toInt + m.toInt < -32768 ∨ 32767 < a.toInt + m.toInt)) with
    c := decide (65536 ≤ a.toNat + m.toNat) }

/-- The flags of a 16-bit difference; H is untouched. -/
def CC.ofDifference16 (cc : CC) (a m : Word) : CC :=
  { cc.ofWordResult (difference16 a m) (decide (a.toInt - m.toInt < -32768 ∨ 32767 < a.toInt - m.toInt)) with
    c := decide (a.toNat < m.toNat) }

/-- What a single-operand instruction makes of its operand and of CC, given the value H takes where it is undefined. -/
abbrev Single := Byte → CC → Bool → Byte × CC

/-- ASL: twice the operand; V says that twice the signed operand leaves -128..127. -/
def Single.asl : Single := fun m cc h =>
  let r : Byte := BitVec.ofNat 8 (2 * m.toNat)
  (r, { cc.ofByteResult r (decide (2 * m.toInt < -128 ∨ 127 < 2 * m.toInt)) with h := h, c := decide (128 ≤ m.toNat) })

/-- ASR: half the signed operand, rounded down. -/
def Single.asr : Single := fun m cc h =>
  let r : Byte := BitVec.ofInt 8 (m.toInt / 2)
  (r, { cc.ofByteResult r cc.v with h := h, c := decide (m.toNat % 2 = 1) })

/-- LSR: half the unsigned operand. -/
def Single.lsr : Single := fun m cc _ =>
  let r : Byte := BitVec.ofNat 8 (m.toNat / 2)
  (r, { cc.ofByteResult r cc.v with n := false, c := decide (m.toNat % 2 = 1) })

/-- ROL: twice the operand plus the old C. -/
def Single.rol : Single := fun m cc _ =>
  let r : Byte := BitVec.ofNat 8 (2 * m.toNat + cc.c.toNat)
  (r, { cc.ofByteResult r (decide (2 * m.toInt < -128 ∨ 127 < 2 * m.toInt)) with c := decide (128 ≤ m.toNat) })

/-- ROR: half the operand, the old C in bit 7. -/
def Single.ror : Single := fun m cc _ =>
  let r : Byte := BitVec.ofNat 8 (m.toNat / 2 + 128 * cc.c.toNat)
  (r, { cc.ofByteResult r cc.v with c := decide (m.toNat % 2 = 1) })

/-- NEG: 0 - m; V exactly for 0x80, C exactly for an operand other than 0. -/
def Single.neg : Single := fun m cc h =>
  let r : Byte := BitVec.ofInt 8 (-(m.toNat : Int))
  (r, { cc.ofByteResult r (decide (m.toNat = 128)) with h := h, c := decide (m.toNat ≠ 0) })

/-- COM: 255 - m, C set. -/
def Single.com : Single := fun m cc _ =>
  let r : Byte := BitVec.ofNat 8 (255 - m.toNat)
  (r, { cc.ofByteResult r false with c := true })

/-- CLR: 0, with N, V and C cleared and Z set. -/
def Single.clr : Single := fun _ cc _ => (0, { cc with n := false, z := true, v := false, c := false })

/-- INC: m + 1; V exactly for 0x7F. -/
def Single.inc : Single := fun m cc _ =>
  let r : Byte := BitVec.ofNat 8 (m.toNat + 1)
  (r, cc.ofByteResult r (decide (m.toNat = 127)))

/-- DEC: m - 1; V exactly for 0x80. -/
def Single.dec : Single := fun m cc _ =>
  let r : Byte := BitVec.ofInt 8 ((m.toNat : Int) - 1)
  (r, cc.ofByteResult r (decide (m.toNat = 128)))

/-! ## Shapes of statements -/

/-- The accumulator becomes a value and CC becomes what is given, both of the state before and the operand; nothing else
changes but the index register the operand updates. -/
def SetsAcc (i : Src8 → Instr) (r : Acc) (value : State → Byte → Byte) (flags : State → Byte → CC → Prop) : Prop :=
  ∀ (s : State) (o : Src8), ∃ t, exec (i o) s = .next t ∧
    t.acc r = value s (s.operand8 o).1 ∧ flags s (s.operand8 o).1 t.cc ∧
    Keeps [r.field, .cc] (s.updated (src8Update o)) t ∧ KeepsMemory s t

/-- Only CC is written, as given; nothing else changes but the index register the operand updates. -/
def SetsFlags8 (i : Src8 → Instr) (flags : State → Byte → CC → Prop) : Prop :=
  ∀ (s : State) (o : Src8), ∃ t, exec (i o) s = .next t ∧ flags s (s.operand8 o).1 t.cc ∧
    Keeps [.cc] (s.updated (src8Update o)) t ∧ KeepsMemory s t

/-- A single-operand instruction on an accumulator (40 R143). -/
def MakesAcc (i : Instr) (r : Acc) (f : Single) : Prop :=
  ∀ s : State, ∃ h t, exec i s = .next t ∧ t.acc r = (f (s.acc r) s.cc h).1 ∧ t.cc = (f (s.acc r) s.cc h).2 ∧
    Keeps [r.field, .cc] s t ∧ KeepsMemory s t

/-- A single-operand instruction on a memory byte: read once, then written at the same address (40 R143). -/
def MakesMem (i : Ea → Instr) (f : Single) : Prop :=
  ∀ (s : State) (e : Ea), ∃ h t, exec (i e) s = .next t ∧ t.cc = (f (s.eaByte e) s.cc h).2 ∧
    Stored s t (s.ea e).1 [(f (s.eaByte e) s.cc h).1] ∧ Keeps [.cc] (s.updated (eaUpdate e)) t

/-- A 16-bit load of a register: N and Z of the word, V cleared, `armed` the value of the NMI gate afterwards. -/
def Loads16 (i : Src16 → Instr) (r : Reg) (armed : State → Bool) : Prop :=
  ∀ (s : State) (o : Src16), ∃ t, exec (i o) s = .next t ∧
    t.readReg r = (s.operand16 o).1 ∧ t.cc = s.cc.ofWordResult (s.operand16 o).1 false ∧ t.nmiArmed = armed s ∧
    Keeps (.cc :: .nmiArmed :: regFields r) (s.updated (src16Update o)) t ∧ KeepsMemory s t

/-- A 16-bit store of a register as it is after the address has been computed, high byte at the lower address. -/
def Stores16 (i : Ea → Instr) (r : Reg) : Prop :=
  ∀ (s : State) (e : Ea), ∃ t, exec (i e) s = .next t ∧
    t.cc = s.cc.ofWordResult ((s.updated (eaUpdate e)).readReg r) false ∧
    Stored s t (s.ea e).1
      [hiByte ((s.updated (eaUpdate e)).readReg r), loByte ((s.updated (eaUpdate e)).readReg r)] ∧
    Keeps [.cc] (s.updated (eaUpdate e)) t

/-- A 16-bit compare: only CC is written, with the flags of the register less the operand. -/
def Compares16 (i : Src16 → Instr) (r : Reg) : Prop :=
  ∀ (s : State) (o : Src16), ∃ t, exec (i o) s = .next t ∧
    t.cc = s.cc.ofDifference16 ((s.updated (src16Update o)).readReg r) (s.operand16 o).1 ∧
    Keeps [.cc] (s.updated (src16Update o)) t ∧ KeepsMemory s t

/-- A conditional branch: the target is `pc_next` plus the signed offset modulo 2^16, and PC is the only thing that can
change. -/
def Branches {w : Nat} (i : BitVec w → Instr) (taken : CC → Prop) : Prop :=
  ∀ (s : State) (off : BitVec w),
    (taken s.cc → exec (i off) s = .next { s with pc := BitVec.ofInt 16 (s.pc.toNat + off.toInt) }) ∧
    (¬taken s.cc → exec (i off) s = .next s)

/-! ## Stack frames -/

/-- Every register in the list. -/
def allRegisters : RegList :=
  { pc := true, other := true, y := true, x := true, dp := true, b := true, a := true, cc := true }

/-- PC and CC only, the short frame. -/
def pcAndCC : RegList :=
  { pc := true, other := false, y := false, x := false, dp := false, b := false, a := false, cc := true }

/-- The bytes that stand on a stack for a register list, upward from the stack pointer (43 R268): CC, A, B, DP, X, Y, the
other stack pointer, PC, 16-bit registers high byte first. -/
def State.frame (s : State) (k : Stack) (l : RegList) : List Byte :=
  (if l.cc then [s.cc.toByte] else []) ++ (if l.a then [s.a] else []) ++ (if l.b then [s.b] else []) ++
    (if l.dp then [s.dp] else []) ++ (if l.x then [hiByte s.x, loByte s.x] else []) ++
    (if l.y then [hiByte s.y, loByte s.y] else []) ++
    (if l.other then [hiByte (s.sp k.other), loByte (s.sp k.other)] else []) ++
    (if l.pc then [hiByte s.pc, loByte s.pc] else [])

/-- How many bytes a register list moves: one for each 8-bit and two for each 16-bit register. -/
def listSize (l : RegList) : Nat :=
  l.cc.toNat + l.a.toNat + l.b.toNat + l.dp.toNat + 2 * l.x.toNat + 2 * l.y.toNat + 2 * l.other.toNat + 2 * l.pc.toNat

/-- The field of a stack pointer. -/
def Stack.field : Stack → Field
  | .hardware => .s
  | .user => .u

/-- The fields a pull of a register list writes, the stack pointer among them. -/
def listFields (k : Stack) (l : RegList) : List Field :=
  k.field :: ((if l.cc then [.cc] else []) ++ (if l.a then [.a] else []) ++ (if l.b then [.b] else []) ++
    (if l.dp then [.dp] else []) ++ (if l.x then [.x] else []) ++ (if l.y then [.y] else []) ++
    (if l.other then [k.other.field] else []) ++ (if l.pc then [.pc] else []))

/-- The entire state has been stacked below the old S with the given CC (60 R408). -/
def StacksEntire (s t : State) (cc : CC) : Prop :=
  t.s = s.s - 12 ∧
  Stored s t (s.s - 12)
    [cc.toByte, s.a, s.b, s.dp, hiByte s.x, loByte s.x, hiByte s.y, loByte s.y, hiByte s.u, loByte s.u,
     hiByte s.pc, loByte s.pc]

/-- PC and the given CC have been stacked below the old S (60 R409). -/
def StacksFast (s t : State) (cc : CC) : Prop :=
  t.s = s.s - 3 ∧ Stored s t (s.s - 3) [cc.toByte, hiByte s.pc, loByte s.pc]

/-- PC is what a two-byte read of a vector returns once everything that the entry stacks has been stacked: the word there
where the platform has RAM or ROM, the environment's answer elsewhere (60 R402). -/
def TakesVector (t : State) (vector : Word) : Prop :=
  ∃ bus, t.pc = ((t.setBus bus).read16 vector).1 ∧ t.bus = ((t.setBus bus).read16 vector).2.bus

/-! ## Accesses, in order

The record of the environment's accesses after these states is the model's own (log 5). -/

/-- Bytes written one after another downward from just below address `a`, the order of a push (00 R11). -/
def State.storeDown : State → Word → List Byte → State
  | s, _, [] => s
  | s, a, v :: rest => State.storeDown (s.write8 (a - 1) v) (a - 1) rest

/-- A frame of the hardware stack with the given CC, PC's low byte first and CC last (60 R408, R409). -/
def State.storeFrame (s : State) (l : RegList) (cc : CC) : State :=
  s.storeDown s.s (({ s with cc := cc }).frame .hardware l).reverse

/-- One read of the operand, then one write of the result at the same address (20 R60 (e)). No result depends on H. -/
def State.readThenWrite (s : State) (e : Ea) (f : Single) : State :=
  ((s.ea e).2.read8 (s.ea e).1).2.write8 (s.ea e).1 (f (s.eaByte e) s.cc false).1

/-- The accesses of a hardware entry: the frame, unless CWAI has stacked it, then the vector (60 R410 to R412). -/
def State.entryAccesses (s : State) (l : RegList) (cc : CC) (vector : Word) : State :=
  ((if s.wait = .cwaiWaiting then s else s.storeFrame l cc).read16 vector).2

/-- The state that the data accesses of an instruction lead to, in the order of 20 R60; an instruction with no memory
operand and no stack or vector access has none. -/
def State.dataAccesses (s : State) : Instr → State
  | .adca o | .adcb o | .adda o | .addb o | .anda o | .andb o | .bita o | .bitb o | .cmpa o | .cmpb o
  | .eora o | .eorb o | .lda o | .ldb o | .ora o | .orb o | .sbca o | .sbcb o | .suba o | .subb o => (s.operand8 o).2
  | .addd o | .cmpd o | .ldd o | .subd o | .cmps o | .cmpu o | .cmpx o | .cmpy o | .lds o | .ldu o
  | .ldx o | .ldy o => (s.operand16 o).2
  | .tst e => ((s.ea e).2.read8 (s.ea e).1).2
  | .sta e => (s.ea e).2.write8 (s.ea e).1 s.a
  | .stb e => (s.ea e).2.write8 (s.ea e).1 s.b
  | .std e => (s.ea e).2.write16 (s.ea e).1 ((s.updated (eaUpdate e)).readReg .d)
  | .stx e => (s.ea e).2.write16 (s.ea e).1 ((s.updated (eaUpdate e)).readReg .x)
  | .sty e => (s.ea e).2.write16 (s.ea e).1 ((s.updated (eaUpdate e)).readReg .y)
  | .stu e => (s.ea e).2.write16 (s.ea e).1 ((s.updated (eaUpdate e)).readReg .u)
  | .sts e => (s.ea e).2.write16 (s.ea e).1 ((s.updated (eaUpdate e)).readReg .s)
  | .asl e => s.readThenWrite e .asl
  | .asr e => s.readThenWrite e .asr
  | .lsr e => s.readThenWrite e .lsr
  | .rol e => s.readThenWrite e .rol
  | .ror e => s.readThenWrite e .ror
  | .neg e => s.readThenWrite e .neg
  | .com e => s.readThenWrite e .com
  | .clr e => s.readThenWrite e .clr
  | .inc e => s.readThenWrite e .inc
  | .dec e => s.readThenWrite e .dec
  | .jmp e => (s.ea e).2
  | .leax m | .leay m | .leau m | .leas m => (s.eaIndexed m).2
  | .jsr e => (s.ea e).2.storeDown (s.updated (eaUpdate e)).s [loByte s.pc, hiByte s.pc]
  | .bsr _ | .lbsr _ => s.storeDown s.s [loByte s.pc, hiByte s.pc]
  | .pshs l => s.storeDown s.s (s.frame .hardware l).reverse
  | .pshu l => s.storeDown s.u (s.frame .user l).reverse
  | .puls l => (State.readBytes (listSize l) s.s s).2
  | .pulu l => (State.readBytes (listSize l) s.u s).2
  | .rts => (s.read16 s.s).2
  | .rti => (State.readBytes (if (s.byteAt s.s).getLsbD 7 then 12 else 3) s.s s).2
  | .swi => ((s.storeFrame allRegisters { s.cc with e := true }).read16 0xFFFA).2
  | .swi2 => ((s.storeFrame allRegisters { s.cc with e := true }).read16 0xFFF4).2
  | .swi3 => ((s.storeFrame allRegisters { s.cc with e := true }).read16 0xFFF2).2
  | .cwai m => s.storeFrame allRegisters { CC.ofByte (s.cc.toByte &&& m) with e := true }
  | .asla | .aslb | .asra | .asrb | .clra | .clrb | .coma | .comb | .daa | .deca | .decb | .exg _ _
  | .inca | .incb | .lsra | .lsrb | .mul | .nega | .negb | .rola | .rolb | .rora | .rorb | .tsta | .tstb
  | .tfr _ _ | .sex | .abx | .beq _ | .lbeq _ | .bne _ | .lbne _ | .bmi _ | .lbmi _ | .bpl _ | .lbpl _
  | .bcs _ | .lbcs _ | .bcc _ | .lbcc _ | .bvs _ | .lbvs _ | .bvc _ | .lbvc _ | .bgt _ | .lbgt _
  | .bge _ | .lbge _ | .ble _ | .lble _ | .blt _ | .lblt _ | .bhi _ | .lbhi _ | .bls _ | .lbls _
  | .bra _ | .lbra _ | .brn _ | .lbrn _ | .andcc _ | .nop | .orcc _ | .sync => s

/-! ## Comparisons -/

/-- A short branch and its long form are taken exactly if `p` holds. -/
def BranchesIff (t : State) (short : Byte → Instr) (long : Word → Instr) (p : Prop) : Prop :=
  (∀ off : Byte, (p → exec (short off) t = .next { t with pc := BitVec.ofInt 16 (t.pc.toNat + off.toInt) }) ∧
    (¬p → exec (short off) t = .next t)) ∧
  ∀ off : Word, (p → exec (long off) t = .next { t with pc := BitVec.ofInt 16 (t.pc.toNat + off.toInt) }) ∧
    (¬p → exec (long off) t = .next t)

/-- Every branch that a comparison of `x` with `y` is made for decides what its name says (44 R311). -/
def DecidesComparison {w : Nat} (t : State) (x y : BitVec w) : Prop :=
  BranchesIff t .bhi .lbhi (y.toNat < x.toNat) ∧ BranchesIff t .bls .lbls (x.toNat ≤ y.toNat) ∧
  BranchesIff t .bcc .lbcc (y.toNat ≤ x.toNat) ∧ BranchesIff t .bcs .lbcs (x.toNat < y.toNat) ∧
  BranchesIff t .beq .lbeq (x = y) ∧ BranchesIff t .bne .lbne (x ≠ y) ∧
  BranchesIff t .bgt .lbgt (y.toInt < x.toInt) ∧ BranchesIff t .ble .lble (x.toInt ≤ y.toInt) ∧
  BranchesIff t .bge .lbge (y.toInt ≤ x.toInt) ∧ BranchesIff t .blt .lblt (x.toInt < y.toInt)

/-- An 8-bit compare leaves the flags that decide its comparison. -/
def ComparesByte (i : Src8 → Instr) (r : Acc) : Prop :=
  ∀ (s : State) (o : Src8), ∃ t, exec (i o) s = .next t ∧ DecidesComparison t (s.acc r) (s.operand8 o).1

/-- A 16-bit compare leaves the flags that decide its comparison, of the register as the operand's address leaves it. -/
def ComparesWord (i : Src16 → Instr) (r : Reg) : Prop :=
  ∀ (s : State) (o : Src16), ∃ t, exec (i o) s = .next t ∧
    DecidesComparison t ((s.updated (src16Update o)).readReg r) (s.operand16 o).1

/-! ## Steps -/

/-- The state after the step's inputs have been consumed. -/
def State.advanced (s : State) : State := s.setInputs s.inputs.tail

/-- An NMI is pending at this boundary: latched before, or now, which takes an armed gate (60 R405). -/
def State.nmiDue (s : State) : Bool := s.nmiPending || (s.nowInputs.nmiEdge && s.nmiArmed)

/-- FIRQ is asserted and not masked. -/
def State.firqDue (s : State) : Bool := s.nowInputs.firq && !s.cc.f

/-- IRQ is asserted and not masked. -/
def State.irqDue (s : State) : Bool := s.nowInputs.irq && !s.cc.i

/-- No reset and no interrupt is recognised at this boundary. -/
def State.Uneventful (s : State) : Prop :=
  s.nowInputs.reset = false ∧ s.nmiDue = false ∧ s.firqDue = false ∧ s.irqDue = false

/-- Nothing comes before the instruction at this boundary (60 R407). -/
def State.Undisturbed (s : State) : Prop := s.wait = .running ∧ s.Uneventful

/-- The instruction's bytes stand in RAM or ROM at PC. -/
def State.HoldsInstr (s : State) (i : Instr) : Prop :=
  ∀ (j : Nat) (h : j < (encode i).length),
    s.isMemory (s.pc + BitVec.ofNat 16 j) = true ∧
    s.mem.read (s.pc + BitVec.ofNat 16 j).toNat = (encode i)[j]

/-! ## Which instructions write what -/

/-- The instructions that can write DP (10 R38). -/
def writesDp : Instr → Bool
  | .tfr _ r2 => decide (r2 = .dp)
  | .exg r1 r2 => decide (r1 = .dp) || decide (r2 = .dp)
  | .puls l | .pulu l => l.dp
  | .rti => true
  | .adca _ | .adcb _ | .adda _ | .addb _ | .anda _ | .andb _ | .asl _ | .asla | .aslb | .asr _ | .asra | .asrb
  | .bita _ | .bitb _ | .clr _ | .clra | .clrb | .cmpa _ | .cmpb _ | .com _ | .coma | .comb | .daa | .dec _
  | .deca | .decb | .eora _ | .eorb _ | .inc _ | .inca | .incb | .lda _ | .ldb _ | .lsr _ | .lsra | .lsrb | .mul
  | .neg _ | .nega | .negb | .ora _ | .orb _ | .rol _ | .rola | .rolb | .ror _ | .rora | .rorb | .sbca _
  | .sbcb _ | .sta _ | .stb _ | .suba _ | .subb _ | .tst _ | .tsta | .tstb | .addd _ | .cmpd _ | .ldd _ | .sex
  | .std _ | .subd _ | .cmps _ | .cmpu _ | .cmpx _ | .cmpy _ | .leas _ | .leau _ | .leax _ | .leay _ | .lds _
  | .ldu _ | .ldx _ | .ldy _ | .pshs _ | .pshu _ | .sts _ | .stu _ | .stx _ | .sty _ | .abx | .beq _ | .lbeq _
  | .bne _ | .lbne _ | .bmi _ | .lbmi _ | .bpl _ | .lbpl _ | .bcs _ | .lbcs _ | .bcc _ | .lbcc _ | .bvs _
  | .lbvs _ | .bvc _ | .lbvc _ | .bgt _ | .lbgt _ | .bge _ | .lbge _ | .ble _ | .lble _ | .blt _ | .lblt _
  | .bhi _ | .lbhi _ | .bls _ | .lbls _ | .bsr _ | .lbsr _ | .bra _ | .lbra _ | .brn _ | .lbrn _ | .andcc _
  | .cwai _ | .nop | .orcc _ | .jmp _ | .jsr _ | .rts | .swi | .swi2 | .swi3 | .sync => false

/-- The instructions that can write CC as a whole (10 R32, R34). -/
def writesCC : Instr → Bool
  | .andcc _ | .orcc _ | .cwai _ | .rti => true
  | .tfr _ r2 => decide (r2 = .cc)
  | .exg r1 r2 => decide (r1 = .cc) || decide (r2 = .cc)
  | .puls l | .pulu l => l.cc
  | .adca _ | .adcb _ | .adda _ | .addb _ | .anda _ | .andb _ | .asl _ | .asla | .aslb | .asr _ | .asra | .asrb
  | .bita _ | .bitb _ | .clr _ | .clra | .clrb | .cmpa _ | .cmpb _ | .com _ | .coma | .comb | .daa | .dec _
  | .deca | .decb | .eora _ | .eorb _ | .inc _ | .inca | .incb | .lda _ | .ldb _ | .lsr _ | .lsra | .lsrb | .mul
  | .neg _ | .nega | .negb | .ora _ | .orb _ | .rol _ | .rola | .rolb | .ror _ | .rora | .rorb | .sbca _
  | .sbcb _ | .sta _ | .stb _ | .suba _ | .subb _ | .tst _ | .tsta | .tstb | .addd _ | .cmpd _ | .ldd _ | .sex
  | .std _ | .subd _ | .cmps _ | .cmpu _ | .cmpx _ | .cmpy _ | .leas _ | .leau _ | .leax _ | .leay _ | .lds _
  | .ldu _ | .ldx _ | .ldy _ | .pshs _ | .pshu _ | .sts _ | .stu _ | .stx _ | .sty _ | .abx | .beq _ | .lbeq _
  | .bne _ | .lbne _ | .bmi _ | .lbmi _ | .bpl _ | .lbpl _ | .bcs _ | .lbcs _ | .bcc _ | .lbcc _ | .bvs _
  | .lbvs _ | .bvc _ | .lbvc _ | .bgt _ | .lbgt _ | .bge _ | .lbge _ | .ble _ | .lble _ | .blt _ | .lblt _
  | .bhi _ | .lbhi _ | .bls _ | .lbls _ | .bsr _ | .lbsr _ | .bra _ | .lbra _ | .brn _ | .lbrn _ | .nop | .jmp _
  | .jsr _ | .rts | .swi | .swi2 | .swi3 | .sync => false

/-- The instructions that write H without writing CC as a whole: the 8-bit additions, and those that leave it undefined
(10 R33). -/
def writesH : Instr → Bool
  | .adda _ | .addb _ | .adca _ | .adcb _ => true
  | .suba _ | .subb _ | .sbca _ | .sbcb _ | .cmpa _ | .cmpb _ | .neg _ | .nega | .negb => true
  | .asl _ | .asla | .aslb | .asr _ | .asra | .asrb => true
  | .anda _ | .andb _ | .bita _ | .bitb _ | .clr _ | .clra | .clrb | .com _ | .coma | .comb | .daa | .dec _
  | .deca | .decb | .eora _ | .eorb _ | .exg _ _ | .inc _ | .inca | .incb | .lda _ | .ldb _ | .lsr _ | .lsra
  | .lsrb | .mul | .ora _ | .orb _ | .rol _ | .rola | .rolb | .ror _ | .rora | .rorb | .sta _ | .stb _ | .tst _
  | .tsta | .tstb | .tfr _ _ | .addd _ | .cmpd _ | .ldd _ | .sex | .std _ | .subd _ | .cmps _ | .cmpu _
  | .cmpx _ | .cmpy _ | .leas _ | .leau _ | .leax _ | .leay _ | .lds _ | .ldu _ | .ldx _ | .ldy _ | .pshs _
  | .pshu _ | .puls _ | .pulu _ | .sts _ | .stu _ | .stx _ | .sty _ | .abx | .beq _ | .lbeq _ | .bne _ | .lbne _
  | .bmi _ | .lbmi _ | .bpl _ | .lbpl _ | .bcs _ | .lbcs _ | .bcc _ | .lbcc _ | .bvs _ | .lbvs _ | .bvc _
  | .lbvc _ | .bgt _ | .lbgt _ | .bge _ | .lbge _ | .ble _ | .lble _ | .blt _ | .lblt _ | .bhi _ | .lbhi _
  | .bls _ | .lbls _ | .bsr _ | .lbsr _ | .bra _ | .lbra _ | .brn _ | .lbrn _ | .andcc _ | .cwai _ | .nop
  | .orcc _ | .jmp _ | .jsr _ | .rti | .rts | .swi | .swi2 | .swi3 | .sync => false

/-- The software interrupts. -/
def isSoftwareInterrupt : Instr → Bool
  | .swi | .swi2 | .swi3 => true
  | .adca _ | .adcb _ | .adda _ | .addb _ | .anda _ | .andb _ | .asl _ | .asla | .aslb | .asr _ | .asra | .asrb
  | .bita _ | .bitb _ | .clr _ | .clra | .clrb | .cmpa _ | .cmpb _ | .com _ | .coma | .comb | .daa | .dec _
  | .deca | .decb | .eora _ | .eorb _ | .exg _ _ | .inc _ | .inca | .incb | .lda _ | .ldb _ | .lsr _ | .lsra
  | .lsrb | .mul | .neg _ | .nega | .negb | .ora _ | .orb _ | .rol _ | .rola | .rolb | .ror _ | .rora | .rorb
  | .sbca _ | .sbcb _ | .sta _ | .stb _ | .suba _ | .subb _ | .tst _ | .tsta | .tstb | .tfr _ _ | .addd _
  | .cmpd _ | .ldd _ | .sex | .std _ | .subd _ | .cmps _ | .cmpu _ | .cmpx _ | .cmpy _ | .leas _ | .leau _
  | .leax _ | .leay _ | .lds _ | .ldu _ | .ldx _ | .ldy _ | .pshs _ | .pshu _ | .puls _ | .pulu _ | .sts _
  | .stu _ | .stx _ | .sty _ | .abx | .beq _ | .lbeq _ | .bne _ | .lbne _ | .bmi _ | .lbmi _ | .bpl _ | .lbpl _
  | .bcs _ | .lbcs _ | .bcc _ | .lbcc _ | .bvs _ | .lbvs _ | .bvc _ | .lbvc _ | .bgt _ | .lbgt _ | .bge _
  | .lbge _ | .ble _ | .lble _ | .blt _ | .lblt _ | .bhi _ | .lbhi _ | .bls _ | .lbls _ | .bsr _ | .lbsr _
  | .bra _ | .lbra _ | .brn _ | .lbrn _ | .andcc _ | .cwai _ | .nop | .orcc _ | .jmp _ | .jsr _ | .rti | .rts
  | .sync => false

/-- The instructions that write memory: stores, read-modify-write instructions, pushes, calls, software interrupts and
CWAI. -/
def writesMemory : Instr → Bool
  | .sta _ | .stb _ | .std _ | .stx _ | .sty _ | .stu _ | .sts _ => true
  | .asl _ | .asr _ | .clr _ | .com _ | .dec _ | .inc _ | .lsr _ | .neg _ | .rol _ | .ror _ => true
  | .pshs _ | .pshu _ | .bsr _ | .lbsr _ | .jsr _ | .swi | .swi2 | .swi3 | .cwai _ => true
  | .adca _ | .adcb _ | .adda _ | .addb _ | .anda _ | .andb _ | .asla | .aslb | .asra | .asrb | .bita _
  | .bitb _ | .clra | .clrb | .cmpa _ | .cmpb _ | .coma | .comb | .daa | .deca | .decb | .eora _ | .eorb _
  | .exg _ _ | .inca | .incb | .lda _ | .ldb _ | .lsra | .lsrb | .mul | .nega | .negb | .ora _ | .orb _ | .rola
  | .rolb | .rora | .rorb | .sbca _ | .sbcb _ | .suba _ | .subb _ | .tst _ | .tsta | .tstb | .tfr _ _ | .addd _
  | .cmpd _ | .ldd _ | .sex | .subd _ | .cmps _ | .cmpu _ | .cmpx _ | .cmpy _ | .leas _ | .leau _ | .leax _
  | .leay _ | .lds _ | .ldu _ | .ldx _ | .ldy _ | .puls _ | .pulu _ | .abx | .beq _ | .lbeq _ | .bne _ | .lbne _
  | .bmi _ | .lbmi _ | .bpl _ | .lbpl _ | .bcs _ | .lbcs _ | .bcc _ | .lbcc _ | .bvs _ | .lbvs _ | .bvc _
  | .lbvc _ | .bgt _ | .lbgt _ | .bge _ | .lbge _ | .ble _ | .lble _ | .blt _ | .lblt _ | .bhi _ | .lbhi _
  | .bls _ | .lbls _ | .bra _ | .lbra _ | .brn _ | .lbrn _ | .andcc _ | .nop | .orcc _ | .jmp _ | .rti | .rts
  | .sync => false

/-- The instructions that transfer control (10 R25): every other one leaves PC at `pc_next`. -/
def writesPc : Instr → Bool
  | .beq _ | .bne _ | .bmi _ | .bpl _ | .bcs _ | .bcc _ | .bvs _ | .bvc _ | .bgt _ | .bge _ | .ble _ | .blt _ => true
  | .bhi _ | .bls _ | .bsr _ | .bra _ => true
  | .lbeq _ | .lbne _ | .lbmi _ | .lbpl _ | .lbcs _ | .lbcc _ | .lbvs _ | .lbvc _ | .lbgt _ | .lbge _ | .lble _ => true
  | .lblt _ | .lbhi _ | .lbls _ | .lbsr _ | .lbra _ => true
  | .jmp _ | .jsr _ | .rts | .rti | .swi | .swi2 | .swi3 => true
  | .tfr _ r2 => decide (r2 = .pc)
  | .exg r1 r2 => decide (r1 = .pc) || decide (r2 = .pc)
  | .puls l | .pulu l => l.pc
  | .adca _ | .adcb _ | .adda _ | .addb _ | .anda _ | .andb _ | .asl _ | .asla | .aslb | .asr _ | .asra | .asrb
  | .bita _ | .bitb _ | .clr _ | .clra | .clrb | .cmpa _ | .cmpb _ | .com _ | .coma | .comb | .daa | .dec _
  | .deca | .decb | .eora _ | .eorb _ | .inc _ | .inca | .incb | .lda _ | .ldb _ | .lsr _ | .lsra | .lsrb | .mul
  | .neg _ | .nega | .negb | .ora _ | .orb _ | .rol _ | .rola | .rolb | .ror _ | .rora | .rorb | .sbca _
  | .sbcb _ | .sta _ | .stb _ | .suba _ | .subb _ | .tst _ | .tsta | .tstb | .addd _ | .cmpd _ | .ldd _ | .sex
  | .std _ | .subd _ | .cmps _ | .cmpu _ | .cmpx _ | .cmpy _ | .leas _ | .leau _ | .leax _ | .leay _ | .lds _
  | .ldu _ | .ldx _ | .ldy _ | .pshs _ | .pshu _ | .sts _ | .stu _ | .stx _ | .sty _ | .abx | .brn _ | .lbrn _
  | .andcc _ | .cwai _ | .nop | .orcc _ | .sync => false

/-- Whether an instruction writes S in a way that is in NMI_ARM_SET (60 R405). -/
def armsNmiGate : Instr → Bool
  | .lds _ => inArmSet .lds
  | .leas _ => inArmSet .leas
  | .tfr _ r2 => decide (r2 = .s) && inArmSet .tfr
  | .exg r1 r2 => (decide (r1 = .s) || decide (r2 = .s)) && inArmSet .exg
  | .pulu l => l.other && inArmSet .pulu
  | .adca _ | .adcb _ | .adda _ | .addb _ | .anda _ | .andb _ | .asl _ | .asla | .aslb | .asr _ | .asra | .asrb
  | .bita _ | .bitb _ | .clr _ | .clra | .clrb | .cmpa _ | .cmpb _ | .com _ | .coma | .comb | .daa | .dec _
  | .deca | .decb | .eora _ | .eorb _ | .inc _ | .inca | .incb | .lda _ | .ldb _ | .lsr _ | .lsra | .lsrb | .mul
  | .neg _ | .nega | .negb | .ora _ | .orb _ | .rol _ | .rola | .rolb | .ror _ | .rora | .rorb | .sbca _
  | .sbcb _ | .sta _ | .stb _ | .suba _ | .subb _ | .tst _ | .tsta | .tstb | .addd _ | .cmpd _ | .ldd _ | .sex
  | .std _ | .subd _ | .cmps _ | .cmpu _ | .cmpx _ | .cmpy _ | .leau _ | .leax _ | .leay _ | .ldu _ | .ldx _
  | .ldy _ | .pshs _ | .pshu _ | .puls _ | .sts _ | .stu _ | .stx _ | .sty _ | .abx | .beq _ | .lbeq _ | .bne _
  | .lbne _ | .bmi _ | .lbmi _ | .bpl _ | .lbpl _ | .bcs _ | .lbcs _ | .bcc _ | .lbcc _ | .bvs _ | .lbvs _
  | .bvc _ | .lbvc _ | .bgt _ | .lbgt _ | .bge _ | .lbge _ | .ble _ | .lble _ | .blt _ | .lblt _ | .bhi _
  | .lbhi _ | .bls _ | .lbls _ | .bsr _ | .lbsr _ | .bra _ | .lbra _ | .brn _ | .lbrn _ | .andcc _ | .cwai _
  | .nop | .orcc _ | .jmp _ | .jsr _ | .rti | .rts | .swi | .swi2 | .swi3 | .sync => false

/-- What the processor does after an instruction (45 R361, R371). -/
def waitAfter (w : Wait) : Instr → Wait
  | .cwai _ => .cwaiWaiting
  | .sync => .syncing
  | .adca _ | .adcb _ | .adda _ | .addb _ | .anda _ | .andb _ | .asl _ | .asla | .aslb | .asr _ | .asra | .asrb
  | .bita _ | .bitb _ | .clr _ | .clra | .clrb | .cmpa _ | .cmpb _ | .com _ | .coma | .comb | .daa | .dec _
  | .deca | .decb | .eora _ | .eorb _ | .exg _ _ | .inc _ | .inca | .incb | .lda _ | .ldb _ | .lsr _ | .lsra
  | .lsrb | .mul | .neg _ | .nega | .negb | .ora _ | .orb _ | .rol _ | .rola | .rolb | .ror _ | .rora | .rorb
  | .sbca _ | .sbcb _ | .sta _ | .stb _ | .suba _ | .subb _ | .tst _ | .tsta | .tstb | .tfr _ _ | .addd _
  | .cmpd _ | .ldd _ | .sex | .std _ | .subd _ | .cmps _ | .cmpu _ | .cmpx _ | .cmpy _ | .leas _ | .leau _
  | .leax _ | .leay _ | .lds _ | .ldu _ | .ldx _ | .ldy _ | .pshs _ | .pshu _ | .puls _ | .pulu _ | .sts _
  | .stu _ | .stx _ | .sty _ | .abx | .beq _ | .lbeq _ | .bne _ | .lbne _ | .bmi _ | .lbmi _ | .bpl _ | .lbpl _
  | .bcs _ | .lbcs _ | .bcc _ | .lbcc _ | .bvs _ | .lbvs _ | .bvc _ | .lbvc _ | .bgt _ | .lbgt _ | .bge _
  | .lbge _ | .ble _ | .lble _ | .blt _ | .lblt _ | .bhi _ | .lbhi _ | .bls _ | .lbls _ | .bsr _ | .lbsr _
  | .bra _ | .lbra _ | .brn _ | .lbrn _ | .andcc _ | .nop | .orcc _ | .jmp _ | .jsr _ | .rti | .rts | .swi
  | .swi2 | .swi3 => w

/-! ## Decimal numbers -/

/-- Both digits of a byte are decimal. -/
def isPackedDecimal (v : Byte) : Prop := v.toNat / 16 ≤ 9 ∧ v.toNat % 16 ≤ 9

/-- The number that two decimal digits stand for. -/
def packedValue (v : Byte) : Nat := v.toNat / 16 * 10 + v.toNat % 16

end Sys2Proof.Machine
end

