-- ==== Sys2Proof/Certificates/Slice0/Obligations.lean ====
section
/-! DEFINITION. The statements about this machine. A meaning runs when all bytes of the instruction have been fetched, so
PC is `pc_next` in every statement about `exec` (00 R14). -/

open Sys2Proof Sys2Proof.Machine

/-! ## Encoding -/

/-- Decoding the encoding of a well-formed instruction gives it back with its length, whatever bytes follow: no bit of an
encoding is dropped, and no byte after the instruction matters (30 R80 to R118, R83). That a term keeps the `rr` bits that a
PC-relative postbyte ignores is the model's choice (log 15). -/
def Obligations.DecodeEncode : Prop :=
  ∀ (i : Instr) (rest : List Byte), i.wellFormed = true → decode (encode i ++ rest) = .ok i (encode i).length

/-- What decodes is a well-formed instruction, and the bytes it takes are its encoding: every instruction term has exactly
one encoding, and every accepted byte string is one (30 R80 to R118). That is the model's choice of terms (log 15): in the
spec the `rr` bits of a PC-relative postbyte are ignored, so that four postbytes are one form, and the model keeps those bits
in the term (30 R101, R107, R118). -/
def Obligations.EncodeDecode : Prop :=
  ∀ (bytes : List Byte) (i : Instr) (n : Nat), decode bytes = .ok i n →
    i.wellFormed = true ∧ n = (encode i).length ∧ encode i = bytes.take n

/-- The 33 page 1 cells without an instruction and the second bytes that pages 2 and 3 do not define are illegal, and no
other opcode is: the spec's decisions D11 and D12 (30 R115, R116; log 9). -/
def Obligations.IllegalOpcodes : Prop :=
  (∀ (b : Byte) (rest : List Byte),
    decode (b :: rest) = .illegal .undefinedOpcode [b] ↔
      b ∈ ([0x01, 0x02, 0x05, 0x0B, 0x14, 0x15, 0x18, 0x1B, 0x38, 0x3E, 0x41, 0x42, 0x45, 0x4B, 0x4E, 0x51, 0x52, 0x55,
        0x5B, 0x5E, 0x61, 0x62, 0x65, 0x6B, 0x71, 0x72, 0x75, 0x7B, 0x87, 0x8F, 0xC7, 0xCD, 0xCF] : List Byte)) ∧
  (∀ (b : Byte) (rest : List Byte),
    decode (0x10 :: b :: rest) = .illegal .undefinedPage2 [0x10, b] ↔
      b ∉ ([0x21, 0x22, 0x23, 0x24, 0x25, 0x26, 0x27, 0x28, 0x29, 0x2A, 0x2B, 0x2C, 0x2D, 0x2E, 0x2F, 0x3F, 0x83, 0x8C,
        0x8E, 0x93, 0x9C, 0x9E, 0x9F, 0xA3, 0xAC, 0xAE, 0xAF, 0xB3, 0xBC, 0xBE, 0xBF, 0xCE, 0xDE, 0xDF, 0xEE, 0xEF, 0xFE,
        0xFF] : List Byte)) ∧
  (∀ (b : Byte) (rest : List Byte),
    decode (0x11 :: b :: rest) = .illegal .undefinedPage3 [0x11, b] ↔
      b ∉ ([0x3F, 0x83, 0x8C, 0x93, 0x9C, 0xA3, 0xAC, 0xB3, 0xBC] : List Byte))

/-- The illegal indexed postbytes are the nine listed, the same with the base register field at 1, 2 and 3, and 0xBF, 0xDF,
0xFF, whatever the opcode and the bytes after them: the spec's decision D13 (30 R104; log 9). -/
def Obligations.IllegalIndexedPostbytes : Prop :=
  ∀ (op : List Byte) (k : Indexed → Instr) (pb : Byte) (more : List Byte),
    decodeOperand op (.indexed k) (pb :: more) = .illegal .indexedPostbyte (op ++ [pb]) ↔
      ((∃ base ∈ ([0x87, 0x8A, 0x8E, 0x8F, 0x90, 0x92, 0x97, 0x9A, 0x9E] : List Byte),
        ∃ rr ∈ ([0x00, 0x20, 0x40, 0x60] : List Byte), pb = base + rr) ∨
      pb ∈ ([0xBF, 0xDF, 0xFF] : List Byte))

/-- The register codes of a REGPAIR postbyte: the high nibble names the first register, the low nibble the second, the
ten codes are as tabulated, and a postbyte with another code or with two widths is illegal: the spec's decision D14
(30 R110; log 9). -/
def Obligations.RegisterPairPostbytes : Prop :=
  (∀ c : BitVec 4, regOfCode c =
    match c.toNat with
    | 0 => some .d | 1 => some .x | 2 => some .y | 3 => some .u | 4 => some .s | 5 => some .pc
    | 8 => some .a | 9 => some .b | 10 => some .cc | 11 => some .dp
    | _ => none) ∧
  ∀ (opcode : Byte) (k : Reg → Reg → Instr) (pb : Byte) (more : List Byte),
    decodeOperand [opcode] (.regPair k) (pb :: more) =
      match regOfCode (BitVec.ofNat 4 (pb.toNat / 16)), regOfCode (BitVec.ofNat 4 (pb.toNat % 16)) with
      | some r1, some r2 => if r1.wide = r2.wide then .ok (k r1 r2) 2 else .illegal .registerPair [opcode, pb]
      | _, _ => .illegal .registerPair [opcode, pb]

/-- A few words, one or two of each format, written out from the encodings of the spec. -/
def Obligations.SampleWordsDecode : Prop :=
  decode [0x86, 0x12] = .ok (.lda (.imm 0x12)) 2 ∧
  decode [0x10, 0x8E, 0x12, 0x34] = .ok (.ldy (.imm 0x1234)) 4 ∧
  decode [0x97, 0x40] = .ok (.sta (.dir 0x40)) 2 ∧
  decode [0x7E, 0xE0, 0x05] = .ok (.jmp (.ext 0xE005)) 3 ∧
  decode [0xA6, 0xA0] = .ok (.lda (.mem (.idx (.postInc1 .y)))) 2 ∧
  decode [0x6E, 0x9F, 0x20, 0x00] = .ok (.jmp (.idx (.extIndirect 0x2000))) 4 ∧
  decode [0x27, 0xFE] = .ok (.beq 0xFE) 2 ∧
  decode [0x10, 0x21, 0x12, 0x34] = .ok (.lbrn 0x1234) 4 ∧
  decode [0x1F, 0x89] = .ok (.tfr .a .b) 2 ∧
  decode [0x34, 0x16] = .ok (.pshs ⟨false, false, false, true, false, true, true, false⟩) 2 ∧
  decode [0x3C, 0xEF] = .ok (.cwai 0xEF) 2 ∧
  decode [0x11, 0x3F] = .ok .swi3 2

/-! ## Steps -/

/-- Where nothing comes before the instruction, a step is `exec` of the instruction that the bytes at PC decode to, in the
state its bytes have been fetched in: PC has moved past exactly those bytes, and only the inputs, PC and the record of the
environment's accesses have changed (00 R14). -/
def Obligations.StepRunsTheDecodedInstruction : Prop :=
  ∀ (s : State) (i : Instr) (n : Nat), s.Undisturbed → s.advanced.decodeAtPc = .ok i n →
    step s = exec i (State.fetchBytes n s.advanced).2 ∧
    (State.fetchBytes n s.advanced).2.pc = s.pc + BitVec.ofNat 16 n ∧
    Keeps [.pc] s.advanced (State.fetchBytes n s.advanced).2 ∧
    (State.fetchBytes n s.advanced).2.mem = s.mem

/-- Where the encoding of a well-formed instruction stands at PC in RAM or ROM, wherever that is and even across 0xFFFF, a
step is `exec` of that instruction with PC past it and the inputs consumed, and nothing else has changed; so a byte that
was stored is fetched by the next instruction (20 R66, 10 R25, R26). -/
def Obligations.StepRunsTheBytesInMemory : Prop :=
  ∀ (s : State) (i : Instr), s.Undisturbed → i.wellFormed = true → s.HoldsInstr i →
    step s = exec i { s with pc := s.pc + BitVec.ofNat 16 (encode i).length, inputs := s.inputs.tail }

/-- Where the bytes at PC are no instruction, a step faults before any effect, and the fault records the address of the
first byte and the bytes decoded so far (60 R407, R417). That the fault exists is the spec's decision D11 (log 9). -/
def Obligations.StepFaultsOnIllegalBytes : Prop :=
  ∀ (s : State) (why : Illegal) (bytes : List Byte), s.Undisturbed → s.advanced.decodeAtPc = .illegal why bytes →
    step s = .fault (.illegalInstruction s.pc why bytes)

/-- A step never refuses, and the only fault is the illegal instruction at PC (00 R12, 60 R400, R417). That a step that goes
on consumes one element of the list of inputs and leaves the platform's regions alone is the model's choice: it holds the
spec's parameters IrqInputs (log 8) and Mem (log 4) so. -/
def Obligations.StepOutcomes : Prop :=
  ∀ s : State, (∀ r, step s ≠ .refused r) ∧
    (∀ f, step s = .fault f → ∃ why bytes, f = .illegalInstruction s.pc why bytes) ∧
    (∀ t, step s = .next t → t.platform = s.platform ∧ t.inputs = s.inputs.tail)

/-- The order in which a boundary examines its candidates (60 R407): an armed edge is latched; reset; SYNC ended by any
active input; NMI; FIRQ if F is 0; IRQ if I is 0; an instruction if the processor runs; else nothing. Sampling at boundaries
and the priority are the spec's decision D17 (log 18), and that a masked request ends SYNC is its decision D22 (log 13); the
inputs as a list that each step consumes from are the model's (log 8). -/
def Obligations.BoundaryOrder : Prop :=
  ∀ s : State,
    (s.nowInputs.reset = true → step s = .next (s.advanced.setNmiPending s.nmiDue).resetSequence) ∧
    (s.nowInputs.reset = false →
      ∀ w : Wait, w = (if s.wait = .syncing ∧ (s.nmiDue || s.nowInputs.firq || s.nowInputs.irq) = true then .running
        else s.wait) →
      (s.nmiDue = true → step s = .next ((s.advanced.setNmiPending true).setWait w).nmiEntry) ∧
      (s.nmiDue = false → s.firqDue = true → step s = .next ((s.advanced.setNmiPending false).setWait w).firqEntry) ∧
      (s.nmiDue = false → s.firqDue = false → s.irqDue = true →
        step s = .next ((s.advanced.setNmiPending false).setWait w).irqEntry) ∧
      (s.Uneventful → w = .running → step s = ((s.advanced.setNmiPending false).setWait w).runInstruction) ∧
      (s.Uneventful → w ≠ .running → step s = .next ((s.advanced.setNmiPending false).setWait w)))

/-- An NMI edge while NMI is not armed leaves no trace: the step is the one without the edge (60 R405). While armed and
waiting in CWAI or not, an edge that reset does not discard is serviced at once, so nothing is pending afterwards. -/
def Obligations.NmiEdgeNeedsArming : Prop :=
  (∀ (s : State) (inp : Inputs) (rest : List Inputs), s.nmiArmed = false →
    step { s with inputs := { inp with nmiEdge := true } :: rest } =
      step { s with inputs := { inp with nmiEdge := false } :: rest }) ∧
  (∀ (s t : State), s.nmiArmed = true → s.nowInputs.nmiEdge = true → step s = .next t → t.nmiPending = false)

/-- While the processor waits and nothing that ends the wait is there, a step does nothing but consume its input: SYNC with
no active input, CWAI with every request masked (60 R407 step 7, R416). A masked FIRQ or IRQ ends SYNC without an interrupt,
and the instruction after SYNC is executed: the spec's decision D22 (60 R416 (b), 45 R371; log 13). The input consumed is one
element of the model's list (log 8). -/
def Obligations.WaitStates : Prop :=
  ∀ s : State, s.Uneventful →
    (s.wait = .syncing → s.nowInputs.firq = false → s.nowInputs.irq = false → step s = .next s.advanced) ∧
    (s.wait = .cwaiWaiting → step s = .next s.advanced) ∧
    (s.wait = .syncing → (s.nowInputs.firq = true ∨ s.nowInputs.irq = true) →
      step s = (s.advanced.setWait .running).runInstruction)

/-! ## Reset and interrupts -/

/-- The reset sequence (70 R450): DP, I, F, the hidden state and PC as listed, nothing stacked, no memory written, whatever
the processor was doing. -/
def Obligations.ResetSequence : Prop :=
  ∀ s : State, s.nowInputs.reset = true → ∃ t, step s = .next t ∧
    t.dp = 0x00 ∧ t.cc.i = true ∧ t.cc.f = true ∧ t.nmiArmed = false ∧ t.nmiPending = false ∧ t.wait = .running ∧
    TakesVector t 0xFFFE ∧ t.mem = s.mem

/-- The state after reset has the values the spec gives (10 R41): DP 0, I and F set, NMI not armed and not pending,
running, and PC the word at 0xFFFE. The registers the spec gives no value are the model's choice and not stated (log 1). -/
def Obligations.ResetValues : Prop :=
  State.reset.dp = 0x00 ∧ State.reset.cc.i = true ∧ State.reset.cc.f = true ∧ State.reset.nmiArmed = false ∧
  State.reset.nmiPending = false ∧ State.reset.wait = .running ∧
  State.reset.pc = (State.reset.read16 0xFFFE).1

/-- The entire frame (60 R408) is twelve bytes below the old S, pushed PC first and CC last as PSHS pushes all registers;
the short one (60 R409) is three bytes, PC then CC. S is lower by that, and no register other than S changes. -/
def Obligations.InterruptFrames : Prop :=
  ∀ s : State, StacksEntire s s.pushEntire s.cc ∧ Keeps [.s] s s.pushEntire ∧
    s.pushEntire = (((((((s.push16 .hardware s.pc).push16 .hardware s.u).push16 .hardware s.y).push16 .hardware
      s.x).push8 .hardware s.dp).push8 .hardware s.b).push8 .hardware s.a).push8 .hardware s.cc.toByte ∧
    exec (.pshs allRegisters) s = .next s.pushEntire ∧
    StacksFast s s.pushFast s.cc ∧ Keeps [.s] s s.pushFast ∧
    s.pushFast = (s.push16 .hardware s.pc).push8 .hardware s.cc.toByte

/-- NMI entry (60 R410): E set and the entire state stacked, unless CWAI has stacked it; then I and F set, the processor
running, the request no longer pending, PC from 0xFFFC. -/
def Obligations.NmiEntry : Prop :=
  ∀ s : State, s.nowInputs.reset = false → s.nmiDue = true → ∃ t, step s = .next t ∧
    t.nmiPending = false ∧ t.wait = .running ∧ TakesVector t 0xFFFC ∧
    Keeps [.cc, .s, .pc, .nmiPending, .wait] s.advanced t ∧
    (s.wait ≠ .cwaiWaiting →
      StacksEntire s t { s.cc with e := true } ∧ t.cc = { s.cc with e := true, f := true, i := true }) ∧
    (s.wait = .cwaiWaiting → t.s = s.s ∧ KeepsMemory s t ∧ t.cc = { s.cc with f := true, i := true })

/-- FIRQ entry (60 R411): E cleared and only PC and CC stacked, unless CWAI has stacked the entire state; then F and I set,
the processor running, PC from 0xFFF6. -/
def Obligations.FirqEntry : Prop :=
  ∀ s : State, s.nowInputs.reset = false → s.nmiDue = false → s.firqDue = true → ∃ t, step s = .next t ∧
    t.wait = .running ∧ TakesVector t 0xFFF6 ∧
    Keeps [.cc, .s, .pc, .wait] s.advanced t ∧
    (s.wait ≠ .cwaiWaiting →
      StacksFast s t { s.cc with e := false } ∧ t.cc = { s.cc with e := false, f := true, i := true }) ∧
    (s.wait = .cwaiWaiting → t.s = s.s ∧ KeepsMemory s t ∧ t.cc = { s.cc with f := true, i := true })

/-- IRQ entry (60 R412): E set and the entire state stacked, unless CWAI has stacked it; then I set and F as it was, the
processor running, PC from 0xFFF8. -/
def Obligations.IrqEntry : Prop :=
  ∀ s : State, s.nowInputs.reset = false → s.nmiDue = false → s.firqDue = false → s.irqDue = true →
    ∃ t, step s = .next t ∧ t.wait = .running ∧ TakesVector t 0xFFF8 ∧
    Keeps [.cc, .s, .pc, .wait] s.advanced t ∧
    (s.wait ≠ .cwaiWaiting →
      StacksEntire s t { s.cc with e := true } ∧ t.cc = { s.cc with e := true, i := true }) ∧
    (s.wait = .cwaiWaiting → t.s = s.s ∧ KeepsMemory s t ∧ t.cc = { s.cc with i := true })

/-- SWI, SWI2 and SWI3: E set, the entire state stacked, SWI alone sets I and F, PC from the instruction's vector; SWI
leaves H, N, Z, V and C alone (60 R413). -/
def Obligations.SoftwareInterrupts : Prop :=
  ∀ s : State,
    (∃ t, exec .swi s = .next t ∧ StacksEntire s t { s.cc with e := true } ∧
      t.cc = { s.cc with e := true, f := true, i := true } ∧ TakesVector t 0xFFFA ∧ Keeps [.cc, .s, .pc] s t) ∧
    (∃ t, exec .swi2 s = .next t ∧ StacksEntire s t { s.cc with e := true } ∧
      t.cc = { s.cc with e := true } ∧ TakesVector t 0xFFF4 ∧ Keeps [.cc, .s, .pc] s t) ∧
    (∃ t, exec .swi3 s = .next t ∧ StacksEntire s t { s.cc with e := true } ∧
      t.cc = { s.cc with e := true } ∧ TakesVector t 0xFFF2 ∧ Keeps [.cc, .s, .pc] s t)

/-- CWAI, whose mask byte is the spec's decision D20: the mask is ANDed into CC, E is set, the entire state is stacked with that CC, and the processor waits. -/
def Obligations.Cwai : Prop :=
  ∀ (s : State) (m : Byte) (cc : CC), cc = { CC.ofByte (s.cc.toByte &&& m) with e := true } →
    ∃ t, exec (.cwai m) s = .next t ∧ t.cc = cc ∧ StacksEntire s t cc ∧ t.wait = .cwaiWaiting ∧
      Keeps [.cc, .s, .wait] s t

/-- RTI: CC is the byte at S; if its E bit is 1 all registers of the frame are the next eleven bytes and S ends 12 higher,
if it is 0 only PC is pulled and S ends 3 higher. -/
def Obligations.ReturnFromInterrupt : Prop :=
  ∀ s : State,
    ((s.byteAt s.s).getLsbD 7 = true → ∃ t, exec .rti s = .next t ∧ t.s = s.s + 12 ∧
      (State.readBytes 12 s.s s).1 =
        [t.cc.toByte, t.a, t.b, t.dp, hiByte t.x, loByte t.x, hiByte t.y, loByte t.y, hiByte t.u, loByte t.u,
         hiByte t.pc, loByte t.pc] ∧
      Keeps [.cc, .a, .b, .dp, .x, .y, .u, .s, .pc] s t ∧ KeepsMemory s t) ∧
    ((s.byteAt s.s).getLsbD 7 = false → ∃ t, exec .rti s = .next t ∧ t.s = s.s + 3 ∧
      (State.readBytes 3 s.s s).1 = [t.cc.toByte, hiByte t.pc, loByte t.pc] ∧
      Keeps [.cc, .s, .pc] s t ∧ KeepsMemory s t)

/-- RTI undoes the entry of every interrupt and of every software interrupt, where the frame's addresses are RAM: all
registers are as they were, PC is the address of the first instruction not executed, and of CC only E may differ, which
tells the kind of the frame (60 R414). Where CWAI has stacked the frame and the entry ends its wait, RTI gives back the
registers that CWAI found, with the CC that it left: CWAI's mask byte and what ends its wait are the spec's decisions D20
and D22 (60 R416 (a), 45 R361; log 13). -/
def Obligations.ReturnUndoesEntry : Prop :=
  ∀ s : State, (∀ j, j < 12 → s.kind (s.s - 12 + BitVec.ofNat 16 j) = .ram) →
    (s.nowInputs.reset = false → s.wait ≠ .cwaiWaiting → s.nmiDue = true →
      ∃ t u, step s = .next t ∧ exec .rti t = .next u ∧ u.cc = { s.cc with e := true } ∧
        Keeps [.cc, .nmiPending, .wait] s.advanced u) ∧
    (s.nowInputs.reset = false → s.wait ≠ .cwaiWaiting → s.nmiDue = false → s.firqDue = true →
      ∃ t u, step s = .next t ∧ exec .rti t = .next u ∧ u.cc = { s.cc with e := false } ∧
        Keeps [.cc, .wait] s.advanced u) ∧
    (s.nowInputs.reset = false → s.wait ≠ .cwaiWaiting → s.nmiDue = false → s.firqDue = false → s.irqDue = true →
      ∃ t u, step s = .next t ∧ exec .rti t = .next u ∧ u.cc = { s.cc with e := true } ∧
        Keeps [.cc, .wait] s.advanced u) ∧
    (∀ i : Instr, isSoftwareInterrupt i = true →
      ∃ t u, exec i s = .next t ∧ exec .rti t = .next u ∧ u.cc = { s.cc with e := true } ∧ Keeps [.cc] s u) ∧
    (∀ (m : Byte) (cc : CC), cc = { CC.ofByte (s.cc.toByte &&& m) with e := true } → ∃ t, exec (.cwai m) s = .next t ∧
      (s.nowInputs.reset = false →
        s.nmiDue = true ∨ (s.nowInputs.firq = true ∧ cc.f = false) ∨ (s.nowInputs.irq = true ∧ cc.i = false) →
        ∃ v u, step t = .next v ∧ exec .rti v = .next u ∧ u.cc = cc ∧ u.wait = .running ∧
          Keeps [.cc, .nmiPending, .wait] s.advanced u))

/-- The invariant is kept by every step of the machine, from every state. Its canonical form of memory is the model's
(log 3). -/
def Obligations.InvariantKept : Prop := ∀ s t : State, s.Inv → step s = .next t → t.Inv

/-- The machine right after reset has the invariant; that its memory is empty is the model's choice (log 3). -/
def Obligations.InvariantAtReset : Prop := State.reset.Inv

/-! ## Registers -/

/-- D is A : B (10 R21): read as one word it has A in bits 15 to 8, a write of D writes both, and a write of A or of B
changes that half of D. CC as a byte has E, F, H, I, N, Z, V, C in bits 7 to 0, and what is written is read back
(10 R27). -/
def Obligations.RegisterLayouts : Prop :=
  (∀ s : State, s.d.toNat = s.a.toNat * 256 + s.b.toNat) ∧
  (∀ (s : State) (v : Word), (s.setD v).a.toNat = v.toNat / 256 ∧ (s.setD v).b.toNat = v.toNat % 256) ∧
  (∀ (s : State) (v : Byte), (s.setA v).d.toNat = v.toNat * 256 + s.d.toNat % 256) ∧
  (∀ (s : State) (v : Byte), (s.setB v).d.toNat = s.d.toNat / 256 * 256 + v.toNat) ∧
  (∀ cc : CC, cc.toByte.toNat = 128 * cc.e.toNat + 64 * cc.f.toNat + 32 * cc.h.toNat + 16 * cc.i.toNat +
    8 * cc.n.toNat + 4 * cc.z.toNat + 2 * cc.v.toNat + cc.c.toNat) ∧
  (∀ cc : CC, CC.ofByte cc.toByte = cc) ∧ ∀ w : Byte, (CC.ofByte w).toByte = w

/-- EXG and TFR of two registers of one width: EXG leaves each with the other's old value, TFR leaves the second with the
first's; a write of S arms the NMI if the kind of instruction is in NMI_ARM_SET, an opaque parameter (log 7); no flag changes
unless CC is written. On two widths, which no byte string decodes to, both stop with the illegal instruction fault, the
model's choice (log 14). -/
def Obligations.ExchangeAndTransfer : Prop :=
  ∀ (s : State) (r1 r2 : Reg),
    (r1.wide = r2.wide →
      (∃ t, exec (.exg r1 r2) s = .next t ∧ t.readReg r1 = s.readReg r2 ∧ t.readReg r2 = s.readReg r1 ∧
        t.nmiArmed = (s.nmiArmed || (decide (r1 = .s ∨ r2 = .s) && inArmSet .exg)) ∧
        Keeps (.nmiArmed :: (regFields r1 ++ regFields r2)) s t ∧ KeepsMemory s t) ∧
      (∃ t, exec (.tfr r1 r2) s = .next t ∧ t.readReg r2 = s.readReg r1 ∧
        t.nmiArmed = (s.nmiArmed || (decide (r2 = .s) && inArmSet .tfr)) ∧
        Keeps (.nmiArmed :: regFields r2) s t ∧ KeepsMemory s t)) ∧
    (r1.wide ≠ r2.wide →
      exec (.exg r1 r2) s = .fault (.illegalInstruction (s.pc - 2) .registerPair [0x1E, pairByte r1 r2]) ∧
      exec (.tfr r1 r2) s = .fault (.illegalInstruction (s.pc - 2) .registerPair [0x1F, pairByte r1 r2]))

/-! ## Memory and operands -/

/-- What an address holds is the platform's (20 R52, R54, R59): RAM and ROM return their content and nothing else happens; a
device register or an unpopulated address returns what the environment chooses, which sees the read. A write is taken by
RAM, delivered to a device, and ignored by ROM and unpopulated addresses. The kinds as a list of regions are the model's
choice (log 4), and so are the answer as a free value of the accesses so far and their record (log 5). -/
def Obligations.AccessByKind : Prop :=
  ∀ (s : State) (a : Word) (v : Byte),
    (s.isMemory a = true → s.read8 a = (s.mem.read a.toNat, s)) ∧
    (s.isMemory a = false → s.read8 a = (Config.environment s.bus a, s.setBus (.read a :: s.bus))) ∧
    (s.kind a = .ram → Stored s (s.write8 a v) a [v] ∧ (s.write8 a v).bus = s.bus) ∧
    (s.kind a = .device → s.write8 a v = s.setBus (.write a v :: s.bus)) ∧
    (s.kind a = .rom ∨ s.kind a = .unpopulated → s.write8 a v = s)

/-- Two-byte accesses (20 R53, R54): the byte at the lower address first and it is the more significant one, the second
address is one higher modulo 2^16; a push writes the low byte first, at the higher address. Over RAM a word reads back as
written, and each half reads as that half (20 R56). -/
def Obligations.WordAccess : Prop :=
  (∀ (s : State) (a : Word), s.read16 a =
    (joinBytes (s.read8 a).1 ((s.read8 a).2.read8 (a + 1)).1, ((s.read8 a).2.read8 (a + 1)).2)) ∧
  (∀ (s : State) (a v : Word), s.write16 a v = (s.write8 a (hiByte v)).write8 (a + 1) (loByte v)) ∧
  (∀ (s : State) (k : Stack) (v : Word), s.push16 k v = (s.push8 k (loByte v)).push8 k (hiByte v)) ∧
  (∀ (s : State) (a v : Word), Stored s (s.write16 a v) a [hiByte v, loByte v]) ∧
  ∀ (s : State) (a v : Word), s.kind a = .ram → s.kind (a + 1) = .ram →
    ((s.write16 a v).read16 a).1 = v ∧ ((s.write16 a v).read8 a).1.toNat = v.toNat / 256 ∧
    ((s.write16 a v).read8 (a + 1)).1.toNat = v.toNat % 256

/-- The effective address of every mode (30 R86 to R105): DP and the byte; the word; base plus signed offset modulo 2^16,
with the base before a post-increment and after a pre-decrement; and, for an indirect mode, the word that a pointer read
there returns, after the base register has been updated. -/
def Obligations.EffectiveAddresses : Prop :=
  ∀ s : State,
    (∀ lo : Byte, (s.ea (.dir lo)).1.toNat = s.dp.toNat * 256 + lo.toNat) ∧
    (∀ a : Word, (s.ea (.ext a)).1 = a) ∧
    (∀ m : Indexed, m.indirect = false → (s.ea (.idx m)).1 = BitVec.ofInt 16 (s.indexedAddress m)) ∧
    (∀ m : Indexed, m.indirect = true → (s.ea (.idx m)).1 =
      ((s.updated (indexedUpdate m)).read16 (BitVec.ofInt 16 (s.indexedAddress m))).1)

/-- The value of an operand (30 R112): the immediate itself, or the byte or big-endian word at the effective address where
that is RAM or ROM. Reaching an operand writes back the base register of an auto mode and nothing else: no other register,
no flag, no byte of memory, no free draw; an address that involves no pointer is computed without any access
(30 R89 to R106). -/
def Obligations.OperandAccess : Prop :=
  ∀ s : State,
    (∀ v : Byte, s.operand8 (.imm v) = (v, s)) ∧ (∀ v : Word, s.operand16 (.imm v) = (v, s)) ∧
    (∀ e : Ea, s.isMemory (s.ea e).1 = true → (s.operand8 (.mem e)).1 = s.mem.read (s.ea e).1.toNat) ∧
    (∀ e : Ea, s.isMemory (s.ea e).1 = true → s.isMemory ((s.ea e).1 + 1) = true →
      (s.operand16 (.mem e)).1 = joinBytes (s.mem.read (s.ea e).1.toNat) (s.mem.read ((s.ea e).1 + 1).toNat)) ∧
    (∀ e : Ea, Keeps [] (s.updated (eaUpdate e)) (s.ea e).2 ∧ (s.ea e).2.mem = s.mem ∧ (s.ea e).2.draws = s.draws) ∧
    (∀ lo : Byte, (s.ea (.dir lo)).2 = s) ∧ (∀ a : Word, (s.ea (.ext a)).2 = s) ∧
    (∀ m : Indexed, m.indirect = false → (s.ea (.idx m)).2 = s.updated (indexedUpdate m)) ∧
    (∀ o : Src8, Keeps [] (s.updated (src8Update o)) (s.operand8 o).2 ∧ (s.operand8 o).2.mem = s.mem ∧
      (s.operand8 o).2.draws = s.draws) ∧
    (∀ o : Src16, Keeps [] (s.updated (src16Update o)) (s.operand16 o).2 ∧ (s.operand16 o).2.mem = s.mem ∧
      (s.operand16 o).2.draws = s.draws)

/-- The order of effects in an indexed instruction (30 R106): LDX ,X++ ends with the loaded word, LEAX ,X++ leaves X
alone, LEAX ,--X lowers it by 2, STX ,X++ stores the incremented X at the old address (the spec's decision D23), LDA ,S+
is an 8-bit pull. -/
def Obligations.OrderOfEffects : Prop :=
  ∀ s : State,
    (∃ t, exec (.ldx (.mem (.idx (.postInc2 .x false)))) s = .next t ∧ t.x = (s.read16 s.x).1) ∧
    (∃ t, exec (.leax (.postInc2 .x false)) s = .next t ∧ t.x = s.x) ∧
    (∃ t, exec (.leax (.preDec2 .x false)) s = .next t ∧ t.x = s.x - 2) ∧
    (∃ t, exec (.stx (.idx (.postInc2 .x false))) s = .next t ∧ t.x = s.x + 2 ∧
      Stored s t s.x [hiByte (s.x + 2), loByte (s.x + 2)]) ∧
    (∃ t, exec (.lda (.mem (.idx (.postInc1 .s)))) s = .next t ∧ t.a = (s.pull8 .hardware).1 ∧
      t.s = (s.pull8 .hardware).2.s)

/-- The accesses of every instruction are those of 20 R60 and no others, in that order, whatever stands at the addresses:
each instruction byte is read once, in ascending order; every instruction that decodes runs and leaves the record of the
environment's accesses as its data accesses do, the pointer of an indirect mode first. A load, an arithmetic or logical
instruction, a compare, BIT and TST read the operand once; a store writes and does not read; a read-modify-write
instruction reads once, then writes once; JMP, JSR and the LEA instructions do not access the operand; pushes, pulls,
calls, returns, software interrupts and CWAI access the stack and then the vector; every other instruction accesses
nothing. The last clause spells eleven instructions out on device registers, newest access first. The exact accesses,
CLR's read among them and no dead cycles, are the spec's decision D24 (log 13, log 19), and the record and what it answers
are the model's (log 5). -/
def Obligations.AccessesInOrder : Prop :=
  (∀ (s : State) (n : Nat), (State.fetchBytes n s).1 = (State.readBytes n s.pc s).1 ∧
    (State.fetchBytes n s).2.bus = (State.readBytes n s.pc s).2.bus) ∧
  (∀ (s : State) (i : Instr), i.wellFormed = true → ∃ t, exec i s = .next t ∧ t.bus = (s.dataAccesses i).bus) ∧
  ∀ (s : State) (a : Word), s.kind a = .device → s.kind (a + 1) = .device →
    (∃ t, exec (.lda (.mem (.ext a))) s = .next t ∧ t.bus = .read a :: s.bus) ∧
    (∃ t, exec (.cmpb (.mem (.ext a))) s = .next t ∧ t.bus = .read a :: s.bus) ∧
    (∃ t, exec (.tst (.ext a)) s = .next t ∧ t.bus = .read a :: s.bus) ∧
    (∃ t, exec (.sta (.ext a)) s = .next t ∧ t.bus = .write a s.a :: s.bus) ∧
    (∃ t, exec (.clr (.ext a)) s = .next t ∧ t.bus = .write a 0x00 :: .read a :: s.bus) ∧
    (∃ t, exec (.inc (.ext a)) s = .next t ∧
      t.bus = .write a (Config.environment s.bus a + 1) :: .read a :: s.bus) ∧
    (∃ t, exec (.jmp (.ext a)) s = .next t ∧ t.bus = s.bus) ∧
    (∃ t, exec (.leax (.extIndirect a)) s = .next t ∧ t.bus = .read (a + 1) :: .read a :: s.bus) ∧
    (∃ t, exec (.ldd (.mem (.ext a))) s = .next t ∧ t.bus = .read (a + 1) :: .read a :: s.bus) ∧
    (∃ t, exec (.std (.ext a)) s = .next t ∧ t.bus = .write (a + 1) s.b :: .write a s.a :: s.bus) ∧
    (s.s = a + 2 → ∃ t, exec (.jsr (.ext 0x0000)) s = .next t ∧
      t.bus = .write a (hiByte s.pc) :: .write (a + 1) (loByte s.pc) :: s.bus)

/-- The accesses of the interrupt entries and of the reset sequence, in order (20 R60 (h), 60 R402, R410 to R412, 70 R450):
the entries write the frame downward, PC's low byte first and CC last, unless CWAI has stacked it, and then read the
vector, high byte first; reset reads its vector and accesses nothing else. That these are the only accesses is the spec's
decision D24 (log 13, log 19), and their record is the model's (log 5). -/
def Obligations.EntryAccessesInOrder : Prop :=
  ∀ s : State,
    (s.nowInputs.reset = true → ∃ t, step s = .next t ∧ t.bus = (s.read16 0xFFFE).2.bus) ∧
    (s.nowInputs.reset = false → s.nmiDue = true → ∃ t, step s = .next t ∧
      t.bus = (s.entryAccesses allRegisters { s.cc with e := true } 0xFFFC).bus) ∧
    (s.nowInputs.reset = false → s.nmiDue = false → s.firqDue = true → ∃ t, step s = .next t ∧
      t.bus = (s.entryAccesses pcAndCC { s.cc with e := false } 0xFFF6).bus) ∧
    (s.nowInputs.reset = false → s.nmiDue = false → s.firqDue = false → s.irqDue = true → ∃ t, step s = .next t ∧
      t.bus = (s.entryAccesses allRegisters { s.cc with e := true } 0xFFF8).bus)

/-! ## TABLE 4 -/

/-- The helpers of the 8-bit instructions compute what the numbers say (40 R140, R141, R142): the sum and the difference
modulo 2^8, C and H as carry and borrow, V as the signed result leaving -128..127; `Logic8` writes N, Z and V only. -/
def Obligations.ByteArithmetic : Prop :=
  (∀ (a m : Byte) (cin : Bool) (cc : CC), add8 a m cin cc = (sum8 a m cin.toNat, cc.ofSum8 a m cin.toNat) ∧
    (add8 a m cin cc).2.h = (a ^^^ m ^^^ (add8 a m cin cc).1).getLsbD 4 ∧
    (add8 a m cin cc).2.v = ((a ^^^ (add8 a m cin cc).1) &&& (m ^^^ (add8 a m cin cc).1)).getLsbD 7) ∧
  (∀ (a m : Byte) (bin h : Bool) (cc : CC),
    sub8 a m bin h cc = (difference8 a m bin.toNat, cc.ofDifference8 a m bin.toNat h) ∧
    (sub8 a m bin h cc).2.v = ((a ^^^ m) &&& (a ^^^ (sub8 a m bin h cc).1)).getLsbD 7) ∧
  ∀ (r : Byte) (cc : CC), logic8 r cc = cc.ofByteResult r false

/-- ADDA, ADDB, ADCA, ADCB: the accumulator plus the operand, plus C for ADC, with H, N, Z, V, C of that sum. -/
def Obligations.AddInstructions : Prop :=
  SetsAcc .adda .a (fun s m => sum8 s.a m 0) (fun s m cc => cc = s.cc.ofSum8 s.a m 0) ∧
  SetsAcc .addb .b (fun s m => sum8 s.b m 0) (fun s m cc => cc = s.cc.ofSum8 s.b m 0) ∧
  SetsAcc .adca .a (fun s m => sum8 s.a m s.cc.c.toNat) (fun s m cc => cc = s.cc.ofSum8 s.a m s.cc.c.toNat) ∧
  SetsAcc .adcb .b (fun s m => sum8 s.b m s.cc.c.toNat) (fun s m cc => cc = s.cc.ofSum8 s.b m s.cc.c.toNat)

/-- SUBA, SUBB, SBCA, SBCB and CMPA, CMPB: the accumulator less the operand, less C for SBC, with N, Z, V, C of that
difference and H undefined; the compares discard the difference. -/
def Obligations.SubtractInstructions : Prop :=
  SetsAcc .suba .a (fun s m => difference8 s.a m 0) (fun s m cc => ∃ h, cc = s.cc.ofDifference8 s.a m 0 h) ∧
  SetsAcc .subb .b (fun s m => difference8 s.b m 0) (fun s m cc => ∃ h, cc = s.cc.ofDifference8 s.b m 0 h) ∧
  SetsAcc .sbca .a (fun s m => difference8 s.a m s.cc.c.toNat)
    (fun s m cc => ∃ h, cc = s.cc.ofDifference8 s.a m s.cc.c.toNat h) ∧
  SetsAcc .sbcb .b (fun s m => difference8 s.b m s.cc.c.toNat)
    (fun s m cc => ∃ h, cc = s.cc.ofDifference8 s.b m s.cc.c.toNat h) ∧
  SetsFlags8 .cmpa (fun s m cc => ∃ h, cc = s.cc.ofDifference8 s.a m 0 h) ∧
  SetsFlags8 .cmpb (fun s m cc => ∃ h, cc = s.cc.ofDifference8 s.b m 0 h)

/-- ANDA, ANDB, EORA, EORB, ORA, ORB and BITA, BITB: bit by bit, N and Z of the result, V cleared, H and C untouched; BIT
discards the result. -/
def Obligations.LogicInstructions : Prop :=
  SetsAcc .anda .a (fun s m => s.a &&& m) (fun s m cc => cc = s.cc.ofByteResult (s.a &&& m) false) ∧
  SetsAcc .andb .b (fun s m => s.b &&& m) (fun s m cc => cc = s.cc.ofByteResult (s.b &&& m) false) ∧
  SetsAcc .eora .a (fun s m => s.a ^^^ m) (fun s m cc => cc = s.cc.ofByteResult (s.a ^^^ m) false) ∧
  SetsAcc .eorb .b (fun s m => s.b ^^^ m) (fun s m cc => cc = s.cc.ofByteResult (s.b ^^^ m) false) ∧
  SetsAcc .ora .a (fun s m => s.a ||| m) (fun s m cc => cc = s.cc.ofByteResult (s.a ||| m) false) ∧
  SetsAcc .orb .b (fun s m => s.b ||| m) (fun s m cc => cc = s.cc.ofByteResult (s.b ||| m) false) ∧
  SetsFlags8 .bita (fun s m cc => cc = s.cc.ofByteResult (s.a &&& m) false) ∧
  SetsFlags8 .bitb (fun s m cc => cc = s.cc.ofByteResult (s.b &&& m) false)

/-- LDA and LDB load the operand; TST, TSTA and TSTB only test theirs; N and Z of the byte, V cleared, H and C
untouched. -/
def Obligations.LoadAndTestByte : Prop :=
  SetsAcc .lda .a (fun _ m => m) (fun s m cc => cc = s.cc.ofByteResult m false) ∧
  SetsAcc .ldb .b (fun _ m => m) (fun s m cc => cc = s.cc.ofByteResult m false) ∧
  (∀ s : State, exec .tsta s = .next { s with cc := s.cc.ofByteResult s.a false }) ∧
  (∀ s : State, exec .tstb s = .next { s with cc := s.cc.ofByteResult s.b false }) ∧
  ∀ (s : State) (e : Ea), ∃ t, exec (.tst e) s = .next t ∧ t.cc = s.cc.ofByteResult (s.eaByte e) false ∧
    Keeps [.cc] (s.updated (eaUpdate e)) t ∧ KeepsMemory s t

/-- STA and STB store the accumulator at the effective address; N and Z of the byte, V cleared, H and C untouched; no other
byte of memory changes. -/
def Obligations.StoreByte : Prop :=
  ∀ (s : State) (e : Ea),
    (∃ t, exec (.sta e) s = .next t ∧ t.cc = s.cc.ofByteResult s.a false ∧ Stored s t (s.ea e).1 [s.a] ∧
      Keeps [.cc] (s.updated (eaUpdate e)) t) ∧
    (∃ t, exec (.stb e) s = .next t ∧ t.cc = s.cc.ofByteResult s.b false ∧ Stored s t (s.ea e).1 [s.b] ∧
      Keeps [.cc] (s.updated (eaUpdate e)) t)

/-- The single-operand instructions on A and B, in the arithmetic of numbers. -/
def Obligations.SingleOperandAccumulator : Prop :=
  MakesAcc .asla .a .asl ∧ MakesAcc .aslb .b .asl ∧ MakesAcc .asra .a .asr ∧ MakesAcc .asrb .b .asr ∧
  MakesAcc .lsra .a .lsr ∧ MakesAcc .lsrb .b .lsr ∧ MakesAcc .rola .a .rol ∧ MakesAcc .rolb .b .rol ∧
  MakesAcc .rora .a .ror ∧ MakesAcc .rorb .b .ror ∧ MakesAcc .nega .a .neg ∧ MakesAcc .negb .b .neg ∧
  MakesAcc .coma .a .com ∧ MakesAcc .comb .b .com ∧ MakesAcc .clra .a .clr ∧ MakesAcc .clrb .b .clr ∧
  MakesAcc .inca .a .inc ∧ MakesAcc .incb .b .inc ∧ MakesAcc .deca .a .dec ∧ MakesAcc .decb .b .dec

/-- The same functions on a memory byte, read once and written at the same address; no other byte changes (40 R143). -/
def Obligations.SingleOperandMemory : Prop :=
  MakesMem .asl .asl ∧ MakesMem .asr .asr ∧ MakesMem .lsr .lsr ∧ MakesMem .rol .rol ∧ MakesMem .ror .ror ∧
  MakesMem .neg .neg ∧ MakesMem .com .com ∧ MakesMem .clr .clr ∧ MakesMem .inc .inc ∧ MakesMem .dec .dec

/-- DAA: 6 is added if the low digit exceeds 9 or H is set, 0x60 if the high digit exceeds 9, C is set, or the high digit
exceeds 8 and the low one 9; C is only ever set, V is undefined, H is untouched. -/
def Obligations.DecimalAdjust : Prop :=
  ∀ (s : State) (low high : Nat),
    low = (if s.a.toNat % 16 > 9 ∨ s.cc.h = true then 6 else 0) →
    high = (if s.a.toNat / 16 > 9 ∨ s.cc.c = true ∨ (s.a.toNat / 16 > 8 ∧ s.a.toNat % 16 > 9) then 96 else 0) →
    ∃ v t, exec .daa s = .next t ∧ t.a.toNat = (s.a.toNat + low + high) % 256 ∧
      t.cc = { s.cc.ofByteResult t.a v with c := s.cc.c || decide (256 ≤ s.a.toNat + low + high) } ∧
      Keeps [.a, .cc] s t ∧ KeepsMemory s t

/-- DAA after ADDA or ADCA of two packed decimal bytes, the second an operand of any form, gives the packed decimal sum,
with C as the decimal carry (40 R144, R167). -/
def Obligations.DecimalAddition : Prop :=
  ∀ (s : State) (o : Src8) (m : Byte), m = (s.operand8 o).1 → isPackedDecimal s.a → isPackedDecimal m →
    (∃ t u, exec (.adda o) s = .next t ∧ exec .daa t = .next u ∧ isPackedDecimal u.a ∧
      packedValue u.a = (packedValue s.a + packedValue m) % 100 ∧
      u.cc.c = decide (100 ≤ packedValue s.a + packedValue m)) ∧
    (∃ t u, exec (.adca o) s = .next t ∧ exec .daa t = .next u ∧ isPackedDecimal u.a ∧
      packedValue u.a = (packedValue s.a + packedValue m + s.cc.c.toNat) % 100 ∧
      u.cc.c = decide (100 ≤ packedValue s.a + packedValue m + s.cc.c.toNat))

/-- MUL: D is the unsigned product of A and B, Z says that it is 0 and C is its bit 7. SEX: A is 0xFF or 0x00 as bit 7 of
B is, N and Z of the word, V untouched (the spec's decision D32). ABX: X plus the unsigned B modulo 2^16, no flag. -/
def Obligations.MultiplyExtendAbx : Prop :=
  ∀ s : State,
    (∃ t, exec .mul s = .next t ∧ t.d.toNat = s.a.toNat * s.b.toNat ∧
      t.cc = { s.cc with z := decide (s.a.toNat * s.b.toNat = 0), c := decide (s.a.toNat * s.b.toNat / 128 % 2 = 1) } ∧
      Keeps [.a, .b, .cc] s t ∧ KeepsMemory s t) ∧
    (∃ t, exec .sex s = .next t ∧ t.d.toInt = s.b.toInt ∧
      t.cc = { s.cc with n := decide (128 ≤ s.b.toNat), z := decide (s.b.toNat = 0) } ∧
      Keeps [.a, .cc] s t ∧ KeepsMemory s t) ∧
    (∃ t, exec .abx s = .next t ∧ t.x.toNat = (s.x.toNat + s.b.toNat) % 65536 ∧ Keeps [.x] s t ∧ KeepsMemory s t)

/-! ## TABLES 5 and 6 -/

/-- The helpers of the 16-bit instructions compute what the numbers say (42 R250, R251, R252); H is untouched. -/
def Obligations.WordArithmetic : Prop :=
  (∀ (a m : Word) (cc : CC), add16 a m cc = (sum16 a m, cc.ofSum16 a m)) ∧
  (∀ (a m : Word) (cc : CC), sub16 a m cc = (difference16 a m, cc.ofDifference16 a m)) ∧
  ∀ (r : Word) (cc : CC), logic16 r cc = cc.ofWordResult r false

/-- ADDD and SUBD: D plus or less the word, with N, Z, V, C of the result and H untouched. CMPD, CMPX, CMPY, CMPU, CMPS:
the flags of the difference, nothing else written. -/
def Obligations.WordArithmeticInstructions : Prop :=
  (∀ (s : State) (o : Src16),
    (∃ t, exec (.addd o) s = .next t ∧ t.d = sum16 s.d (s.operand16 o).1 ∧
      t.cc = s.cc.ofSum16 s.d (s.operand16 o).1 ∧
      Keeps [.a, .b, .cc] (s.updated (src16Update o)) t ∧ KeepsMemory s t) ∧
    (∃ t, exec (.subd o) s = .next t ∧ t.d = difference16 s.d (s.operand16 o).1 ∧
      t.cc = s.cc.ofDifference16 s.d (s.operand16 o).1 ∧
      Keeps [.a, .b, .cc] (s.updated (src16Update o)) t ∧ KeepsMemory s t)) ∧
  Compares16 .cmpd .d ∧ Compares16 .cmpx .x ∧ Compares16 .cmpy .y ∧ Compares16 .cmpu .u ∧ Compares16 .cmps .s

/-- LDD, LDX, LDY, LDU, LDS: the register holds the word, N and Z of it, V cleared, H and C untouched; LDS arms the NMI. -/
def Obligations.LoadWord : Prop :=
  Loads16 .ldd .d (fun s => s.nmiArmed) ∧ Loads16 .ldx .x (fun s => s.nmiArmed) ∧
  Loads16 .ldy .y (fun s => s.nmiArmed) ∧ Loads16 .ldu .u (fun s => s.nmiArmed) ∧ Loads16 .lds .s (fun _ => true)

/-- STD, STX, STY, STU, STS: the register's two bytes at the effective address, high byte at the lower address, no other
byte changed; N and Z of the word, V cleared, H and C untouched. A stored base register of an auto mode is stored as the
mode leaves it: the spec's decision D23 (30 R106, 43 R288; log 13). -/
def Obligations.StoreWord : Prop :=
  Stores16 .std .d ∧ Stores16 .stx .x ∧ Stores16 .sty .y ∧ Stores16 .stu .u ∧ Stores16 .sts .s

/-- LEAX and LEAY: the effective address in the register, Z says that it is 0, no other flag. LEAU and LEAS: the effective
address in the register, no flag; LEAS arms the NMI if its kind is in NMI_ARM_SET, an opaque parameter (log 7). -/
def Obligations.LoadEffectiveAddress : Prop :=
  ∀ (s : State) (m : Indexed),
    (∃ t, exec (.leax m) s = .next t ∧ t.x = (s.eaIndexed m).1 ∧
      t.cc = { s.cc with z := decide ((s.eaIndexed m).1.toNat = 0) } ∧
      Keeps [.x, .cc] (s.updated (indexedUpdate m)) t ∧ KeepsMemory s t) ∧
    (∃ t, exec (.leay m) s = .next t ∧ t.y = (s.eaIndexed m).1 ∧
      t.cc = { s.cc with z := decide ((s.eaIndexed m).1.toNat = 0) } ∧
      Keeps [.y, .cc] (s.updated (indexedUpdate m)) t ∧ KeepsMemory s t) ∧
    (∃ t, exec (.leau m) s = .next t ∧ t.u = (s.eaIndexed m).1 ∧
      Keeps [.u] (s.updated (indexedUpdate m)) t ∧ KeepsMemory s t) ∧
    (∃ t, exec (.leas m) s = .next t ∧ t.s = (s.eaIndexed m).1 ∧ t.nmiArmed = (s.nmiArmed || inArmSet .leas) ∧
      Keeps [.s, .nmiArmed] (s.updated (indexedUpdate m)) t ∧ KeepsMemory s t)

/-- PSHS and PSHU: the registers of the list stand upward from the new stack pointer as CC, A, B, DP, X, Y, the other stack
pointer, PC, the stack pointer is lower by their bytes, and nothing else changes (43 R268). -/
def Obligations.PushRegisters : Prop :=
  ∀ (s : State) (l : RegList),
    (∃ t, exec (.pshs l) s = .next t ∧ t.s = s.s - BitVec.ofNat 16 (listSize l) ∧
      Stored s t (s.s - BitVec.ofNat 16 (listSize l)) (s.frame .hardware l) ∧ Keeps [.s] s t) ∧
    (∃ t, exec (.pshu l) s = .next t ∧ t.u = s.u - BitVec.ofNat 16 (listSize l) ∧
      Stored s t (s.u - BitVec.ofNat 16 (listSize l)) (s.frame .user l) ∧ Keeps [.u] s t)

/-- PULS and PULU: the bytes read upward from the stack pointer are the frame of the registers pulled, in the layout of a
push; the stack pointer is higher by their number; only the registers of the list change; PULU of S arms the NMI if its
kind is in NMI_ARM_SET, an opaque parameter (43 R268; log 7). That PULU pulls from the stack of U is the spec's decision D21 (43 R285; log 13). -/
def Obligations.PullRegisters : Prop :=
  ∀ (s : State) (l : RegList),
    (∃ t, exec (.puls l) s = .next t ∧ t.frame .hardware l = (State.readBytes (listSize l) s.s s).1 ∧
      t.s = s.s + BitVec.ofNat 16 (listSize l) ∧ Keeps (listFields .hardware l) s t ∧ KeepsMemory s t) ∧
    (∃ t, exec (.pulu l) s = .next t ∧ t.frame .user l = (State.readBytes (listSize l) s.u s).1 ∧
      t.u = s.u + BitVec.ofNat 16 (listSize l) ∧ t.nmiArmed = (s.nmiArmed || (l.other && inArmSet .pulu)) ∧
      Keeps (.nmiArmed :: listFields .user l) s t ∧ KeepsMemory s t)

/-- A pull of the list that was just pushed, over RAM, gives back every register, the stack pointer and PC included; of
PULU after PSHU because PULU pulls from the stack of U, the spec's decision D21 (43 R285; log 13). -/
def Obligations.PullUndoesPush : Prop :=
  ∀ (s : State) (l : RegList),
    ((∀ j, j < listSize l → s.kind (s.s - BitVec.ofNat 16 (listSize l) + BitVec.ofNat 16 j) = .ram) →
      ∃ t u, exec (.pshs l) s = .next t ∧ exec (.puls l) t = .next u ∧ Keeps [] s u) ∧
    ((∀ j, j < listSize l → s.kind (s.u - BitVec.ofNat 16 (listSize l) + BitVec.ofNat 16 j) = .ram) →
      ∃ t u, exec (.pshu l) s = .next t ∧ exec (.pulu l) t = .next u ∧ Keeps [.nmiArmed] s u)

/-! ## TABLES 7 and 8 -/

/-- Every branch, short and long, with its condition (44 R310, R311): the target is `pc_next` plus the signed offset modulo
2^16, and nothing but PC changes, which stays `pc_next` where the branch is not taken. -/
def Obligations.BranchInstructions : Prop :=
  (Branches Instr.bra (fun _ => True) ∧ Branches Instr.lbra (fun _ => True)) ∧
  (Branches Instr.brn (fun _ => False) ∧ Branches Instr.lbrn (fun _ => False)) ∧
  (Branches Instr.bhi (fun cc => cc.c = false ∧ cc.z = false) ∧
    Branches Instr.lbhi (fun cc => cc.c = false ∧ cc.z = false)) ∧
  (Branches Instr.bls (fun cc => cc.c = true ∨ cc.z = true) ∧
    Branches Instr.lbls (fun cc => cc.c = true ∨ cc.z = true)) ∧
  (Branches Instr.bcc (fun cc => cc.c = false) ∧ Branches Instr.lbcc (fun cc => cc.c = false)) ∧
  (Branches Instr.bcs (fun cc => cc.c = true) ∧ Branches Instr.lbcs (fun cc => cc.c = true)) ∧
  (Branches Instr.bne (fun cc => cc.z = false) ∧ Branches Instr.lbne (fun cc => cc.z = false)) ∧
  (Branches Instr.beq (fun cc => cc.z = true) ∧ Branches Instr.lbeq (fun cc => cc.z = true)) ∧
  (Branches Instr.bvc (fun cc => cc.v = false) ∧ Branches Instr.lbvc (fun cc => cc.v = false)) ∧
  (Branches Instr.bvs (fun cc => cc.v = true) ∧ Branches Instr.lbvs (fun cc => cc.v = true)) ∧
  (Branches Instr.bpl (fun cc => cc.n = false) ∧ Branches Instr.lbpl (fun cc => cc.n = false)) ∧
  (Branches Instr.bmi (fun cc => cc.n = true) ∧ Branches Instr.lbmi (fun cc => cc.n = true)) ∧
  (Branches Instr.bge (fun cc => cc.n = cc.v) ∧ Branches Instr.lbge (fun cc => cc.n = cc.v)) ∧
  (Branches Instr.blt (fun cc => cc.n ≠ cc.v) ∧ Branches Instr.lblt (fun cc => cc.n ≠ cc.v)) ∧
  (Branches Instr.bgt (fun cc => cc.z = false ∧ cc.n = cc.v) ∧
    Branches Instr.lbgt (fun cc => cc.z = false ∧ cc.n = cc.v)) ∧
  (Branches Instr.ble (fun cc => cc.z = true ∨ cc.n ≠ cc.v) ∧
    Branches Instr.lble (fun cc => cc.z = true ∨ cc.n ≠ cc.v))

/-- After any of the seven compares, of any operand, every short and long branch decides the comparison its name says:
higher, lower or same, higher or same and lower of the unsigned readings, equal and not equal, greater, less or equal,
greater or equal and less of the signed ones (44 R311). -/
def Obligations.CompareThenBranch : Prop :=
  ComparesByte .cmpa .a ∧ ComparesByte .cmpb .b ∧ ComparesWord .cmpd .d ∧ ComparesWord .cmpx .x ∧
  ComparesWord .cmpy .y ∧ ComparesWord .cmpu .u ∧ ComparesWord .cmps .s

/-- BSR, LBSR and JSR stack the return address on the hardware stack, JSR after its address has been computed, and go to
their targets; RTS pulls PC; JMP goes to its address. No flag changes, and no register but PC, S and an auto mode's base
register. -/
def Obligations.CallsAndJumps : Prop :=
  (∀ (s : State) (off : Byte), ∃ t, exec (.bsr off) s = .next t ∧
    t.pc = BitVec.ofInt 16 (s.pc.toNat + off.toInt) ∧ t.s = s.s - 2 ∧
    Stored s t (s.s - 2) [hiByte s.pc, loByte s.pc] ∧ Keeps [.pc, .s] s t) ∧
  (∀ s : State, ∀ off : Word, ∃ t, exec (.lbsr off) s = .next t ∧
    t.pc = BitVec.ofInt 16 (s.pc.toNat + off.toInt) ∧ t.s = s.s - 2 ∧
    Stored s t (s.s - 2) [hiByte s.pc, loByte s.pc] ∧ Keeps [.pc, .s] s t) ∧
  (∀ (s v : State) (e : Ea), v = s.updated (eaUpdate e) → ∃ t, exec (.jsr e) s = .next t ∧
    t.pc = (s.ea e).1 ∧ t.s = v.s - 2 ∧ Stored s t (v.s - 2) [hiByte s.pc, loByte s.pc] ∧ Keeps [.pc, .s] v t) ∧
  (∀ (s : State) (e : Ea), ∃ t, exec (.jmp e) s = .next t ∧ t.pc = (s.ea e).1 ∧
    Keeps [.pc] (s.updated (eaUpdate e)) t ∧ KeepsMemory s t) ∧
  (∀ s : State, ∃ t, exec .rts s = .next t ∧ t.pc = (s.read16 s.s).1 ∧ t.s = s.s + 2 ∧
    Keeps [.pc, .s] s t ∧ KeepsMemory s t)

/-- ANDCC and ORCC combine CC with the mask, all eight bits, and change nothing else; NOP changes nothing; SYNC only puts
the processor to wait. -/
def Obligations.ConditionCodeNopSync : Prop :=
  ∀ s : State,
    (∀ m : Byte, ∃ t, exec (.andcc m) s = .next t ∧ t.cc.toByte = s.cc.toByte &&& m ∧ Keeps [.cc] s t ∧
      KeepsMemory s t) ∧
    (∀ m : Byte, ∃ t, exec (.orcc m) s = .next t ∧ t.cc.toByte = s.cc.toByte ||| m ∧ Keeps [.cc] s t ∧
      KeepsMemory s t) ∧
    exec .nop s = .next s ∧
    exec .sync s = .next { s with wait := .syncing }

/-! ## Which instructions change what -/

/-- DP is changed only by TFR, EXG, PULS, PULU and RTI; I and F only by those that write CC as a whole and by SWI; E only by
those and by the software interrupts; H only by those that write CC as a whole, the 8-bit additions and the instructions
that leave it undefined; PC only by the control transfers (10 R24, R25, R32 to R35, R38). -/
def Obligations.WritersOfRegisters : Prop :=
  ∀ (i : Instr) (s t : State), exec i s = .next t →
    (writesDp i = false → t.dp = s.dp) ∧
    (writesCC i = false → i ≠ .swi → t.cc.i = s.cc.i ∧ t.cc.f = s.cc.f) ∧
    (writesCC i = false → isSoftwareInterrupt i = false → t.cc.e = s.cc.e) ∧
    (writesCC i = false → writesH i = false → t.cc.h = s.cc.h) ∧
    (writesPc i = false → t.pc = s.pc)

/-- The hidden state: an instruction never unarms NMI and arms it exactly by the writes of S in NMI_ARM_SET, never touches
the pending request, and waits only after SYNC and CWAI (10 R40, 60 R405, R425). The set is the spec's parameter and always
holds LDS (its decision D18); that its other candidates are LEAS, TFR, EXG and PULU of S, each as an opaque parameter says,
is the model's choice (log 7). That no instruction changes the platform's regions or the inputs is the model's choice too (log 4,
log 8). -/
def Obligations.WritersOfHiddenState : Prop :=
  ∀ (i : Instr) (s t : State), exec i s = .next t →
    t.nmiArmed = (s.nmiArmed || armsNmiGate i) ∧ t.nmiPending = s.nmiPending ∧ t.wait = waitAfter s.wait i ∧
    t.platform = s.platform ∧ t.inputs = s.inputs

/-- Memory is changed only by stores, read-modify-write instructions, pushes, calls, software interrupts and CWAI, and what
is neither RAM nor theirs to write is changed by none (20 R59, R60). -/
def Obligations.WritersOfMemory : Prop :=
  ∀ (i : Instr) (s t : State), exec i s = .next t →
    (writesMemory i = false → t.mem = s.mem) ∧
    ∀ w : Word, s.kind w ≠ .ram → t.mem.read w.toNat = s.mem.read w.toNat
end

