-- ==== Sys2Proof/Laws/Memory.lean ====
section
/-! SUPPORT. What the memory list does: reading after a write, and the canonical form kept. -/

namespace Sys2Proof.Machine

theorem Memory.read_erase (m : Memory) (a b : Nat) :
    (m.erase a).read b = if b = a then Memory.unlisted else m.read b := by
  induction m with
  | nil => simp [Memory.erase, Memory.read]
  | cons p rest ih =>
    obtain ⟨k, v⟩ := p
    by_cases hak : a = k
    · subst hak
      rw [Memory.erase, if_pos rfl, ih]
      by_cases hb : b = a <;> simp [Memory.read, hb]
    · rw [Memory.erase, if_neg hak, Memory.read, Memory.read, ih]
      by_cases hbk : b = k
      · subst hbk; rw [if_pos rfl, if_neg (Ne.symm hak), if_pos rfl]
      · rw [if_neg hbk, if_neg hbk]

theorem Memory.read_insert (m : Memory) (a b : Nat) (v : Byte) :
    (m.insert a v).read b = if b = a then v else m.read b := by
  induction m with
  | nil => simp [Memory.insert, Memory.read]
  | cons p rest ih =>
    obtain ⟨k, w⟩ := p
    by_cases h1 : a < k
    · simp [Memory.insert, Memory.read, h1]
    · by_cases h2 : a = k
      · subst h2
        by_cases hb : b = a <;> simp [Memory.insert, Memory.read, hb]
      · rw [Memory.insert, if_neg h1, if_neg h2, Memory.read, Memory.read, ih]
        by_cases hbk : b = k
        · subst hbk; rw [if_pos rfl, if_neg (Ne.symm h2), if_pos rfl]
        · rw [if_neg hbk, if_neg hbk]

/-- A byte reads as what was written to it last, and a write leaves every other byte alone (20 R63 (a)). -/
theorem Memory.read_write (m : Memory) (a b : Nat) (v : Byte) :
    (m.write a v).read b = if b = a then v else m.read b := by
  unfold Memory.write
  split
  · next h => rw [Memory.read_erase, h]
  · exact Memory.read_insert m a b v

@[simp] theorem Memory.read_write_same (m : Memory) (a : Nat) (v : Byte) : (m.write a v).read a = v := by
  simp [Memory.read_write]

theorem Memory.read_write_ne (m : Memory) (a b : Nat) (v : Byte) (h : b ≠ a) : (m.write a v).read b = m.read b := by
  simp [Memory.read_write, h]

theorem Memory.wfAbove_mono {m : Memory} {lo lo' : Nat} (h : m.wfAbove lo = true) (hl : lo' ≤ lo) :
    m.wfAbove lo' = true := by
  cases m with
  | nil => rfl
  | cons p rest =>
    simp only [Memory.wfAbove, Bool.and_eq_true, decide_eq_true_eq] at h ⊢
    exact ⟨⟨⟨by omega, h.1.1.2⟩, h.1.2⟩, h.2⟩

theorem Memory.wfAbove_erase {m : Memory} {lo : Nat} (a : Nat) (h : m.wfAbove lo = true) :
    (m.erase a).wfAbove lo = true := by
  induction m generalizing lo with
  | nil => rfl
  | cons p rest ih =>
    obtain ⟨k, v⟩ := p
    simp only [Memory.wfAbove, Bool.and_eq_true, decide_eq_true_eq] at h
    unfold Memory.erase
    split
    · exact Memory.wfAbove_mono (ih h.2) (by omega)
    · simp only [Memory.wfAbove, Bool.and_eq_true, decide_eq_true_eq]
      exact ⟨h.1, ih h.2⟩

theorem Memory.wfAbove_insert {m : Memory} {lo a : Nat} {v : Byte} (hv : v ≠ Memory.unlisted) (hlo : lo ≤ a)
    (ha : a < 65536) (h : m.wfAbove lo = true) : (m.insert a v).wfAbove lo = true := by
  induction m generalizing lo with
  | nil => simp [Memory.insert, Memory.wfAbove, hlo, ha, hv]
  | cons p rest ih =>
    obtain ⟨k, w⟩ := p
    simp only [Memory.wfAbove, Bool.and_eq_true, decide_eq_true_eq, bne_iff_ne] at h
    unfold Memory.insert
    split
    · next hk =>
      simp only [Memory.wfAbove, Bool.and_eq_true, decide_eq_true_eq, bne_iff_ne]
      exact ⟨⟨⟨hlo, ha⟩, hv⟩, ⟨⟨by omega, h.1.1.2⟩, h.1.2⟩, h.2⟩
    · split
      · next hk =>
        subst hk
        simp only [Memory.wfAbove, Bool.and_eq_true, decide_eq_true_eq, bne_iff_ne]
        exact ⟨⟨⟨hlo, ha⟩, hv⟩, h.2⟩
      · simp only [Memory.wfAbove, Bool.and_eq_true, decide_eq_true_eq, bne_iff_ne]
        exact ⟨h.1, ih (by omega) h.2⟩

/-- A write keeps the canonical form. -/
theorem Memory.wf_write {m : Memory} (a : Word) (v : Byte) (h : m.wf = true) : (m.write a.toNat v).wf = true := by
  unfold Memory.write
  split
  · exact Memory.wfAbove_erase _ h
  · next hv => exact Memory.wfAbove_insert hv (Nat.zero_le _) (by exact a.isLt) h

/-- The memory after reset is in canonical form. -/
theorem State.reset_mem_wf : State.reset.mem.wf = true := rfl

end Sys2Proof.Machine
end

