-- ==== Sys2Proof/Laws/State.lean ====
section
/-! SUPPORT. One lemma per field per register write, so that no later proof unfolds a record update; and the same for the
composite writes (accumulator, D, index register, stack pointer). -/

namespace Sys2Proof.Machine

variable (st : State)

@[simp] theorem State.setA_a (v : Byte) : (st.setA v).a = v := rfl
@[simp] theorem State.setA_b (v : Byte) : (st.setA v).b = st.b := rfl
@[simp] theorem State.setA_dp (v : Byte) : (st.setA v).dp = st.dp := rfl
@[simp] theorem State.setA_cc (v : Byte) : (st.setA v).cc = st.cc := rfl
@[simp] theorem State.setA_x (v : Byte) : (st.setA v).x = st.x := rfl
@[simp] theorem State.setA_y (v : Byte) : (st.setA v).y = st.y := rfl
@[simp] theorem State.setA_u (v : Byte) : (st.setA v).u = st.u := rfl
@[simp] theorem State.setA_s (v : Byte) : (st.setA v).s = st.s := rfl
@[simp] theorem State.setA_pc (v : Byte) : (st.setA v).pc = st.pc := rfl
@[simp] theorem State.setA_nmiArmed (v : Byte) : (st.setA v).nmiArmed = st.nmiArmed := rfl
@[simp] theorem State.setA_nmiPending (v : Byte) : (st.setA v).nmiPending = st.nmiPending := rfl
@[simp] theorem State.setA_wait (v : Byte) : (st.setA v).wait = st.wait := rfl
@[simp] theorem State.setA_mem (v : Byte) : (st.setA v).mem = st.mem := rfl
@[simp] theorem State.setA_platform (v : Byte) : (st.setA v).platform = st.platform := rfl
@[simp] theorem State.setA_inputs (v : Byte) : (st.setA v).inputs = st.inputs := rfl
@[simp] theorem State.setA_bus (v : Byte) : (st.setA v).bus = st.bus := rfl
@[simp] theorem State.setA_draws (v : Byte) : (st.setA v).draws = st.draws := rfl

@[simp] theorem State.setB_a (v : Byte) : (st.setB v).a = st.a := rfl
@[simp] theorem State.setB_b (v : Byte) : (st.setB v).b = v := rfl
@[simp] theorem State.setB_dp (v : Byte) : (st.setB v).dp = st.dp := rfl
@[simp] theorem State.setB_cc (v : Byte) : (st.setB v).cc = st.cc := rfl
@[simp] theorem State.setB_x (v : Byte) : (st.setB v).x = st.x := rfl
@[simp] theorem State.setB_y (v : Byte) : (st.setB v).y = st.y := rfl
@[simp] theorem State.setB_u (v : Byte) : (st.setB v).u = st.u := rfl
@[simp] theorem State.setB_s (v : Byte) : (st.setB v).s = st.s := rfl
@[simp] theorem State.setB_pc (v : Byte) : (st.setB v).pc = st.pc := rfl
@[simp] theorem State.setB_nmiArmed (v : Byte) : (st.setB v).nmiArmed = st.nmiArmed := rfl
@[simp] theorem State.setB_nmiPending (v : Byte) : (st.setB v).nmiPending = st.nmiPending := rfl
@[simp] theorem State.setB_wait (v : Byte) : (st.setB v).wait = st.wait := rfl
@[simp] theorem State.setB_mem (v : Byte) : (st.setB v).mem = st.mem := rfl
@[simp] theorem State.setB_platform (v : Byte) : (st.setB v).platform = st.platform := rfl
@[simp] theorem State.setB_inputs (v : Byte) : (st.setB v).inputs = st.inputs := rfl
@[simp] theorem State.setB_bus (v : Byte) : (st.setB v).bus = st.bus := rfl
@[simp] theorem State.setB_draws (v : Byte) : (st.setB v).draws = st.draws := rfl

@[simp] theorem State.setDp_a (v : Byte) : (st.setDp v).a = st.a := rfl
@[simp] theorem State.setDp_b (v : Byte) : (st.setDp v).b = st.b := rfl
@[simp] theorem State.setDp_dp (v : Byte) : (st.setDp v).dp = v := rfl
@[simp] theorem State.setDp_cc (v : Byte) : (st.setDp v).cc = st.cc := rfl
@[simp] theorem State.setDp_x (v : Byte) : (st.setDp v).x = st.x := rfl
@[simp] theorem State.setDp_y (v : Byte) : (st.setDp v).y = st.y := rfl
@[simp] theorem State.setDp_u (v : Byte) : (st.setDp v).u = st.u := rfl
@[simp] theorem State.setDp_s (v : Byte) : (st.setDp v).s = st.s := rfl
@[simp] theorem State.setDp_pc (v : Byte) : (st.setDp v).pc = st.pc := rfl
@[simp] theorem State.setDp_nmiArmed (v : Byte) : (st.setDp v).nmiArmed = st.nmiArmed := rfl
@[simp] theorem State.setDp_nmiPending (v : Byte) : (st.setDp v).nmiPending = st.nmiPending := rfl
@[simp] theorem State.setDp_wait (v : Byte) : (st.setDp v).wait = st.wait := rfl
@[simp] theorem State.setDp_mem (v : Byte) : (st.setDp v).mem = st.mem := rfl
@[simp] theorem State.setDp_platform (v : Byte) : (st.setDp v).platform = st.platform := rfl
@[simp] theorem State.setDp_inputs (v : Byte) : (st.setDp v).inputs = st.inputs := rfl
@[simp] theorem State.setDp_bus (v : Byte) : (st.setDp v).bus = st.bus := rfl
@[simp] theorem State.setDp_draws (v : Byte) : (st.setDp v).draws = st.draws := rfl

@[simp] theorem State.setCC_a (v : CC) : (st.setCC v).a = st.a := rfl
@[simp] theorem State.setCC_b (v : CC) : (st.setCC v).b = st.b := rfl
@[simp] theorem State.setCC_dp (v : CC) : (st.setCC v).dp = st.dp := rfl
@[simp] theorem State.setCC_cc (v : CC) : (st.setCC v).cc = v := rfl
@[simp] theorem State.setCC_x (v : CC) : (st.setCC v).x = st.x := rfl
@[simp] theorem State.setCC_y (v : CC) : (st.setCC v).y = st.y := rfl
@[simp] theorem State.setCC_u (v : CC) : (st.setCC v).u = st.u := rfl
@[simp] theorem State.setCC_s (v : CC) : (st.setCC v).s = st.s := rfl
@[simp] theorem State.setCC_pc (v : CC) : (st.setCC v).pc = st.pc := rfl
@[simp] theorem State.setCC_nmiArmed (v : CC) : (st.setCC v).nmiArmed = st.nmiArmed := rfl
@[simp] theorem State.setCC_nmiPending (v : CC) : (st.setCC v).nmiPending = st.nmiPending := rfl
@[simp] theorem State.setCC_wait (v : CC) : (st.setCC v).wait = st.wait := rfl
@[simp] theorem State.setCC_mem (v : CC) : (st.setCC v).mem = st.mem := rfl
@[simp] theorem State.setCC_platform (v : CC) : (st.setCC v).platform = st.platform := rfl
@[simp] theorem State.setCC_inputs (v : CC) : (st.setCC v).inputs = st.inputs := rfl
@[simp] theorem State.setCC_bus (v : CC) : (st.setCC v).bus = st.bus := rfl
@[simp] theorem State.setCC_draws (v : CC) : (st.setCC v).draws = st.draws := rfl

@[simp] theorem State.setX_a (v : Word) : (st.setX v).a = st.a := rfl
@[simp] theorem State.setX_b (v : Word) : (st.setX v).b = st.b := rfl
@[simp] theorem State.setX_dp (v : Word) : (st.setX v).dp = st.dp := rfl
@[simp] theorem State.setX_cc (v : Word) : (st.setX v).cc = st.cc := rfl
@[simp] theorem State.setX_x (v : Word) : (st.setX v).x = v := rfl
@[simp] theorem State.setX_y (v : Word) : (st.setX v).y = st.y := rfl
@[simp] theorem State.setX_u (v : Word) : (st.setX v).u = st.u := rfl
@[simp] theorem State.setX_s (v : Word) : (st.setX v).s = st.s := rfl
@[simp] theorem State.setX_pc (v : Word) : (st.setX v).pc = st.pc := rfl
@[simp] theorem State.setX_nmiArmed (v : Word) : (st.setX v).nmiArmed = st.nmiArmed := rfl
@[simp] theorem State.setX_nmiPending (v : Word) : (st.setX v).nmiPending = st.nmiPending := rfl
@[simp] theorem State.setX_wait (v : Word) : (st.setX v).wait = st.wait := rfl
@[simp] theorem State.setX_mem (v : Word) : (st.setX v).mem = st.mem := rfl
@[simp] theorem State.setX_platform (v : Word) : (st.setX v).platform = st.platform := rfl
@[simp] theorem State.setX_inputs (v : Word) : (st.setX v).inputs = st.inputs := rfl
@[simp] theorem State.setX_bus (v : Word) : (st.setX v).bus = st.bus := rfl
@[simp] theorem State.setX_draws (v : Word) : (st.setX v).draws = st.draws := rfl

@[simp] theorem State.setY_a (v : Word) : (st.setY v).a = st.a := rfl
@[simp] theorem State.setY_b (v : Word) : (st.setY v).b = st.b := rfl
@[simp] theorem State.setY_dp (v : Word) : (st.setY v).dp = st.dp := rfl
@[simp] theorem State.setY_cc (v : Word) : (st.setY v).cc = st.cc := rfl
@[simp] theorem State.setY_x (v : Word) : (st.setY v).x = st.x := rfl
@[simp] theorem State.setY_y (v : Word) : (st.setY v).y = v := rfl
@[simp] theorem State.setY_u (v : Word) : (st.setY v).u = st.u := rfl
@[simp] theorem State.setY_s (v : Word) : (st.setY v).s = st.s := rfl
@[simp] theorem State.setY_pc (v : Word) : (st.setY v).pc = st.pc := rfl
@[simp] theorem State.setY_nmiArmed (v : Word) : (st.setY v).nmiArmed = st.nmiArmed := rfl
@[simp] theorem State.setY_nmiPending (v : Word) : (st.setY v).nmiPending = st.nmiPending := rfl
@[simp] theorem State.setY_wait (v : Word) : (st.setY v).wait = st.wait := rfl
@[simp] theorem State.setY_mem (v : Word) : (st.setY v).mem = st.mem := rfl
@[simp] theorem State.setY_platform (v : Word) : (st.setY v).platform = st.platform := rfl
@[simp] theorem State.setY_inputs (v : Word) : (st.setY v).inputs = st.inputs := rfl
@[simp] theorem State.setY_bus (v : Word) : (st.setY v).bus = st.bus := rfl
@[simp] theorem State.setY_draws (v : Word) : (st.setY v).draws = st.draws := rfl

@[simp] theorem State.setU_a (v : Word) : (st.setU v).a = st.a := rfl
@[simp] theorem State.setU_b (v : Word) : (st.setU v).b = st.b := rfl
@[simp] theorem State.setU_dp (v : Word) : (st.setU v).dp = st.dp := rfl
@[simp] theorem State.setU_cc (v : Word) : (st.setU v).cc = st.cc := rfl
@[simp] theorem State.setU_x (v : Word) : (st.setU v).x = st.x := rfl
@[simp] theorem State.setU_y (v : Word) : (st.setU v).y = st.y := rfl
@[simp] theorem State.setU_u (v : Word) : (st.setU v).u = v := rfl
@[simp] theorem State.setU_s (v : Word) : (st.setU v).s = st.s := rfl
@[simp] theorem State.setU_pc (v : Word) : (st.setU v).pc = st.pc := rfl
@[simp] theorem State.setU_nmiArmed (v : Word) : (st.setU v).nmiArmed = st.nmiArmed := rfl
@[simp] theorem State.setU_nmiPending (v : Word) : (st.setU v).nmiPending = st.nmiPending := rfl
@[simp] theorem State.setU_wait (v : Word) : (st.setU v).wait = st.wait := rfl
@[simp] theorem State.setU_mem (v : Word) : (st.setU v).mem = st.mem := rfl
@[simp] theorem State.setU_platform (v : Word) : (st.setU v).platform = st.platform := rfl
@[simp] theorem State.setU_inputs (v : Word) : (st.setU v).inputs = st.inputs := rfl
@[simp] theorem State.setU_bus (v : Word) : (st.setU v).bus = st.bus := rfl
@[simp] theorem State.setU_draws (v : Word) : (st.setU v).draws = st.draws := rfl

@[simp] theorem State.setS_a (v : Word) : (st.setS v).a = st.a := rfl
@[simp] theorem State.setS_b (v : Word) : (st.setS v).b = st.b := rfl
@[simp] theorem State.setS_dp (v : Word) : (st.setS v).dp = st.dp := rfl
@[simp] theorem State.setS_cc (v : Word) : (st.setS v).cc = st.cc := rfl
@[simp] theorem State.setS_x (v : Word) : (st.setS v).x = st.x := rfl
@[simp] theorem State.setS_y (v : Word) : (st.setS v).y = st.y := rfl
@[simp] theorem State.setS_u (v : Word) : (st.setS v).u = st.u := rfl
@[simp] theorem State.setS_s (v : Word) : (st.setS v).s = v := rfl
@[simp] theorem State.setS_pc (v : Word) : (st.setS v).pc = st.pc := rfl
@[simp] theorem State.setS_nmiArmed (v : Word) : (st.setS v).nmiArmed = st.nmiArmed := rfl
@[simp] theorem State.setS_nmiPending (v : Word) : (st.setS v).nmiPending = st.nmiPending := rfl
@[simp] theorem State.setS_wait (v : Word) : (st.setS v).wait = st.wait := rfl
@[simp] theorem State.setS_mem (v : Word) : (st.setS v).mem = st.mem := rfl
@[simp] theorem State.setS_platform (v : Word) : (st.setS v).platform = st.platform := rfl
@[simp] theorem State.setS_inputs (v : Word) : (st.setS v).inputs = st.inputs := rfl
@[simp] theorem State.setS_bus (v : Word) : (st.setS v).bus = st.bus := rfl
@[simp] theorem State.setS_draws (v : Word) : (st.setS v).draws = st.draws := rfl

@[simp] theorem State.setPc_a (v : Word) : (st.setPc v).a = st.a := rfl
@[simp] theorem State.setPc_b (v : Word) : (st.setPc v).b = st.b := rfl
@[simp] theorem State.setPc_dp (v : Word) : (st.setPc v).dp = st.dp := rfl
@[simp] theorem State.setPc_cc (v : Word) : (st.setPc v).cc = st.cc := rfl
@[simp] theorem State.setPc_x (v : Word) : (st.setPc v).x = st.x := rfl
@[simp] theorem State.setPc_y (v : Word) : (st.setPc v).y = st.y := rfl
@[simp] theorem State.setPc_u (v : Word) : (st.setPc v).u = st.u := rfl
@[simp] theorem State.setPc_s (v : Word) : (st.setPc v).s = st.s := rfl
@[simp] theorem State.setPc_pc (v : Word) : (st.setPc v).pc = v := rfl
@[simp] theorem State.setPc_nmiArmed (v : Word) : (st.setPc v).nmiArmed = st.nmiArmed := rfl
@[simp] theorem State.setPc_nmiPending (v : Word) : (st.setPc v).nmiPending = st.nmiPending := rfl
@[simp] theorem State.setPc_wait (v : Word) : (st.setPc v).wait = st.wait := rfl
@[simp] theorem State.setPc_mem (v : Word) : (st.setPc v).mem = st.mem := rfl
@[simp] theorem State.setPc_platform (v : Word) : (st.setPc v).platform = st.platform := rfl
@[simp] theorem State.setPc_inputs (v : Word) : (st.setPc v).inputs = st.inputs := rfl
@[simp] theorem State.setPc_bus (v : Word) : (st.setPc v).bus = st.bus := rfl
@[simp] theorem State.setPc_draws (v : Word) : (st.setPc v).draws = st.draws := rfl

@[simp] theorem State.setNmiArmed_a (v : Bool) : (st.setNmiArmed v).a = st.a := rfl
@[simp] theorem State.setNmiArmed_b (v : Bool) : (st.setNmiArmed v).b = st.b := rfl
@[simp] theorem State.setNmiArmed_dp (v : Bool) : (st.setNmiArmed v).dp = st.dp := rfl
@[simp] theorem State.setNmiArmed_cc (v : Bool) : (st.setNmiArmed v).cc = st.cc := rfl
@[simp] theorem State.setNmiArmed_x (v : Bool) : (st.setNmiArmed v).x = st.x := rfl
@[simp] theorem State.setNmiArmed_y (v : Bool) : (st.setNmiArmed v).y = st.y := rfl
@[simp] theorem State.setNmiArmed_u (v : Bool) : (st.setNmiArmed v).u = st.u := rfl
@[simp] theorem State.setNmiArmed_s (v : Bool) : (st.setNmiArmed v).s = st.s := rfl
@[simp] theorem State.setNmiArmed_pc (v : Bool) : (st.setNmiArmed v).pc = st.pc := rfl
@[simp] theorem State.setNmiArmed_nmiArmed (v : Bool) : (st.setNmiArmed v).nmiArmed = v := rfl
@[simp] theorem State.setNmiArmed_nmiPending (v : Bool) : (st.setNmiArmed v).nmiPending = st.nmiPending := rfl
@[simp] theorem State.setNmiArmed_wait (v : Bool) : (st.setNmiArmed v).wait = st.wait := rfl
@[simp] theorem State.setNmiArmed_mem (v : Bool) : (st.setNmiArmed v).mem = st.mem := rfl
@[simp] theorem State.setNmiArmed_platform (v : Bool) : (st.setNmiArmed v).platform = st.platform := rfl
@[simp] theorem State.setNmiArmed_inputs (v : Bool) : (st.setNmiArmed v).inputs = st.inputs := rfl
@[simp] theorem State.setNmiArmed_bus (v : Bool) : (st.setNmiArmed v).bus = st.bus := rfl
@[simp] theorem State.setNmiArmed_draws (v : Bool) : (st.setNmiArmed v).draws = st.draws := rfl

@[simp] theorem State.setNmiPending_a (v : Bool) : (st.setNmiPending v).a = st.a := rfl
@[simp] theorem State.setNmiPending_b (v : Bool) : (st.setNmiPending v).b = st.b := rfl
@[simp] theorem State.setNmiPending_dp (v : Bool) : (st.setNmiPending v).dp = st.dp := rfl
@[simp] theorem State.setNmiPending_cc (v : Bool) : (st.setNmiPending v).cc = st.cc := rfl
@[simp] theorem State.setNmiPending_x (v : Bool) : (st.setNmiPending v).x = st.x := rfl
@[simp] theorem State.setNmiPending_y (v : Bool) : (st.setNmiPending v).y = st.y := rfl
@[simp] theorem State.setNmiPending_u (v : Bool) : (st.setNmiPending v).u = st.u := rfl
@[simp] theorem State.setNmiPending_s (v : Bool) : (st.setNmiPending v).s = st.s := rfl
@[simp] theorem State.setNmiPending_pc (v : Bool) : (st.setNmiPending v).pc = st.pc := rfl
@[simp] theorem State.setNmiPending_nmiArmed (v : Bool) : (st.setNmiPending v).nmiArmed = st.nmiArmed := rfl
@[simp] theorem State.setNmiPending_nmiPending (v : Bool) : (st.setNmiPending v).nmiPending = v := rfl
@[simp] theorem State.setNmiPending_wait (v : Bool) : (st.setNmiPending v).wait = st.wait := rfl
@[simp] theorem State.setNmiPending_mem (v : Bool) : (st.setNmiPending v).mem = st.mem := rfl
@[simp] theorem State.setNmiPending_platform (v : Bool) : (st.setNmiPending v).platform = st.platform := rfl
@[simp] theorem State.setNmiPending_inputs (v : Bool) : (st.setNmiPending v).inputs = st.inputs := rfl
@[simp] theorem State.setNmiPending_bus (v : Bool) : (st.setNmiPending v).bus = st.bus := rfl
@[simp] theorem State.setNmiPending_draws (v : Bool) : (st.setNmiPending v).draws = st.draws := rfl

@[simp] theorem State.setWait_a (v : Wait) : (st.setWait v).a = st.a := rfl
@[simp] theorem State.setWait_b (v : Wait) : (st.setWait v).b = st.b := rfl
@[simp] theorem State.setWait_dp (v : Wait) : (st.setWait v).dp = st.dp := rfl
@[simp] theorem State.setWait_cc (v : Wait) : (st.setWait v).cc = st.cc := rfl
@[simp] theorem State.setWait_x (v : Wait) : (st.setWait v).x = st.x := rfl
@[simp] theorem State.setWait_y (v : Wait) : (st.setWait v).y = st.y := rfl
@[simp] theorem State.setWait_u (v : Wait) : (st.setWait v).u = st.u := rfl
@[simp] theorem State.setWait_s (v : Wait) : (st.setWait v).s = st.s := rfl
@[simp] theorem State.setWait_pc (v : Wait) : (st.setWait v).pc = st.pc := rfl
@[simp] theorem State.setWait_nmiArmed (v : Wait) : (st.setWait v).nmiArmed = st.nmiArmed := rfl
@[simp] theorem State.setWait_nmiPending (v : Wait) : (st.setWait v).nmiPending = st.nmiPending := rfl
@[simp] theorem State.setWait_wait (v : Wait) : (st.setWait v).wait = v := rfl
@[simp] theorem State.setWait_mem (v : Wait) : (st.setWait v).mem = st.mem := rfl
@[simp] theorem State.setWait_platform (v : Wait) : (st.setWait v).platform = st.platform := rfl
@[simp] theorem State.setWait_inputs (v : Wait) : (st.setWait v).inputs = st.inputs := rfl
@[simp] theorem State.setWait_bus (v : Wait) : (st.setWait v).bus = st.bus := rfl
@[simp] theorem State.setWait_draws (v : Wait) : (st.setWait v).draws = st.draws := rfl

@[simp] theorem State.setMem_a (v : Memory) : (st.setMem v).a = st.a := rfl
@[simp] theorem State.setMem_b (v : Memory) : (st.setMem v).b = st.b := rfl
@[simp] theorem State.setMem_dp (v : Memory) : (st.setMem v).dp = st.dp := rfl
@[simp] theorem State.setMem_cc (v : Memory) : (st.setMem v).cc = st.cc := rfl
@[simp] theorem State.setMem_x (v : Memory) : (st.setMem v).x = st.x := rfl
@[simp] theorem State.setMem_y (v : Memory) : (st.setMem v).y = st.y := rfl
@[simp] theorem State.setMem_u (v : Memory) : (st.setMem v).u = st.u := rfl
@[simp] theorem State.setMem_s (v : Memory) : (st.setMem v).s = st.s := rfl
@[simp] theorem State.setMem_pc (v : Memory) : (st.setMem v).pc = st.pc := rfl
@[simp] theorem State.setMem_nmiArmed (v : Memory) : (st.setMem v).nmiArmed = st.nmiArmed := rfl
@[simp] theorem State.setMem_nmiPending (v : Memory) : (st.setMem v).nmiPending = st.nmiPending := rfl
@[simp] theorem State.setMem_wait (v : Memory) : (st.setMem v).wait = st.wait := rfl
@[simp] theorem State.setMem_mem (v : Memory) : (st.setMem v).mem = v := rfl
@[simp] theorem State.setMem_platform (v : Memory) : (st.setMem v).platform = st.platform := rfl
@[simp] theorem State.setMem_inputs (v : Memory) : (st.setMem v).inputs = st.inputs := rfl
@[simp] theorem State.setMem_bus (v : Memory) : (st.setMem v).bus = st.bus := rfl
@[simp] theorem State.setMem_draws (v : Memory) : (st.setMem v).draws = st.draws := rfl

@[simp] theorem State.setInputs_a (v : List Inputs) : (st.setInputs v).a = st.a := rfl
@[simp] theorem State.setInputs_b (v : List Inputs) : (st.setInputs v).b = st.b := rfl
@[simp] theorem State.setInputs_dp (v : List Inputs) : (st.setInputs v).dp = st.dp := rfl
@[simp] theorem State.setInputs_cc (v : List Inputs) : (st.setInputs v).cc = st.cc := rfl
@[simp] theorem State.setInputs_x (v : List Inputs) : (st.setInputs v).x = st.x := rfl
@[simp] theorem State.setInputs_y (v : List Inputs) : (st.setInputs v).y = st.y := rfl
@[simp] theorem State.setInputs_u (v : List Inputs) : (st.setInputs v).u = st.u := rfl
@[simp] theorem State.setInputs_s (v : List Inputs) : (st.setInputs v).s = st.s := rfl
@[simp] theorem State.setInputs_pc (v : List Inputs) : (st.setInputs v).pc = st.pc := rfl
@[simp] theorem State.setInputs_nmiArmed (v : List Inputs) : (st.setInputs v).nmiArmed = st.nmiArmed := rfl
@[simp] theorem State.setInputs_nmiPending (v : List Inputs) : (st.setInputs v).nmiPending = st.nmiPending := rfl
@[simp] theorem State.setInputs_wait (v : List Inputs) : (st.setInputs v).wait = st.wait := rfl
@[simp] theorem State.setInputs_mem (v : List Inputs) : (st.setInputs v).mem = st.mem := rfl
@[simp] theorem State.setInputs_platform (v : List Inputs) : (st.setInputs v).platform = st.platform := rfl
@[simp] theorem State.setInputs_inputs (v : List Inputs) : (st.setInputs v).inputs = v := rfl
@[simp] theorem State.setInputs_bus (v : List Inputs) : (st.setInputs v).bus = st.bus := rfl
@[simp] theorem State.setInputs_draws (v : List Inputs) : (st.setInputs v).draws = st.draws := rfl

@[simp] theorem State.setBus_a (v : List BusAccess) : (st.setBus v).a = st.a := rfl
@[simp] theorem State.setBus_b (v : List BusAccess) : (st.setBus v).b = st.b := rfl
@[simp] theorem State.setBus_dp (v : List BusAccess) : (st.setBus v).dp = st.dp := rfl
@[simp] theorem State.setBus_cc (v : List BusAccess) : (st.setBus v).cc = st.cc := rfl
@[simp] theorem State.setBus_x (v : List BusAccess) : (st.setBus v).x = st.x := rfl
@[simp] theorem State.setBus_y (v : List BusAccess) : (st.setBus v).y = st.y := rfl
@[simp] theorem State.setBus_u (v : List BusAccess) : (st.setBus v).u = st.u := rfl
@[simp] theorem State.setBus_s (v : List BusAccess) : (st.setBus v).s = st.s := rfl
@[simp] theorem State.setBus_pc (v : List BusAccess) : (st.setBus v).pc = st.pc := rfl
@[simp] theorem State.setBus_nmiArmed (v : List BusAccess) : (st.setBus v).nmiArmed = st.nmiArmed := rfl
@[simp] theorem State.setBus_nmiPending (v : List BusAccess) : (st.setBus v).nmiPending = st.nmiPending := rfl
@[simp] theorem State.setBus_wait (v : List BusAccess) : (st.setBus v).wait = st.wait := rfl
@[simp] theorem State.setBus_mem (v : List BusAccess) : (st.setBus v).mem = st.mem := rfl
@[simp] theorem State.setBus_platform (v : List BusAccess) : (st.setBus v).platform = st.platform := rfl
@[simp] theorem State.setBus_inputs (v : List BusAccess) : (st.setBus v).inputs = st.inputs := rfl
@[simp] theorem State.setBus_bus (v : List BusAccess) : (st.setBus v).bus = v := rfl
@[simp] theorem State.setBus_draws (v : List BusAccess) : (st.setBus v).draws = st.draws := rfl

@[simp] theorem State.setDraws_a (v : Nat) : (st.setDraws v).a = st.a := rfl
@[simp] theorem State.setDraws_b (v : Nat) : (st.setDraws v).b = st.b := rfl
@[simp] theorem State.setDraws_dp (v : Nat) : (st.setDraws v).dp = st.dp := rfl
@[simp] theorem State.setDraws_cc (v : Nat) : (st.setDraws v).cc = st.cc := rfl
@[simp] theorem State.setDraws_x (v : Nat) : (st.setDraws v).x = st.x := rfl
@[simp] theorem State.setDraws_y (v : Nat) : (st.setDraws v).y = st.y := rfl
@[simp] theorem State.setDraws_u (v : Nat) : (st.setDraws v).u = st.u := rfl
@[simp] theorem State.setDraws_s (v : Nat) : (st.setDraws v).s = st.s := rfl
@[simp] theorem State.setDraws_pc (v : Nat) : (st.setDraws v).pc = st.pc := rfl
@[simp] theorem State.setDraws_nmiArmed (v : Nat) : (st.setDraws v).nmiArmed = st.nmiArmed := rfl
@[simp] theorem State.setDraws_nmiPending (v : Nat) : (st.setDraws v).nmiPending = st.nmiPending := rfl
@[simp] theorem State.setDraws_wait (v : Nat) : (st.setDraws v).wait = st.wait := rfl
@[simp] theorem State.setDraws_mem (v : Nat) : (st.setDraws v).mem = st.mem := rfl
@[simp] theorem State.setDraws_platform (v : Nat) : (st.setDraws v).platform = st.platform := rfl
@[simp] theorem State.setDraws_inputs (v : Nat) : (st.setDraws v).inputs = st.inputs := rfl
@[simp] theorem State.setDraws_bus (v : Nat) : (st.setDraws v).bus = st.bus := rfl
@[simp] theorem State.setDraws_draws (v : Nat) : (st.setDraws v).draws = v := rfl

/-! ## Composite writes -/

@[simp] theorem State.setD_dp (v : Word) : (st.setD v).dp = st.dp := by rfl
@[simp] theorem State.setD_cc (v : Word) : (st.setD v).cc = st.cc := by rfl
@[simp] theorem State.setD_x (v : Word) : (st.setD v).x = st.x := by rfl
@[simp] theorem State.setD_y (v : Word) : (st.setD v).y = st.y := by rfl
@[simp] theorem State.setD_u (v : Word) : (st.setD v).u = st.u := by rfl
@[simp] theorem State.setD_s (v : Word) : (st.setD v).s = st.s := by rfl
@[simp] theorem State.setD_pc (v : Word) : (st.setD v).pc = st.pc := by rfl
@[simp] theorem State.setD_nmiArmed (v : Word) : (st.setD v).nmiArmed = st.nmiArmed := by rfl
@[simp] theorem State.setD_nmiPending (v : Word) : (st.setD v).nmiPending = st.nmiPending := by rfl
@[simp] theorem State.setD_wait (v : Word) : (st.setD v).wait = st.wait := by rfl
@[simp] theorem State.setD_mem (v : Word) : (st.setD v).mem = st.mem := by rfl
@[simp] theorem State.setD_platform (v : Word) : (st.setD v).platform = st.platform := by rfl
@[simp] theorem State.setD_inputs (v : Word) : (st.setD v).inputs = st.inputs := by rfl
@[simp] theorem State.setD_bus (v : Word) : (st.setD v).bus = st.bus := by rfl
@[simp] theorem State.setD_draws (v : Word) : (st.setD v).draws = st.draws := by rfl

@[simp] theorem State.setD_a (v : Word) : (st.setD v).a = hiByte v := rfl
@[simp] theorem State.setD_b (v : Word) : (st.setD v).b = loByte v := rfl

@[simp] theorem State.setAcc_dp (r : Acc) (v : Byte) : (st.setAcc r v).dp = st.dp := by cases r <;> rfl
@[simp] theorem State.setAcc_cc (r : Acc) (v : Byte) : (st.setAcc r v).cc = st.cc := by cases r <;> rfl
@[simp] theorem State.setAcc_x (r : Acc) (v : Byte) : (st.setAcc r v).x = st.x := by cases r <;> rfl
@[simp] theorem State.setAcc_y (r : Acc) (v : Byte) : (st.setAcc r v).y = st.y := by cases r <;> rfl
@[simp] theorem State.setAcc_u (r : Acc) (v : Byte) : (st.setAcc r v).u = st.u := by cases r <;> rfl
@[simp] theorem State.setAcc_s (r : Acc) (v : Byte) : (st.setAcc r v).s = st.s := by cases r <;> rfl
@[simp] theorem State.setAcc_pc (r : Acc) (v : Byte) : (st.setAcc r v).pc = st.pc := by cases r <;> rfl
@[simp] theorem State.setAcc_nmiArmed (r : Acc) (v : Byte) : (st.setAcc r v).nmiArmed = st.nmiArmed := by cases r <;> rfl
@[simp] theorem State.setAcc_nmiPending (r : Acc) (v : Byte) : (st.setAcc r v).nmiPending = st.nmiPending := by cases r <;> rfl
@[simp] theorem State.setAcc_wait (r : Acc) (v : Byte) : (st.setAcc r v).wait = st.wait := by cases r <;> rfl
@[simp] theorem State.setAcc_mem (r : Acc) (v : Byte) : (st.setAcc r v).mem = st.mem := by cases r <;> rfl
@[simp] theorem State.setAcc_platform (r : Acc) (v : Byte) : (st.setAcc r v).platform = st.platform := by cases r <;> rfl
@[simp] theorem State.setAcc_inputs (r : Acc) (v : Byte) : (st.setAcc r v).inputs = st.inputs := by cases r <;> rfl
@[simp] theorem State.setAcc_bus (r : Acc) (v : Byte) : (st.setAcc r v).bus = st.bus := by cases r <;> rfl
@[simp] theorem State.setAcc_draws (r : Acc) (v : Byte) : (st.setAcc r v).draws = st.draws := by cases r <;> rfl

@[simp] theorem State.acc_setAcc (r : Acc) (v : Byte) : (st.setAcc r v).acc r = v := by cases r <;> rfl

@[simp] theorem State.setIndexReg_a (r : IndexReg) (v : Word) : (st.setIndexReg r v).a = st.a := by cases r <;> rfl
@[simp] theorem State.setIndexReg_b (r : IndexReg) (v : Word) : (st.setIndexReg r v).b = st.b := by cases r <;> rfl
@[simp] theorem State.setIndexReg_dp (r : IndexReg) (v : Word) : (st.setIndexReg r v).dp = st.dp := by cases r <;> rfl
@[simp] theorem State.setIndexReg_cc (r : IndexReg) (v : Word) : (st.setIndexReg r v).cc = st.cc := by cases r <;> rfl
@[simp] theorem State.setIndexReg_pc (r : IndexReg) (v : Word) : (st.setIndexReg r v).pc = st.pc := by cases r <;> rfl
@[simp] theorem State.setIndexReg_nmiArmed (r : IndexReg) (v : Word) : (st.setIndexReg r v).nmiArmed = st.nmiArmed := by cases r <;> rfl
@[simp] theorem State.setIndexReg_nmiPending (r : IndexReg) (v : Word) : (st.setIndexReg r v).nmiPending = st.nmiPending := by cases r <;> rfl
@[simp] theorem State.setIndexReg_wait (r : IndexReg) (v : Word) : (st.setIndexReg r v).wait = st.wait := by cases r <;> rfl
@[simp] theorem State.setIndexReg_mem (r : IndexReg) (v : Word) : (st.setIndexReg r v).mem = st.mem := by cases r <;> rfl
@[simp] theorem State.setIndexReg_platform (r : IndexReg) (v : Word) : (st.setIndexReg r v).platform = st.platform := by cases r <;> rfl
@[simp] theorem State.setIndexReg_inputs (r : IndexReg) (v : Word) : (st.setIndexReg r v).inputs = st.inputs := by cases r <;> rfl
@[simp] theorem State.setIndexReg_bus (r : IndexReg) (v : Word) : (st.setIndexReg r v).bus = st.bus := by cases r <;> rfl
@[simp] theorem State.setIndexReg_draws (r : IndexReg) (v : Word) : (st.setIndexReg r v).draws = st.draws := by cases r <;> rfl

@[simp] theorem State.indexReg_setIndexReg (r : IndexReg) (v : Word) : (st.setIndexReg r v).indexReg r = v := by
  cases r <;> rfl
theorem State.indexReg_setIndexReg_ne (r q : IndexReg) (v : Word) (h : q ≠ r) :
    (st.setIndexReg r v).indexReg q = st.indexReg q := by
  cases r <;> cases q <;> first | rfl | exact absurd rfl h

@[simp] theorem State.setSp_a (k : Stack) (v : Word) : (st.setSp k v).a = st.a := by cases k <;> rfl
@[simp] theorem State.setSp_b (k : Stack) (v : Word) : (st.setSp k v).b = st.b := by cases k <;> rfl
@[simp] theorem State.setSp_dp (k : Stack) (v : Word) : (st.setSp k v).dp = st.dp := by cases k <;> rfl
@[simp] theorem State.setSp_cc (k : Stack) (v : Word) : (st.setSp k v).cc = st.cc := by cases k <;> rfl
@[simp] theorem State.setSp_x (k : Stack) (v : Word) : (st.setSp k v).x = st.x := by cases k <;> rfl
@[simp] theorem State.setSp_y (k : Stack) (v : Word) : (st.setSp k v).y = st.y := by cases k <;> rfl
@[simp] theorem State.setSp_pc (k : Stack) (v : Word) : (st.setSp k v).pc = st.pc := by cases k <;> rfl
@[simp] theorem State.setSp_nmiArmed (k : Stack) (v : Word) : (st.setSp k v).nmiArmed = st.nmiArmed := by cases k <;> rfl
@[simp] theorem State.setSp_nmiPending (k : Stack) (v : Word) : (st.setSp k v).nmiPending = st.nmiPending := by cases k <;> rfl
@[simp] theorem State.setSp_wait (k : Stack) (v : Word) : (st.setSp k v).wait = st.wait := by cases k <;> rfl
@[simp] theorem State.setSp_mem (k : Stack) (v : Word) : (st.setSp k v).mem = st.mem := by cases k <;> rfl
@[simp] theorem State.setSp_platform (k : Stack) (v : Word) : (st.setSp k v).platform = st.platform := by cases k <;> rfl
@[simp] theorem State.setSp_inputs (k : Stack) (v : Word) : (st.setSp k v).inputs = st.inputs := by cases k <;> rfl
@[simp] theorem State.setSp_bus (k : Stack) (v : Word) : (st.setSp k v).bus = st.bus := by cases k <;> rfl
@[simp] theorem State.setSp_draws (k : Stack) (v : Word) : (st.setSp k v).draws = st.draws := by cases k <;> rfl

@[simp] theorem State.sp_setSp (k : Stack) (v : Word) : (st.setSp k v).sp k = v := by cases k <;> rfl
@[simp] theorem State.sp_other_setSp (k : Stack) (v : Word) : (st.setSp k v).sp k.other = st.sp k.other := by
  cases k <;> rfl

/-- A register of 30 R110 holds what was written to it: all of a 16-bit register, the low byte of an 8-bit one. -/
theorem State.readReg_writeReg (r : Reg) (v : Word) :
    (st.writeReg r v).readReg r = if r.wide then v else zext8 (loByte v) := by
  have hw : joinBytes (hiByte v) (loByte v) = v := by
    simp only [joinBytes, hiByte, loByte]
    exact BitVec.eq_of_getLsbD_eq fun i hi => by
      simp only [BitVec.getLsbD_append, BitVec.getLsbD_extractLsb']
      by_cases h : i < 8
      · simp [h]
      · have h8 : i - 8 < 8 := by omega
        simp [h, h8, show 8 + (i - 8) = i by omega]
  have hcc : ∀ w : Byte, (CC.ofByte w).toByte = w := by decide
  cases r <;> simp [State.writeReg, State.readReg, State.d, Reg.wide, hw, hcc]

/-- The draw counter is the only field a free draw changes, and its value is the free value of the old count. -/
@[simp] theorem State.draw_fst : st.draw.1 = Config.undefBit st.draws := rfl
@[simp] theorem State.draw_snd : st.draw.2 = st.setDraws (st.draws + 1) := rfl

@[simp] theorem State.when_true (f : State → State) : st.when true f = f st := rfl
@[simp] theorem State.when_false (f : State → State) : st.when false f = st := rfl

/-- CC survives the way through a byte, in both directions (10 R27). -/
theorem CC.ofByte_toByte (cc : CC) : CC.ofByte cc.toByte = cc := by
  obtain ⟨e, f, h, i, n, z, v, c⟩ := cc
  revert e f h i n z v c
  decide
theorem CC.toByte_ofByte (w : Byte) : (CC.ofByte w).toByte = w := by
  revert w
  decide

end Sys2Proof.Machine
end

