-- ==== Sys2Proof/Laws/Bus.lean ====
section
/-! SUPPORT. What the memory accesses do: a read touches only the record of the environment's accesses, a write only memory
and that record; one byte and two, fetches and vectors. -/

namespace Sys2Proof.Machine

variable (st : State)

/-! ## The kind of an address depends on the platform alone -/

theorem State.kind_of_platform {s t : State} (h : t.platform = s.platform) (a : Word) : t.kind a = s.kind a := by
  simp [State.kind, h]

theorem State.isMemory_of_platform {s t : State} (h : t.platform = s.platform) (a : Word) :
    t.isMemory a = s.isMemory a := by
  simp [State.isMemory, State.kind, h]

/-! ## One byte -/

/-- A read changes nothing but the record of the environment's accesses. -/
theorem State.read8_snd (a : Word) : (st.read8 a).2 = st.setBus (st.read8 a).2.bus := by
  unfold State.read8
  split <;> rfl

@[simp] theorem State.read8_a (w : Word) : (st.read8 w).2.a = st.a := by rw [State.read8_snd]; rfl
@[simp] theorem State.read8_b (w : Word) : (st.read8 w).2.b = st.b := by rw [State.read8_snd]; rfl
@[simp] theorem State.read8_dp (w : Word) : (st.read8 w).2.dp = st.dp := by rw [State.read8_snd]; rfl
@[simp] theorem State.read8_cc (w : Word) : (st.read8 w).2.cc = st.cc := by rw [State.read8_snd]; rfl
@[simp] theorem State.read8_x (w : Word) : (st.read8 w).2.x = st.x := by rw [State.read8_snd]; rfl
@[simp] theorem State.read8_y (w : Word) : (st.read8 w).2.y = st.y := by rw [State.read8_snd]; rfl
@[simp] theorem State.read8_u (w : Word) : (st.read8 w).2.u = st.u := by rw [State.read8_snd]; rfl
@[simp] theorem State.read8_s (w : Word) : (st.read8 w).2.s = st.s := by rw [State.read8_snd]; rfl
@[simp] theorem State.read8_pc (w : Word) : (st.read8 w).2.pc = st.pc := by rw [State.read8_snd]; rfl
@[simp] theorem State.read8_nmiArmed (w : Word) : (st.read8 w).2.nmiArmed = st.nmiArmed := by rw [State.read8_snd]; rfl
@[simp] theorem State.read8_nmiPending (w : Word) : (st.read8 w).2.nmiPending = st.nmiPending := by rw [State.read8_snd]; rfl
@[simp] theorem State.read8_wait (w : Word) : (st.read8 w).2.wait = st.wait := by rw [State.read8_snd]; rfl
@[simp] theorem State.read8_mem (w : Word) : (st.read8 w).2.mem = st.mem := by rw [State.read8_snd]; rfl
@[simp] theorem State.read8_platform (w : Word) : (st.read8 w).2.platform = st.platform := by rw [State.read8_snd]; rfl
@[simp] theorem State.read8_inputs (w : Word) : (st.read8 w).2.inputs = st.inputs := by rw [State.read8_snd]; rfl
@[simp] theorem State.read8_draws (w : Word) : (st.read8 w).2.draws = st.draws := by rw [State.read8_snd]; rfl

/-- RAM and ROM answer with their content and nothing else happens (20 R52, R59). -/
theorem State.read8_of_isMemory (w : Word) (h : st.isMemory w = true) : st.read8 w = (st.mem.read w.toNat, st) := by
  unfold State.isMemory at h
  unfold State.read8
  split at h <;> simp_all

/-- Device registers and unpopulated addresses answer with what the environment chooses, and it sees the access
(20 R59). -/
theorem State.read8_of_not_isMemory (w : Word) (h : st.isMemory w = false) :
    st.read8 w = (Config.environment st.bus w, st.setBus (.read w :: st.bus)) := by
  unfold State.isMemory at h
  unfold State.read8
  split at h <;> simp_all

/-- What a read returns depends on the platform, the memory and the earlier accesses alone. -/
theorem State.read8_fst_congr {s t : State} (w : Word) (hp : t.platform = s.platform) (hm : t.mem = s.mem)
    (hb : t.bus = s.bus) : (t.read8 w).1 = (s.read8 w).1 ∧ (t.read8 w).2.bus = (s.read8 w).2.bus := by
  have hk : t.kind w = s.kind w := State.kind_of_platform hp w
  unfold State.read8
  rw [hk]
  split <;> simp [hm, hb]

@[simp] theorem State.write8_a (w : Word) (v : Byte) : (st.write8 w v).a = st.a := by
  unfold State.write8; split <;> rfl
@[simp] theorem State.write8_b (w : Word) (v : Byte) : (st.write8 w v).b = st.b := by
  unfold State.write8; split <;> rfl
@[simp] theorem State.write8_dp (w : Word) (v : Byte) : (st.write8 w v).dp = st.dp := by
  unfold State.write8; split <;> rfl
@[simp] theorem State.write8_cc (w : Word) (v : Byte) : (st.write8 w v).cc = st.cc := by
  unfold State.write8; split <;> rfl
@[simp] theorem State.write8_x (w : Word) (v : Byte) : (st.write8 w v).x = st.x := by
  unfold State.write8; split <;> rfl
@[simp] theorem State.write8_y (w : Word) (v : Byte) : (st.write8 w v).y = st.y := by
  unfold State.write8; split <;> rfl
@[simp] theorem State.write8_u (w : Word) (v : Byte) : (st.write8 w v).u = st.u := by
  unfold State.write8; split <;> rfl
@[simp] theorem State.write8_s (w : Word) (v : Byte) : (st.write8 w v).s = st.s := by
  unfold State.write8; split <;> rfl
@[simp] theorem State.write8_pc (w : Word) (v : Byte) : (st.write8 w v).pc = st.pc := by
  unfold State.write8; split <;> rfl
@[simp] theorem State.write8_nmiArmed (w : Word) (v : Byte) : (st.write8 w v).nmiArmed = st.nmiArmed := by
  unfold State.write8; split <;> rfl
@[simp] theorem State.write8_nmiPending (w : Word) (v : Byte) : (st.write8 w v).nmiPending = st.nmiPending := by
  unfold State.write8; split <;> rfl
@[simp] theorem State.write8_wait (w : Word) (v : Byte) : (st.write8 w v).wait = st.wait := by
  unfold State.write8; split <;> rfl
@[simp] theorem State.write8_platform (w : Word) (v : Byte) : (st.write8 w v).platform = st.platform := by
  unfold State.write8; split <;> rfl
@[simp] theorem State.write8_inputs (w : Word) (v : Byte) : (st.write8 w v).inputs = st.inputs := by
  unfold State.write8; split <;> rfl
@[simp] theorem State.write8_draws (w : Word) (v : Byte) : (st.write8 w v).draws = st.draws := by
  unfold State.write8; split <;> rfl

/-- A write changes memory and the record of the environment's accesses alone. -/
theorem State.write8_eq (w : Word) (v : Byte) :
    st.write8 w v = (st.setMem (st.write8 w v).mem).setBus (st.write8 w v).bus := by
  unfold State.write8
  split <;> rfl

/-- The bytes of memory after a write: RAM takes the byte, every other kind of address and every other address is as it
was (20 R54, R59). -/
theorem State.read_write8 (w b : Word) (v : Byte) :
    (st.write8 w v).mem.read b.toNat = if b = w ∧ st.kind w = .ram then v else st.mem.read b.toNat := by
  have hne : b.toNat = w.toNat ↔ b = w := ⟨fun h => BitVec.eq_of_toNat_eq h, fun h => by rw [h]⟩
  unfold State.write8
  split <;> rename_i h <;> simp [h, Memory.read_write, hne]

/-- A write keeps the canonical form of memory. -/
theorem State.write8_wf (w : Word) (v : Byte) (h : st.mem.wf = true) : (st.write8 w v).mem.wf = true := by
  unfold State.write8
  split <;> simp [h, Memory.wf_write]

/-! ## Two bytes -/

@[simp] theorem State.read16_a (w : Word) : (st.read16 w).2.a = st.a := by simp [State.read16]
@[simp] theorem State.read16_b (w : Word) : (st.read16 w).2.b = st.b := by simp [State.read16]
@[simp] theorem State.read16_dp (w : Word) : (st.read16 w).2.dp = st.dp := by simp [State.read16]
@[simp] theorem State.read16_cc (w : Word) : (st.read16 w).2.cc = st.cc := by simp [State.read16]
@[simp] theorem State.read16_x (w : Word) : (st.read16 w).2.x = st.x := by simp [State.read16]
@[simp] theorem State.read16_y (w : Word) : (st.read16 w).2.y = st.y := by simp [State.read16]
@[simp] theorem State.read16_u (w : Word) : (st.read16 w).2.u = st.u := by simp [State.read16]
@[simp] theorem State.read16_s (w : Word) : (st.read16 w).2.s = st.s := by simp [State.read16]
@[simp] theorem State.read16_pc (w : Word) : (st.read16 w).2.pc = st.pc := by simp [State.read16]
@[simp] theorem State.read16_nmiArmed (w : Word) : (st.read16 w).2.nmiArmed = st.nmiArmed := by simp [State.read16]
@[simp] theorem State.read16_nmiPending (w : Word) : (st.read16 w).2.nmiPending = st.nmiPending := by simp [State.read16]
@[simp] theorem State.read16_wait (w : Word) : (st.read16 w).2.wait = st.wait := by simp [State.read16]
@[simp] theorem State.read16_mem (w : Word) : (st.read16 w).2.mem = st.mem := by simp [State.read16]
@[simp] theorem State.read16_platform (w : Word) : (st.read16 w).2.platform = st.platform := by simp [State.read16]
@[simp] theorem State.read16_inputs (w : Word) : (st.read16 w).2.inputs = st.inputs := by simp [State.read16]
@[simp] theorem State.read16_draws (w : Word) : (st.read16 w).2.draws = st.draws := by simp [State.read16]

@[simp] theorem State.write16_a (w v : Word) : (st.write16 w v).a = st.a := by simp [State.write16]
@[simp] theorem State.write16_b (w v : Word) : (st.write16 w v).b = st.b := by simp [State.write16]
@[simp] theorem State.write16_dp (w v : Word) : (st.write16 w v).dp = st.dp := by simp [State.write16]
@[simp] theorem State.write16_cc (w v : Word) : (st.write16 w v).cc = st.cc := by simp [State.write16]
@[simp] theorem State.write16_x (w v : Word) : (st.write16 w v).x = st.x := by simp [State.write16]
@[simp] theorem State.write16_y (w v : Word) : (st.write16 w v).y = st.y := by simp [State.write16]
@[simp] theorem State.write16_u (w v : Word) : (st.write16 w v).u = st.u := by simp [State.write16]
@[simp] theorem State.write16_s (w v : Word) : (st.write16 w v).s = st.s := by simp [State.write16]
@[simp] theorem State.write16_pc (w v : Word) : (st.write16 w v).pc = st.pc := by simp [State.write16]
@[simp] theorem State.write16_nmiArmed (w v : Word) : (st.write16 w v).nmiArmed = st.nmiArmed := by simp [State.write16]
@[simp] theorem State.write16_nmiPending (w v : Word) : (st.write16 w v).nmiPending = st.nmiPending := by simp [State.write16]
@[simp] theorem State.write16_wait (w v : Word) : (st.write16 w v).wait = st.wait := by simp [State.write16]
@[simp] theorem State.write16_platform (w v : Word) : (st.write16 w v).platform = st.platform := by simp [State.write16]
@[simp] theorem State.write16_inputs (w v : Word) : (st.write16 w v).inputs = st.inputs := by simp [State.write16]
@[simp] theorem State.write16_draws (w v : Word) : (st.write16 w v).draws = st.draws := by simp [State.write16]

@[simp] theorem State.read8_kind (w b : Word) : (st.read8 w).2.kind b = st.kind b := State.kind_of_platform (by simp) b
@[simp] theorem State.write8_kind (w : Word) (v : Byte) (b : Word) : (st.write8 w v).kind b = st.kind b :=
  State.kind_of_platform (by simp) b
@[simp] theorem State.read16_kind (w b : Word) : (st.read16 w).2.kind b = st.kind b := State.kind_of_platform (by simp) b
@[simp] theorem State.write16_kind (w v b : Word) : (st.write16 w v).kind b = st.kind b :=
  State.kind_of_platform (by simp) b
@[simp] theorem State.read8_isMemory (w b : Word) : (st.read8 w).2.isMemory b = st.isMemory b :=
  State.isMemory_of_platform (by simp) b
@[simp] theorem State.read16_isMemory (w b : Word) : (st.read16 w).2.isMemory b = st.isMemory b :=
  State.isMemory_of_platform (by simp) b

/-- A two-byte read changes nothing but the record of the environment's accesses. -/
theorem State.read16_snd (a : Word) : (st.read16 a).2 = st.setBus (st.read16 a).2.bus := by
  have h1 : ((st.read8 a).2.read8 (a + 1)).2 = (st.read8 a).2.setBus ((st.read8 a).2.read8 (a + 1)).2.bus :=
    State.read8_snd _ _
  have h2 := State.read8_snd st a
  show ((st.read8 a).2.read8 (a + 1)).2 = st.setBus ((st.read8 a).2.read8 (a + 1)).2.bus
  rw [h1]
  generalize ((st.read8 a).2.read8 (a + 1)).2.bus = bus
  rw [h2]
  rfl

/-- The word of RAM or ROM, high byte at the lower address (20 R53). -/
theorem State.read16_of_isMemory (w : Word) (h : st.isMemory w = true) (h' : st.isMemory (w + 1) = true) :
    st.read16 w = (st.mem.word w, st) := by
  rw [State.read16, State.read8_of_isMemory st w h, State.read8_of_isMemory st (w + 1) h', Memory.word]

theorem State.read16_fst_congr {s t : State} (w : Word) (hp : t.platform = s.platform) (hm : t.mem = s.mem)
    (hb : t.bus = s.bus) : (t.read16 w).1 = (s.read16 w).1 ∧ (t.read16 w).2.bus = (s.read16 w).2.bus := by
  have h1 := State.read8_fst_congr w hp hm hb
  have h2 := State.read8_fst_congr (s := (s.read8 w).2) (t := (t.read8 w).2) (w + 1) (by simp [hp]) (by simp [hm]) h1.2
  exact ⟨by simp only [State.read16, h1.1, h2.1], h2.2⟩

/-- The bytes of memory after a two-byte write (20 R54): where both addresses are one, which they never are, the low byte
would win. -/
theorem State.read_write16 (w v b : Word) :
    (st.write16 w v).mem.read b.toNat =
      if b = w + 1 ∧ st.kind (w + 1) = .ram then loByte v
      else if b = w ∧ st.kind w = .ram then hiByte v
      else st.mem.read b.toNat := by
  simp [State.write16, State.read_write8]

theorem State.write16_wf (w v : Word) (h : st.mem.wf = true) : (st.write16 w v).mem.wf = true := by
  simp [State.write16, State.write8_wf, h]

/-! ## Vectors and fetches -/

@[simp] theorem State.takeVector_a (w : Word) : (st.takeVector w).a = st.a := by simp [State.takeVector]
@[simp] theorem State.takeVector_b (w : Word) : (st.takeVector w).b = st.b := by simp [State.takeVector]
@[simp] theorem State.takeVector_dp (w : Word) : (st.takeVector w).dp = st.dp := by simp [State.takeVector]
@[simp] theorem State.takeVector_cc (w : Word) : (st.takeVector w).cc = st.cc := by simp [State.takeVector]
@[simp] theorem State.takeVector_x (w : Word) : (st.takeVector w).x = st.x := by simp [State.takeVector]
@[simp] theorem State.takeVector_y (w : Word) : (st.takeVector w).y = st.y := by simp [State.takeVector]
@[simp] theorem State.takeVector_u (w : Word) : (st.takeVector w).u = st.u := by simp [State.takeVector]
@[simp] theorem State.takeVector_s (w : Word) : (st.takeVector w).s = st.s := by simp [State.takeVector]
@[simp] theorem State.takeVector_nmiArmed (w : Word) : (st.takeVector w).nmiArmed = st.nmiArmed := by simp [State.takeVector]
@[simp] theorem State.takeVector_nmiPending (w : Word) : (st.takeVector w).nmiPending = st.nmiPending := by simp [State.takeVector]
@[simp] theorem State.takeVector_wait (w : Word) : (st.takeVector w).wait = st.wait := by simp [State.takeVector]
@[simp] theorem State.takeVector_mem (w : Word) : (st.takeVector w).mem = st.mem := by simp [State.takeVector]
@[simp] theorem State.takeVector_platform (w : Word) : (st.takeVector w).platform = st.platform := by simp [State.takeVector]
@[simp] theorem State.takeVector_inputs (w : Word) : (st.takeVector w).inputs = st.inputs := by simp [State.takeVector]
@[simp] theorem State.takeVector_draws (w : Word) : (st.takeVector w).draws = st.draws := by simp [State.takeVector]

/-- Taking a vector in RAM or ROM loads PC with the word there (60 R402). -/
theorem State.takeVector_pc (w : Word) (h : st.isMemory w = true) (h' : st.isMemory (w + 1) = true) :
    (st.takeVector w).pc = st.mem.word w := by
  rw [State.takeVector, State.read16_of_isMemory st w h h', State.setPc_pc]

@[simp] theorem State.fetch8_a : st.fetch8.2.a = st.a := by simp [State.fetch8]
@[simp] theorem State.fetch8_b : st.fetch8.2.b = st.b := by simp [State.fetch8]
@[simp] theorem State.fetch8_dp : st.fetch8.2.dp = st.dp := by simp [State.fetch8]
@[simp] theorem State.fetch8_cc : st.fetch8.2.cc = st.cc := by simp [State.fetch8]
@[simp] theorem State.fetch8_x : st.fetch8.2.x = st.x := by simp [State.fetch8]
@[simp] theorem State.fetch8_y : st.fetch8.2.y = st.y := by simp [State.fetch8]
@[simp] theorem State.fetch8_u : st.fetch8.2.u = st.u := by simp [State.fetch8]
@[simp] theorem State.fetch8_s : st.fetch8.2.s = st.s := by simp [State.fetch8]
@[simp] theorem State.fetch8_nmiArmed : st.fetch8.2.nmiArmed = st.nmiArmed := by simp [State.fetch8]
@[simp] theorem State.fetch8_nmiPending : st.fetch8.2.nmiPending = st.nmiPending := by simp [State.fetch8]
@[simp] theorem State.fetch8_wait : st.fetch8.2.wait = st.wait := by simp [State.fetch8]
@[simp] theorem State.fetch8_mem : st.fetch8.2.mem = st.mem := by simp [State.fetch8]
@[simp] theorem State.fetch8_platform : st.fetch8.2.platform = st.platform := by simp [State.fetch8]
@[simp] theorem State.fetch8_inputs : st.fetch8.2.inputs = st.inputs := by simp [State.fetch8]
@[simp] theorem State.fetch8_draws : st.fetch8.2.draws = st.draws := by simp [State.fetch8]

/-- A fetched byte leaves PC one higher, modulo 2^16 (00 R10, 10 R26). -/
@[simp] theorem State.fetch8_pc : st.fetch8.2.pc = st.pc + 1 := rfl

/-- A fetch changes PC and the record of the environment's accesses alone. -/
theorem State.fetchBytes_snd (n : Nat) :
    (State.fetchBytes n st).2 =
      (st.setPc (st.pc + BitVec.ofNat 16 n)).setBus (State.fetchBytes n st).2.bus := by
  induction n generalizing st with
  | zero => simp [State.fetchBytes, State.setPc, State.setBus]
  | succ n ih =>
    simp only [State.fetchBytes]
    rw [ih]
    have h : st.pc + 1 + BitVec.ofNat 16 n = st.pc + BitVec.ofNat 16 (n + 1) := by
      rw [BitVec.add_assoc]
      congr 1
      apply BitVec.eq_of_toNat_eq
      simp [Nat.add_comm]
    simp only [State.fetch8, State.setPc_pc, h]
    rw [State.read8_snd]
    rfl

theorem State.fetchBytes_length (n : Nat) : (State.fetchBytes n st).1.length = n := by
  induction n generalizing st with
  | zero => rfl
  | succ n ih => simp [State.fetchBytes, ih]

@[simp] theorem State.fetchBytes_a (n : Nat) : (State.fetchBytes n st).2.a = st.a := by
  rw [State.fetchBytes_snd]; rfl
@[simp] theorem State.fetchBytes_b (n : Nat) : (State.fetchBytes n st).2.b = st.b := by
  rw [State.fetchBytes_snd]; rfl
@[simp] theorem State.fetchBytes_dp (n : Nat) : (State.fetchBytes n st).2.dp = st.dp := by
  rw [State.fetchBytes_snd]; rfl
@[simp] theorem State.fetchBytes_cc (n : Nat) : (State.fetchBytes n st).2.cc = st.cc := by
  rw [State.fetchBytes_snd]; rfl
@[simp] theorem State.fetchBytes_x (n : Nat) : (State.fetchBytes n st).2.x = st.x := by
  rw [State.fetchBytes_snd]; rfl
@[simp] theorem State.fetchBytes_y (n : Nat) : (State.fetchBytes n st).2.y = st.y := by
  rw [State.fetchBytes_snd]; rfl
@[simp] theorem State.fetchBytes_u (n : Nat) : (State.fetchBytes n st).2.u = st.u := by
  rw [State.fetchBytes_snd]; rfl
@[simp] theorem State.fetchBytes_s (n : Nat) : (State.fetchBytes n st).2.s = st.s := by
  rw [State.fetchBytes_snd]; rfl
@[simp] theorem State.fetchBytes_nmiArmed (n : Nat) : (State.fetchBytes n st).2.nmiArmed = st.nmiArmed := by
  rw [State.fetchBytes_snd]; rfl
@[simp] theorem State.fetchBytes_nmiPending (n : Nat) : (State.fetchBytes n st).2.nmiPending = st.nmiPending := by
  rw [State.fetchBytes_snd]; rfl
@[simp] theorem State.fetchBytes_wait (n : Nat) : (State.fetchBytes n st).2.wait = st.wait := by
  rw [State.fetchBytes_snd]; rfl
@[simp] theorem State.fetchBytes_mem (n : Nat) : (State.fetchBytes n st).2.mem = st.mem := by
  rw [State.fetchBytes_snd]; rfl
@[simp] theorem State.fetchBytes_platform (n : Nat) : (State.fetchBytes n st).2.platform = st.platform := by
  rw [State.fetchBytes_snd]; rfl
@[simp] theorem State.fetchBytes_inputs (n : Nat) : (State.fetchBytes n st).2.inputs = st.inputs := by
  rw [State.fetchBytes_snd]; rfl
@[simp] theorem State.fetchBytes_draws (n : Nat) : (State.fetchBytes n st).2.draws = st.draws := by
  rw [State.fetchBytes_snd]; rfl

/-- `n` fetched bytes leave PC `n` higher, modulo 2^16. -/
@[simp] theorem State.fetchBytes_pc (n : Nat) : (State.fetchBytes n st).2.pc = st.pc + BitVec.ofNat 16 n := by
  rw [State.fetchBytes_snd]; rfl

end Sys2Proof.Machine
end

