-- ==== Sys2Proof/Laws/Operands.lean ====
section
/-! SUPPORT. What reaching an operand does: it writes back the base register an auto mode updates, and it may add to the
record of the environment's accesses; nothing else changes (30 R88 to R106). -/

namespace Sys2Proof.Machine

variable (st : State)

@[simp] theorem State.updated_a (m : Option (IndexReg × Word)) : (st.updated m).a = st.a := by
  cases m <;> simp [State.updated]
@[simp] theorem State.updated_b (m : Option (IndexReg × Word)) : (st.updated m).b = st.b := by
  cases m <;> simp [State.updated]
@[simp] theorem State.updated_dp (m : Option (IndexReg × Word)) : (st.updated m).dp = st.dp := by
  cases m <;> simp [State.updated]
@[simp] theorem State.updated_cc (m : Option (IndexReg × Word)) : (st.updated m).cc = st.cc := by
  cases m <;> simp [State.updated]
@[simp] theorem State.updated_pc (m : Option (IndexReg × Word)) : (st.updated m).pc = st.pc := by
  cases m <;> simp [State.updated]
@[simp] theorem State.updated_nmiArmed (m : Option (IndexReg × Word)) : (st.updated m).nmiArmed = st.nmiArmed := by
  cases m <;> simp [State.updated]
@[simp] theorem State.updated_nmiPending (m : Option (IndexReg × Word)) : (st.updated m).nmiPending = st.nmiPending := by
  cases m <;> simp [State.updated]
@[simp] theorem State.updated_wait (m : Option (IndexReg × Word)) : (st.updated m).wait = st.wait := by
  cases m <;> simp [State.updated]
@[simp] theorem State.updated_mem (m : Option (IndexReg × Word)) : (st.updated m).mem = st.mem := by
  cases m <;> simp [State.updated]
@[simp] theorem State.updated_platform (m : Option (IndexReg × Word)) : (st.updated m).platform = st.platform := by
  cases m <;> simp [State.updated]
@[simp] theorem State.updated_inputs (m : Option (IndexReg × Word)) : (st.updated m).inputs = st.inputs := by
  cases m <;> simp [State.updated]
@[simp] theorem State.updated_bus (m : Option (IndexReg × Word)) : (st.updated m).bus = st.bus := by
  cases m <;> simp [State.updated]
@[simp] theorem State.updated_draws (m : Option (IndexReg × Word)) : (st.updated m).draws = st.draws := by
  cases m <;> simp [State.updated]

/-- The register side effect of an indexed mode (30 R90 to R93). -/
theorem State.indexedBase_snd (m : Indexed) : (st.indexedBase m).2 = st.updated (indexedUpdate m) := by
  cases m <;> simp [State.indexedBase, indexedUpdate, State.updated, BitVec.sub_eq_add_neg]

/-- Reaching an indexed operand: the base register, then the pointer if there is one. -/
theorem State.eaIndexed_snd (m : Indexed) :
    (st.eaIndexed m).2 = (st.updated (indexedUpdate m)).setBus (st.eaIndexed m).2.bus := by
  unfold State.eaIndexed
  split
  · rw [State.read16_snd, State.indexedBase_snd]; rfl
  · rw [State.indexedBase_snd]; rfl

/-- Reaching a memory operand. -/
theorem State.ea_snd (e : Ea) : (st.ea e).2 = (st.updated (eaUpdate e)).setBus (st.ea e).2.bus := by
  cases e with
  | dir lo => rfl
  | ext a => rfl
  | idx m => exact st.eaIndexed_snd m

/-- Reading an 8-bit operand. -/
theorem State.operand8_snd (o : Src8) : (st.operand8 o).2 = (st.updated (src8Update o)).setBus (st.operand8 o).2.bus := by
  cases o with
  | imm v => rfl
  | mem e =>
    show ((st.ea e).2.read8 (st.ea e).1).2 = (st.updated (eaUpdate e)).setBus ((st.ea e).2.read8 (st.ea e).1).2.bus
    rw [State.read8_snd]
    generalize ((st.ea e).2.read8 (st.ea e).1).2.bus = bus
    rw [State.ea_snd]
    rfl

/-- Reading a 16-bit operand. -/
theorem State.operand16_snd (o : Src16) :
    (st.operand16 o).2 = (st.updated (src16Update o)).setBus (st.operand16 o).2.bus := by
  cases o with
  | imm v => rfl
  | mem e =>
    show ((st.ea e).2.read16 (st.ea e).1).2 = (st.updated (eaUpdate e)).setBus ((st.ea e).2.read16 (st.ea e).1).2.bus
    rw [State.read16_snd]
    generalize ((st.ea e).2.read16 (st.ea e).1).2.bus = bus
    rw [State.ea_snd]
    rfl

@[simp] theorem State.eaIndexed_a (m : Indexed) : (st.eaIndexed m).2.a = st.a := by rw [State.eaIndexed_snd]; simp
@[simp] theorem State.eaIndexed_b (m : Indexed) : (st.eaIndexed m).2.b = st.b := by rw [State.eaIndexed_snd]; simp
@[simp] theorem State.eaIndexed_dp (m : Indexed) : (st.eaIndexed m).2.dp = st.dp := by rw [State.eaIndexed_snd]; simp
@[simp] theorem State.eaIndexed_cc (m : Indexed) : (st.eaIndexed m).2.cc = st.cc := by rw [State.eaIndexed_snd]; simp
@[simp] theorem State.eaIndexed_pc (m : Indexed) : (st.eaIndexed m).2.pc = st.pc := by rw [State.eaIndexed_snd]; simp
@[simp] theorem State.eaIndexed_nmiArmed (m : Indexed) : (st.eaIndexed m).2.nmiArmed = st.nmiArmed := by rw [State.eaIndexed_snd]; simp
@[simp] theorem State.eaIndexed_nmiPending (m : Indexed) : (st.eaIndexed m).2.nmiPending = st.nmiPending := by rw [State.eaIndexed_snd]; simp
@[simp] theorem State.eaIndexed_wait (m : Indexed) : (st.eaIndexed m).2.wait = st.wait := by rw [State.eaIndexed_snd]; simp
@[simp] theorem State.eaIndexed_mem (m : Indexed) : (st.eaIndexed m).2.mem = st.mem := by rw [State.eaIndexed_snd]; simp
@[simp] theorem State.eaIndexed_platform (m : Indexed) : (st.eaIndexed m).2.platform = st.platform := by rw [State.eaIndexed_snd]; simp
@[simp] theorem State.eaIndexed_inputs (m : Indexed) : (st.eaIndexed m).2.inputs = st.inputs := by rw [State.eaIndexed_snd]; simp
@[simp] theorem State.eaIndexed_draws (m : Indexed) : (st.eaIndexed m).2.draws = st.draws := by rw [State.eaIndexed_snd]; simp

@[simp] theorem State.ea_a (e : Ea) : (st.ea e).2.a = st.a := by rw [State.ea_snd]; simp
@[simp] theorem State.ea_b (e : Ea) : (st.ea e).2.b = st.b := by rw [State.ea_snd]; simp
@[simp] theorem State.ea_dp (e : Ea) : (st.ea e).2.dp = st.dp := by rw [State.ea_snd]; simp
@[simp] theorem State.ea_cc (e : Ea) : (st.ea e).2.cc = st.cc := by rw [State.ea_snd]; simp
@[simp] theorem State.ea_pc (e : Ea) : (st.ea e).2.pc = st.pc := by rw [State.ea_snd]; simp
@[simp] theorem State.ea_nmiArmed (e : Ea) : (st.ea e).2.nmiArmed = st.nmiArmed := by rw [State.ea_snd]; simp
@[simp] theorem State.ea_nmiPending (e : Ea) : (st.ea e).2.nmiPending = st.nmiPending := by rw [State.ea_snd]; simp
@[simp] theorem State.ea_wait (e : Ea) : (st.ea e).2.wait = st.wait := by rw [State.ea_snd]; simp
@[simp] theorem State.ea_mem (e : Ea) : (st.ea e).2.mem = st.mem := by rw [State.ea_snd]; simp
@[simp] theorem State.ea_platform (e : Ea) : (st.ea e).2.platform = st.platform := by rw [State.ea_snd]; simp
@[simp] theorem State.ea_inputs (e : Ea) : (st.ea e).2.inputs = st.inputs := by rw [State.ea_snd]; simp
@[simp] theorem State.ea_draws (e : Ea) : (st.ea e).2.draws = st.draws := by rw [State.ea_snd]; simp

@[simp] theorem State.operand8_a (o : Src8) : (st.operand8 o).2.a = st.a := by rw [State.operand8_snd]; simp
@[simp] theorem State.operand8_b (o : Src8) : (st.operand8 o).2.b = st.b := by rw [State.operand8_snd]; simp
@[simp] theorem State.operand8_dp (o : Src8) : (st.operand8 o).2.dp = st.dp := by rw [State.operand8_snd]; simp
@[simp] theorem State.operand8_cc (o : Src8) : (st.operand8 o).2.cc = st.cc := by rw [State.operand8_snd]; simp
@[simp] theorem State.operand8_pc (o : Src8) : (st.operand8 o).2.pc = st.pc := by rw [State.operand8_snd]; simp
@[simp] theorem State.operand8_nmiArmed (o : Src8) : (st.operand8 o).2.nmiArmed = st.nmiArmed := by rw [State.operand8_snd]; simp
@[simp] theorem State.operand8_nmiPending (o : Src8) : (st.operand8 o).2.nmiPending = st.nmiPending := by rw [State.operand8_snd]; simp
@[simp] theorem State.operand8_wait (o : Src8) : (st.operand8 o).2.wait = st.wait := by rw [State.operand8_snd]; simp
@[simp] theorem State.operand8_mem (o : Src8) : (st.operand8 o).2.mem = st.mem := by rw [State.operand8_snd]; simp
@[simp] theorem State.operand8_platform (o : Src8) : (st.operand8 o).2.platform = st.platform := by rw [State.operand8_snd]; simp
@[simp] theorem State.operand8_inputs (o : Src8) : (st.operand8 o).2.inputs = st.inputs := by rw [State.operand8_snd]; simp
@[simp] theorem State.operand8_draws (o : Src8) : (st.operand8 o).2.draws = st.draws := by rw [State.operand8_snd]; simp

@[simp] theorem State.operand16_a (o : Src16) : (st.operand16 o).2.a = st.a := by rw [State.operand16_snd]; simp
@[simp] theorem State.operand16_b (o : Src16) : (st.operand16 o).2.b = st.b := by rw [State.operand16_snd]; simp
@[simp] theorem State.operand16_dp (o : Src16) : (st.operand16 o).2.dp = st.dp := by rw [State.operand16_snd]; simp
@[simp] theorem State.operand16_cc (o : Src16) : (st.operand16 o).2.cc = st.cc := by rw [State.operand16_snd]; simp
@[simp] theorem State.operand16_pc (o : Src16) : (st.operand16 o).2.pc = st.pc := by rw [State.operand16_snd]; simp
@[simp] theorem State.operand16_nmiArmed (o : Src16) : (st.operand16 o).2.nmiArmed = st.nmiArmed := by rw [State.operand16_snd]; simp
@[simp] theorem State.operand16_nmiPending (o : Src16) : (st.operand16 o).2.nmiPending = st.nmiPending := by rw [State.operand16_snd]; simp
@[simp] theorem State.operand16_wait (o : Src16) : (st.operand16 o).2.wait = st.wait := by rw [State.operand16_snd]; simp
@[simp] theorem State.operand16_mem (o : Src16) : (st.operand16 o).2.mem = st.mem := by rw [State.operand16_snd]; simp
@[simp] theorem State.operand16_platform (o : Src16) : (st.operand16 o).2.platform = st.platform := by rw [State.operand16_snd]; simp
@[simp] theorem State.operand16_inputs (o : Src16) : (st.operand16 o).2.inputs = st.inputs := by rw [State.operand16_snd]; simp
@[simp] theorem State.operand16_draws (o : Src16) : (st.operand16 o).2.draws = st.draws := by rw [State.operand16_snd]; simp

/-- The accumulators are no index register: reaching an operand leaves them alone. -/
@[simp] theorem State.updated_acc (m : Option (IndexReg × Word)) (r : Acc) : (st.updated m).acc r = st.acc r := by
  cases r <;> simp [State.acc]
@[simp] theorem State.operand8_acc (o : Src8) (r : Acc) : (st.operand8 o).2.acc r = st.acc r := by
  cases r <;> simp [State.acc]
@[simp] theorem State.ea_acc (e : Ea) (r : Acc) : (st.ea e).2.acc r = st.acc r := by cases r <;> simp [State.acc]
@[simp] theorem State.operand16_d (o : Src16) : (st.operand16 o).2.d = st.d := by simp [State.d]

/-- A register read after an operand has been reached shows the write-back of its base register. -/
theorem State.ea_readReg (e : Ea) (r : Reg) : (st.ea e).2.readReg r = (st.updated (eaUpdate e)).readReg r := by
  rw [State.ea_snd]; cases r <;> rfl
theorem State.operand16_readReg (o : Src16) (r : Reg) :
    (st.operand16 o).2.readReg r = (st.updated (src16Update o)).readReg r := by
  rw [State.operand16_snd]; cases r <;> rfl

@[simp] theorem State.ea_kind (e : Ea) (b : Word) : (st.ea e).2.kind b = st.kind b := State.kind_of_platform (by simp) b

/-! ## Frames -/

theorem Keeps.refl (fs : List Field) (s : State) : Keeps fs s s := by
  intro f _; cases f <;> rfl

theorem Keeps.trans {fs : List Field} {s t u : State} (h : Keeps fs s t) (h' : Keeps fs t u) : Keeps fs s u := by
  intro f hf
  have h1 := h f hf
  have h2 := h' f hf
  cases f <;> exact h2.trans h1

theorem Keeps.mono {fs gs : List Field} {s t : State} (h : Keeps fs s t) (hs : ∀ f, f ∈ fs → f ∈ gs) : Keeps gs s t :=
  fun f hf => h f fun hm => hf (hs f hm)

/-- A change of the record of the environment's accesses is no change of a field a frame speaks of. -/
theorem Keeps.of_setBus {fs : List Field} {s t : State} {b : List BusAccess} (h : Keeps fs (s.setBus b) t) :
    Keeps fs s t := by
  intro f hf
  have h1 := h f hf
  cases f <;> exact h1

end Sys2Proof.Machine
end

