-- ==== Sys2Proof/Laws/Stack.lean ====
section
/-! SUPPORT. What the stack operations do: pushes and pulls of one and two bytes, of a register list and of interrupt
frames, each told by the bytes that are stacked and the registers that change. -/

namespace Sys2Proof.Machine

variable (st : State)

theorem succ_address (a : Word) (j : Nat) : a + 1 + BitVec.ofNat 16 j = a + BitVec.ofNat 16 (j + 1) := by
  rw [BitVec.ofNat_add]
  generalize BitVec.ofNat 16 j = n
  bv_omega

theorem mem_addressesFrom (n : Nat) (a w : Word) : w ∈ addressesFrom n a ↔ ∃ j, j < n ∧ w = a + BitVec.ofNat 16 j := by
  induction n generalizing a with
  | zero => simp [addressesFrom]
  | succ n ih =>
    rw [addressesFrom, List.mem_cons, ih]
    constructor
    · rintro (rfl | ⟨j, hj, rfl⟩)
      · exact ⟨0, by omega, by simp⟩
      · exact ⟨j + 1, by omega, succ_address a j⟩
    · rintro ⟨j, hj, rfl⟩
      cases j with
      | zero => left; simp
      | succ j => right; exact ⟨j, by omega, (succ_address a j).symm⟩

/-! ## One byte and two -/

@[simp] theorem State.push8_a (k : Stack) (v : Byte) : (st.push8 k v).a = st.a := by simp [State.push8]
@[simp] theorem State.push8_b (k : Stack) (v : Byte) : (st.push8 k v).b = st.b := by simp [State.push8]
@[simp] theorem State.push8_dp (k : Stack) (v : Byte) : (st.push8 k v).dp = st.dp := by simp [State.push8]
@[simp] theorem State.push8_cc (k : Stack) (v : Byte) : (st.push8 k v).cc = st.cc := by simp [State.push8]
@[simp] theorem State.push8_x (k : Stack) (v : Byte) : (st.push8 k v).x = st.x := by simp [State.push8]
@[simp] theorem State.push8_y (k : Stack) (v : Byte) : (st.push8 k v).y = st.y := by simp [State.push8]
@[simp] theorem State.push8_pc (k : Stack) (v : Byte) : (st.push8 k v).pc = st.pc := by simp [State.push8]
@[simp] theorem State.push8_nmiArmed (k : Stack) (v : Byte) : (st.push8 k v).nmiArmed = st.nmiArmed := by simp [State.push8]
@[simp] theorem State.push8_nmiPending (k : Stack) (v : Byte) : (st.push8 k v).nmiPending = st.nmiPending := by simp [State.push8]
@[simp] theorem State.push8_wait (k : Stack) (v : Byte) : (st.push8 k v).wait = st.wait := by simp [State.push8]
@[simp] theorem State.push8_platform (k : Stack) (v : Byte) : (st.push8 k v).platform = st.platform := by simp [State.push8]
@[simp] theorem State.push8_inputs (k : Stack) (v : Byte) : (st.push8 k v).inputs = st.inputs := by simp [State.push8]
@[simp] theorem State.push8_draws (k : Stack) (v : Byte) : (st.push8 k v).draws = st.draws := by simp [State.push8]

/-- A push leaves its stack pointer one lower, modulo 2^16 (00 R11). -/
@[simp] theorem State.push8_sp (k : Stack) (v : Byte) : (st.push8 k v).sp k = st.sp k - 1 := by
  cases k <;> simp [State.push8, State.sp, State.setSp]
@[simp] theorem State.push8_sp_other (k : Stack) (v : Byte) : (st.push8 k v).sp k.other = st.sp k.other := by
  cases k <;> simp [State.push8, State.sp, State.setSp, Stack.other]
@[simp] theorem State.push8_kind (k : Stack) (v : Byte) (b : Word) : (st.push8 k v).kind b = st.kind b :=
  State.kind_of_platform (by simp) b

/-- The bytes of memory after a push. -/
theorem State.read_push8 (k : Stack) (v : Byte) (b : Word) :
    (st.push8 k v).mem.read b.toNat =
      if b = st.sp k - 1 ∧ st.kind (st.sp k - 1) = .ram then v else st.mem.read b.toNat := by
  have h : (st.setSp k (st.sp k - 1)).kind (st.sp k - 1) = st.kind (st.sp k - 1) := State.kind_of_platform (by simp) _
  simp only [State.push8, State.read_write8, State.setSp_mem, h]

theorem State.push8_wf (k : Stack) (v : Byte) (h : st.mem.wf = true) : (st.push8 k v).mem.wf = true := by
  simp [State.push8, State.write8_wf, h]

/-! ## Many bytes -/

/-- Bytes pushed one after another, the first of the list first. -/
def State.pushBytes (st : State) (k : Stack) : List Byte → State
  | [] => st
  | v :: rest => State.pushBytes (st.push8 k v) k rest

@[simp] theorem State.pushBytes_nil (k : Stack) : st.pushBytes k [] = st := rfl
theorem State.pushBytes_cons (k : Stack) (v : Byte) (bs : List Byte) :
    st.pushBytes k (v :: bs) = (st.push8 k v).pushBytes k bs := rfl
theorem State.pushBytes_append (k : Stack) (xs ys : List Byte) :
    st.pushBytes k (xs ++ ys) = (st.pushBytes k xs).pushBytes k ys := by
  induction xs generalizing st with
  | nil => rfl
  | cons v rest ih => exact ih (st.push8 k v)

/-- A pushed word is its low byte, then its high byte (00 R11). -/
theorem State.push16_eq (k : Stack) (v : Word) : st.push16 k v = st.pushBytes k [loByte v, hiByte v] := rfl
theorem State.push8_eq (k : Stack) (v : Byte) : st.push8 k v = st.pushBytes k [v] := rfl

@[simp] theorem State.pushBytes_a (k : Stack) (bs : List Byte) : (st.pushBytes k bs).a = st.a := by
  induction bs generalizing st with
  | nil => rfl
  | cons v rest ih => rw [State.pushBytes_cons, ih, State.push8_a]
@[simp] theorem State.pushBytes_b (k : Stack) (bs : List Byte) : (st.pushBytes k bs).b = st.b := by
  induction bs generalizing st with
  | nil => rfl
  | cons v rest ih => rw [State.pushBytes_cons, ih, State.push8_b]
@[simp] theorem State.pushBytes_dp (k : Stack) (bs : List Byte) : (st.pushBytes k bs).dp = st.dp := by
  induction bs generalizing st with
  | nil => rfl
  | cons v rest ih => rw [State.pushBytes_cons, ih, State.push8_dp]
@[simp] theorem State.pushBytes_cc (k : Stack) (bs : List Byte) : (st.pushBytes k bs).cc = st.cc := by
  induction bs generalizing st with
  | nil => rfl
  | cons v rest ih => rw [State.pushBytes_cons, ih, State.push8_cc]
@[simp] theorem State.pushBytes_x (k : Stack) (bs : List Byte) : (st.pushBytes k bs).x = st.x := by
  induction bs generalizing st with
  | nil => rfl
  | cons v rest ih => rw [State.pushBytes_cons, ih, State.push8_x]
@[simp] theorem State.pushBytes_y (k : Stack) (bs : List Byte) : (st.pushBytes k bs).y = st.y := by
  induction bs generalizing st with
  | nil => rfl
  | cons v rest ih => rw [State.pushBytes_cons, ih, State.push8_y]
@[simp] theorem State.pushBytes_pc (k : Stack) (bs : List Byte) : (st.pushBytes k bs).pc = st.pc := by
  induction bs generalizing st with
  | nil => rfl
  | cons v rest ih => rw [State.pushBytes_cons, ih, State.push8_pc]
@[simp] theorem State.pushBytes_nmiArmed (k : Stack) (bs : List Byte) : (st.pushBytes k bs).nmiArmed = st.nmiArmed := by
  induction bs generalizing st with
  | nil => rfl
  | cons v rest ih => rw [State.pushBytes_cons, ih, State.push8_nmiArmed]
@[simp] theorem State.pushBytes_nmiPending (k : Stack) (bs : List Byte) : (st.pushBytes k bs).nmiPending = st.nmiPending := by
  induction bs generalizing st with
  | nil => rfl
  | cons v rest ih => rw [State.pushBytes_cons, ih, State.push8_nmiPending]
@[simp] theorem State.pushBytes_wait (k : Stack) (bs : List Byte) : (st.pushBytes k bs).wait = st.wait := by
  induction bs generalizing st with
  | nil => rfl
  | cons v rest ih => rw [State.pushBytes_cons, ih, State.push8_wait]
@[simp] theorem State.pushBytes_platform (k : Stack) (bs : List Byte) : (st.pushBytes k bs).platform = st.platform := by
  induction bs generalizing st with
  | nil => rfl
  | cons v rest ih => rw [State.pushBytes_cons, ih, State.push8_platform]
@[simp] theorem State.pushBytes_inputs (k : Stack) (bs : List Byte) : (st.pushBytes k bs).inputs = st.inputs := by
  induction bs generalizing st with
  | nil => rfl
  | cons v rest ih => rw [State.pushBytes_cons, ih, State.push8_inputs]
@[simp] theorem State.pushBytes_draws (k : Stack) (bs : List Byte) : (st.pushBytes k bs).draws = st.draws := by
  induction bs generalizing st with
  | nil => rfl
  | cons v rest ih => rw [State.pushBytes_cons, ih, State.push8_draws]

@[simp] theorem State.pushBytes_sp_other (k : Stack) (bs : List Byte) :
    (st.pushBytes k bs).sp k.other = st.sp k.other := by
  induction bs generalizing st with
  | nil => rfl
  | cons v rest ih => rw [State.pushBytes_cons, ih, State.push8_sp_other]

/-- Pushed bytes leave the stack pointer lower by their number. -/
theorem State.pushBytes_sp (k : Stack) (bs : List Byte) :
    (st.pushBytes k bs).sp k = st.sp k - BitVec.ofNat 16 bs.length := by
  induction bs generalizing st with
  | nil => simp
  | cons v rest ih =>
    rw [State.pushBytes_cons, ih, State.push8_sp, List.length_cons, BitVec.ofNat_add]
    generalize BitVec.ofNat 16 rest.length = n
    bv_omega

@[simp] theorem State.pushBytes_kind (k : Stack) (bs : List Byte) (b : Word) :
    (st.pushBytes k bs).kind b = st.kind b := State.kind_of_platform (by simp) b

theorem State.pushBytes_wf (k : Stack) (bs : List Byte) (h : st.mem.wf = true) :
    (st.pushBytes k bs).mem.wf = true := by
  induction bs generalizing st with
  | nil => exact h
  | cons v rest ih => exact ih _ (st.push8_wf k v h)

/-- Memory below the stack pointer takes the pushed bytes, the first one highest; the rest of memory is as it was. -/
theorem State.read_pushBytes (k : Stack) (bs : List Byte) (hl : bs.length ≤ 65535) :
    (∀ w : Word, (∀ j, j < bs.length → w ≠ st.sp k - 1 - BitVec.ofNat 16 j) →
      (st.pushBytes k bs).mem.read w.toNat = st.mem.read w.toNat) ∧
    ∀ (j : Nat) (h : j < bs.length),
      (st.pushBytes k bs).mem.read (st.sp k - 1 - BitVec.ofNat 16 j).toNat =
        if st.kind (st.sp k - 1 - BitVec.ofNat 16 j) = .ram then bs[j]
        else st.mem.read (st.sp k - 1 - BitVec.ofNat 16 j).toNat := by
  induction bs generalizing st with
  | nil => exact ⟨fun _ _ => rfl, fun j h => absurd h (by simp)⟩
  | cons v rest ih =>
    have hl' : rest.length < 65535 := by simpa using hl
    obtain ⟨ih1, ih2⟩ := ih (st.push8 k v) (by omega)
    rw [State.pushBytes_cons]
    have hsp : ∀ j : Nat, (st.push8 k v).sp k - 1 - BitVec.ofNat 16 j = st.sp k - 1 - BitVec.ofNat 16 (j + 1) := by
      intro j
      rw [State.push8_sp, BitVec.ofNat_add]
      generalize BitVec.ofNat 16 j = n
      bv_omega
    constructor
    · intro w hw
      rw [ih1 w, State.read_push8]
      · have h0 := hw 0 (by simp)
        have : ¬(w = st.sp k - 1 ∧ st.kind (st.sp k - 1) = .ram) := fun h => h0 (by rw [h.1]; simp)
        rw [if_neg this]
      · intro j hj
        rw [hsp]
        exact hw (j + 1) (by simpa using hj)
    · intro j hj
      cases j with
      | zero =>
        have h0 : st.sp k - 1 - BitVec.ofNat 16 0 = st.sp k - 1 := by simp
        rw [h0, ih1, State.read_push8]
        · simp
        · intro i hi
          rw [hsp]
          have h2 : i + 1 < 65536 := by omega
          intro he
          have he' : BitVec.ofNat 16 (i + 1) = 0 := by
            generalize BitVec.ofNat 16 (i + 1) = n at he ⊢
            bv_omega
          have := congrArg BitVec.toNat he'
          rw [BitVec.toNat_ofNat, Nat.mod_eq_of_lt h2] at this
          simp at this
      | succ j =>
        have hj' : j < rest.length := by simpa using hj
        have h2 := ih2 j hj'
        rw [hsp] at h2
        rw [h2, State.push8_kind, List.getElem_cons_succ, State.read_push8]
        have h3 : j + 1 < 65536 := by omega
        have h4 : ¬(st.sp k - 1 - BitVec.ofNat 16 (j + 1) = st.sp k - 1 ∧ st.kind (st.sp k - 1) = .ram) := by
          rintro ⟨he, -⟩
          have he' : BitVec.ofNat 16 (j + 1) = 0 := by
            generalize BitVec.ofNat 16 (j + 1) = n at he ⊢
            bv_omega
          have := congrArg BitVec.toNat he'
          rw [BitVec.toNat_ofNat, Nat.mod_eq_of_lt h3] at this
          simp at this
        rw [if_neg h4]

/-- The bytes stand upward from the new stack pointer, the last one pushed lowest. -/
theorem State.pushBytes_stored (k : Stack) (bs : List Byte) (hl : bs.length ≤ 65535) :
    Stored st (st.pushBytes k bs.reverse) (st.sp k - BitVec.ofNat 16 bs.length) bs := by
  obtain ⟨h1, h2⟩ := st.read_pushBytes k bs.reverse (by simpa using hl)
  have hat : ∀ j, j < bs.length → st.sp k - 1 - BitVec.ofNat 16 j =
      st.sp k - BitVec.ofNat 16 bs.length + BitVec.ofNat 16 (bs.length - 1 - j) := by
    intro j hj
    have hn : bs.length = (bs.length - 1 - j) + (j + 1) := by omega
    have : BitVec.ofNat 16 bs.length = BitVec.ofNat 16 (bs.length - 1 - j) + (BitVec.ofNat 16 j + 1) := by
      conv => lhs; rw [hn, BitVec.ofNat_add, BitVec.ofNat_add]
      rfl
    rw [this]
    generalize BitVec.ofNat 16 (bs.length - 1 - j) = p
    generalize BitVec.ofNat 16 j = q
    bv_omega
  constructor
  · intro w hw
    refine h1 w fun j hj he => hw ?_
    rw [List.length_reverse] at hj
    rw [mem_addressesFrom]
    exact ⟨bs.length - 1 - j, by omega, by rw [he, hat j hj]⟩
  · intro j hj
    have hj' : bs.length - 1 - j < bs.length := by omega
    have h3 := h2 (bs.length - 1 - j) (by simpa using hj')
    have h4 : bs.length - 1 - (bs.length - 1 - j) = j := by omega
    rw [hat _ hj', h4] at h3
    rw [h3, List.getElem_reverse]
    simp only [h4]

/-! ## Register lists -/

theorem State.frame_length (k : Stack) (l : RegList) : (st.frame k l).length = (listSize l) := by
  obtain ⟨pc, other, y, x, dp, b, a, cc⟩ := l
  simp only [State.frame, listSize, List.length_append]
  cases pc <;> cases other <;> cases y <;> cases x <;> cases dp <;> cases b <;> cases a <;> cases cc <;> rfl

theorem listSize_le (l : RegList) : (listSize l) ≤ 12 := by
  have h : ∀ b : Bool, b.toNat ≤ 1 := by decide
  have := h l.cc; have := h l.a; have := h l.b; have := h l.dp
  have := h l.x; have := h l.y; have := h l.other; have := h l.pc
  unfold listSize
  omega

/-- PSHS and PSHU push the bytes of the list's frame, the highest first (43 R268). -/
theorem State.pushList_eq (k : Stack) (l : RegList) : st.pushList k l = st.pushBytes k (st.frame k l).reverse := by
  have w8 : ∀ (s : State) (c : Bool) (f : State → Byte),
      (s.when c fun t => t.push8 k (f t)) = s.pushBytes k (if c then [f s] else []) := by
    intro s c f; cases c <;> rfl
  have w16 : ∀ (s : State) (c : Bool) (f : State → Word),
      (s.when c fun t => t.push16 k (f t)) = s.pushBytes k (if c then [loByte (f s), hiByte (f s)] else []) := by
    intro s c f; cases c <;> rfl
  have r : ∀ (c : Bool) (v : Word), (if c then [hiByte v, loByte v] else []).reverse =
      if c then [loByte v, hiByte v] else [] := by intro c v; cases c <;> rfl
  have r1 : ∀ (c : Bool) (v : Byte), (if c then [v] else []).reverse = if c then [v] else [] := by
    intro c v; cases c <;> rfl
  simp only [State.pushList, w8, w16, State.frame, List.reverse_append, r, r1, State.pushBytes_append,
    State.pushBytes_y, State.pushBytes_x, State.pushBytes_dp, State.pushBytes_b, State.pushBytes_a,
    State.pushBytes_cc, State.pushBytes_sp_other]

/-- What a push of a register list does to memory. -/
theorem State.pushList_stored (k : Stack) (l : RegList) :
    Stored st (st.pushList k l) (st.sp k - BitVec.ofNat 16 (listSize l)) (st.frame k l) := by
  have h := st.pushBytes_stored k (st.frame k l) (by rw [st.frame_length]; have := listSize_le l; omega)
  rwa [st.frame_length, ← st.pushList_eq] at h

theorem State.pushList_sp (k : Stack) (l : RegList) :
    (st.pushList k l).sp k = st.sp k - BitVec.ofNat 16 (listSize l) := by
  rw [st.pushList_eq, State.pushBytes_sp, List.length_reverse, st.frame_length]

/-- Every field but its stack pointer is after a push what it was. -/
theorem State.pushBytes_keeps (k : Stack) (bs : List Byte) : Keeps [k.field] st (st.pushBytes k bs) := by
  intro f hf
  have ho := st.pushBytes_sp_other k bs
  cases k <;> cases f <;> first
    | exact ho
    | (simp [Field.same]; done)
    | simp [Stack.field] at hf

theorem State.pushList_keeps (k : Stack) (l : RegList) : Keeps [k.field] st (st.pushList k l) := by
  rw [st.pushList_eq]
  exact st.pushBytes_keeps k _

theorem State.pushList_wf (k : Stack) (l : RegList) (h : st.mem.wf = true) : (st.pushList k l).mem.wf = true := by
  rw [st.pushList_eq]
  exact st.pushBytes_wf k _ h

/-- An interrupt frame is the push of every register on the hardware stack (60 R408). -/
theorem State.pushEntire_eq : st.pushEntire = st.pushList .hardware allRegisters := by
  simp only [State.pushEntire, State.pushList, allRegisters, State.when_true, Stack.other, State.sp]

/-- The short frame is the push of PC and CC (60 R409). -/
theorem State.pushFast_eq : st.pushFast = st.pushList .hardware pcAndCC := by
  simp only [State.pushFast, State.pushList, pcAndCC, State.when_true, State.when_false]

theorem State.frame_all : st.frame .hardware allRegisters =
    [st.cc.toByte, st.a, st.b, st.dp, hiByte st.x, loByte st.x, hiByte st.y, loByte st.y, hiByte st.u, loByte st.u,
     hiByte st.pc, loByte st.pc] := rfl

theorem State.frame_short : st.frame .hardware pcAndCC = [st.cc.toByte, hiByte st.pc, loByte st.pc] := rfl

@[simp] theorem State.pushEntire_a : st.pushEntire.a = st.a := by
  rw [State.pushEntire_eq, State.pushList_eq, State.pushBytes_a]
@[simp] theorem State.pushEntire_b : st.pushEntire.b = st.b := by
  rw [State.pushEntire_eq, State.pushList_eq, State.pushBytes_b]
@[simp] theorem State.pushEntire_dp : st.pushEntire.dp = st.dp := by
  rw [State.pushEntire_eq, State.pushList_eq, State.pushBytes_dp]
@[simp] theorem State.pushEntire_cc : st.pushEntire.cc = st.cc := by
  rw [State.pushEntire_eq, State.pushList_eq, State.pushBytes_cc]
@[simp] theorem State.pushEntire_x : st.pushEntire.x = st.x := by
  rw [State.pushEntire_eq, State.pushList_eq, State.pushBytes_x]
@[simp] theorem State.pushEntire_y : st.pushEntire.y = st.y := by
  rw [State.pushEntire_eq, State.pushList_eq, State.pushBytes_y]
@[simp] theorem State.pushEntire_u : st.pushEntire.u = st.u := by
  rw [State.pushEntire_eq, State.pushList_eq]; exact st.pushBytes_sp_other .hardware _
@[simp] theorem State.pushEntire_pc : st.pushEntire.pc = st.pc := by
  rw [State.pushEntire_eq, State.pushList_eq, State.pushBytes_pc]
@[simp] theorem State.pushEntire_nmiArmed : st.pushEntire.nmiArmed = st.nmiArmed := by
  rw [State.pushEntire_eq, State.pushList_eq, State.pushBytes_nmiArmed]
@[simp] theorem State.pushEntire_nmiPending : st.pushEntire.nmiPending = st.nmiPending := by
  rw [State.pushEntire_eq, State.pushList_eq, State.pushBytes_nmiPending]
@[simp] theorem State.pushEntire_wait : st.pushEntire.wait = st.wait := by
  rw [State.pushEntire_eq, State.pushList_eq, State.pushBytes_wait]
@[simp] theorem State.pushEntire_platform : st.pushEntire.platform = st.platform := by
  rw [State.pushEntire_eq, State.pushList_eq, State.pushBytes_platform]
@[simp] theorem State.pushEntire_inputs : st.pushEntire.inputs = st.inputs := by
  rw [State.pushEntire_eq, State.pushList_eq, State.pushBytes_inputs]
@[simp] theorem State.pushEntire_draws : st.pushEntire.draws = st.draws := by
  rw [State.pushEntire_eq, State.pushList_eq, State.pushBytes_draws]

@[simp] theorem State.pushFast_a : st.pushFast.a = st.a := by
  rw [State.pushFast_eq, State.pushList_eq, State.pushBytes_a]
@[simp] theorem State.pushFast_b : st.pushFast.b = st.b := by
  rw [State.pushFast_eq, State.pushList_eq, State.pushBytes_b]
@[simp] theorem State.pushFast_dp : st.pushFast.dp = st.dp := by
  rw [State.pushFast_eq, State.pushList_eq, State.pushBytes_dp]
@[simp] theorem State.pushFast_cc : st.pushFast.cc = st.cc := by
  rw [State.pushFast_eq, State.pushList_eq, State.pushBytes_cc]
@[simp] theorem State.pushFast_x : st.pushFast.x = st.x := by
  rw [State.pushFast_eq, State.pushList_eq, State.pushBytes_x]
@[simp] theorem State.pushFast_y : st.pushFast.y = st.y := by
  rw [State.pushFast_eq, State.pushList_eq, State.pushBytes_y]
@[simp] theorem State.pushFast_u : st.pushFast.u = st.u := by
  rw [State.pushFast_eq, State.pushList_eq]; exact st.pushBytes_sp_other .hardware _
@[simp] theorem State.pushFast_pc : st.pushFast.pc = st.pc := by
  rw [State.pushFast_eq, State.pushList_eq, State.pushBytes_pc]
@[simp] theorem State.pushFast_nmiArmed : st.pushFast.nmiArmed = st.nmiArmed := by
  rw [State.pushFast_eq, State.pushList_eq, State.pushBytes_nmiArmed]
@[simp] theorem State.pushFast_nmiPending : st.pushFast.nmiPending = st.nmiPending := by
  rw [State.pushFast_eq, State.pushList_eq, State.pushBytes_nmiPending]
@[simp] theorem State.pushFast_wait : st.pushFast.wait = st.wait := by
  rw [State.pushFast_eq, State.pushList_eq, State.pushBytes_wait]
@[simp] theorem State.pushFast_platform : st.pushFast.platform = st.platform := by
  rw [State.pushFast_eq, State.pushList_eq, State.pushBytes_platform]
@[simp] theorem State.pushFast_inputs : st.pushFast.inputs = st.inputs := by
  rw [State.pushFast_eq, State.pushList_eq, State.pushBytes_inputs]
@[simp] theorem State.pushFast_draws : st.pushFast.draws = st.draws := by
  rw [State.pushFast_eq, State.pushList_eq, State.pushBytes_draws]

/-- S is 12 lower after the entire frame and 3 lower after the short one. -/
@[simp] theorem State.pushEntire_s : st.pushEntire.s = st.s - 12 := by
  rw [st.pushEntire_eq]; exact st.pushList_sp .hardware allRegisters
@[simp] theorem State.pushFast_s : st.pushFast.s = st.s - 3 := by
  rw [st.pushFast_eq]; exact st.pushList_sp .hardware pcAndCC

theorem State.pushEntire_wf (h : st.mem.wf = true) : st.pushEntire.mem.wf = true := by
  rw [st.pushEntire_eq]; exact st.pushList_wf _ _ h
theorem State.pushFast_wf (h : st.mem.wf = true) : st.pushFast.mem.wf = true := by
  rw [st.pushFast_eq]; exact st.pushList_wf _ _ h

/-! ## Pulls -/

@[simp] theorem State.pull8_a (k : Stack) : (st.pull8 k).2.a = st.a := by simp [State.pull8]
@[simp] theorem State.pull8_b (k : Stack) : (st.pull8 k).2.b = st.b := by simp [State.pull8]
@[simp] theorem State.pull8_dp (k : Stack) : (st.pull8 k).2.dp = st.dp := by simp [State.pull8]
@[simp] theorem State.pull8_cc (k : Stack) : (st.pull8 k).2.cc = st.cc := by simp [State.pull8]
@[simp] theorem State.pull8_x (k : Stack) : (st.pull8 k).2.x = st.x := by simp [State.pull8]
@[simp] theorem State.pull8_y (k : Stack) : (st.pull8 k).2.y = st.y := by simp [State.pull8]
@[simp] theorem State.pull8_pc (k : Stack) : (st.pull8 k).2.pc = st.pc := by simp [State.pull8]
@[simp] theorem State.pull8_nmiArmed (k : Stack) : (st.pull8 k).2.nmiArmed = st.nmiArmed := by simp [State.pull8]
@[simp] theorem State.pull8_nmiPending (k : Stack) : (st.pull8 k).2.nmiPending = st.nmiPending := by simp [State.pull8]
@[simp] theorem State.pull8_wait (k : Stack) : (st.pull8 k).2.wait = st.wait := by simp [State.pull8]
@[simp] theorem State.pull8_mem (k : Stack) : (st.pull8 k).2.mem = st.mem := by simp [State.pull8]
@[simp] theorem State.pull8_platform (k : Stack) : (st.pull8 k).2.platform = st.platform := by simp [State.pull8]
@[simp] theorem State.pull8_inputs (k : Stack) : (st.pull8 k).2.inputs = st.inputs := by simp [State.pull8]
@[simp] theorem State.pull8_draws (k : Stack) : (st.pull8 k).2.draws = st.draws := by simp [State.pull8]

@[simp] theorem State.pull16_a (k : Stack) : (st.pull16 k).2.a = st.a := by simp [State.pull16]
@[simp] theorem State.pull16_b (k : Stack) : (st.pull16 k).2.b = st.b := by simp [State.pull16]
@[simp] theorem State.pull16_dp (k : Stack) : (st.pull16 k).2.dp = st.dp := by simp [State.pull16]
@[simp] theorem State.pull16_cc (k : Stack) : (st.pull16 k).2.cc = st.cc := by simp [State.pull16]
@[simp] theorem State.pull16_x (k : Stack) : (st.pull16 k).2.x = st.x := by simp [State.pull16]
@[simp] theorem State.pull16_y (k : Stack) : (st.pull16 k).2.y = st.y := by simp [State.pull16]
@[simp] theorem State.pull16_pc (k : Stack) : (st.pull16 k).2.pc = st.pc := by simp [State.pull16]
@[simp] theorem State.pull16_nmiArmed (k : Stack) : (st.pull16 k).2.nmiArmed = st.nmiArmed := by simp [State.pull16]
@[simp] theorem State.pull16_nmiPending (k : Stack) : (st.pull16 k).2.nmiPending = st.nmiPending := by simp [State.pull16]
@[simp] theorem State.pull16_wait (k : Stack) : (st.pull16 k).2.wait = st.wait := by simp [State.pull16]
@[simp] theorem State.pull16_mem (k : Stack) : (st.pull16 k).2.mem = st.mem := by simp [State.pull16]
@[simp] theorem State.pull16_platform (k : Stack) : (st.pull16 k).2.platform = st.platform := by simp [State.pull16]
@[simp] theorem State.pull16_inputs (k : Stack) : (st.pull16 k).2.inputs = st.inputs := by simp [State.pull16]
@[simp] theorem State.pull16_draws (k : Stack) : (st.pull16 k).2.draws = st.draws := by simp [State.pull16]

@[simp] theorem State.read8_sp (w : Word) (k : Stack) : (st.read8 w).2.sp k = st.sp k := by cases k <;> simp [State.sp]

/-- A pull leaves its stack pointer one higher, modulo 2^16, and the other one alone (00 R11). -/
@[simp] theorem State.pull8_sp (k : Stack) : (st.pull8 k).2.sp k = st.sp k + 1 := by simp [State.pull8]
@[simp] theorem State.pull8_sp_other (k : Stack) : (st.pull8 k).2.sp k.other = st.sp k.other := by simp [State.pull8]
@[simp] theorem State.pull16_sp (k : Stack) : (st.pull16 k).2.sp k = st.sp k + 2 := by
  simp only [State.pull16, State.pull8_sp]
  generalize st.sp k = n
  bv_omega
@[simp] theorem State.pull16_sp_other (k : Stack) : (st.pull16 k).2.sp k.other = st.sp k.other := by
  simp [State.pull16]

/-- A pulled byte of RAM or ROM is the one at the stack pointer. -/
theorem State.pull8_fst (k : Stack) (h : st.isMemory (st.sp k) = true) :
    (st.pull8 k).1 = st.mem.read (st.sp k).toNat := by
  simp [State.pull8, State.read8_of_isMemory, h]

end Sys2Proof.Machine
end

