-- ==== Sys2Proof/Laws/Alu.lean ====
section
/-! SUPPORT. One lemma for each shared shape of the data instructions: the value it leaves, the flags, and that nothing else
changes but the base register its operand updates. -/

namespace Sys2Proof.Machine

variable (st : State)

/-! ## Frames of register writes -/

theorem Field.same_refl (f : Field) (s : State) : f.same s s := by cases f <;> rfl

theorem keeps_setCC (v : CC) : Keeps [.cc] st (st.setCC v) := by
  intro f hf; cases f <;> first | rfl | exact absurd (List.Mem.head _) hf

theorem keeps_setAcc (r : Acc) (v : Byte) (c : CC) : Keeps [r.field, .cc] st ((st.setAcc r v).setCC c) := by
  intro f hf
  cases r <;> cases f <;> first
    | rfl
    | exact absurd (List.Mem.head _) hf
    | exact absurd (List.Mem.tail _ (List.Mem.head _)) hf

theorem keeps_write8 (a : Word) (v : Byte) : Keeps [] st (st.write8 a v) := by
  intro f _; cases f <;> simp [Field.same]

theorem keeps_write16 (a v : Word) : Keeps [] st (st.write16 a v) := by
  intro f _; cases f <;> simp [Field.same]

theorem keeps_read8 (a : Word) : Keeps [] st (st.read8 a).2 := by
  intro f _; cases f <;> simp [Field.same]

theorem keeps_setDraws (n : Nat) : Keeps [] st (st.setDraws n) := by
  intro f _; cases f <;> rfl

/-- The state after an operand keeps what the state after its register update has. -/
theorem keeps_ea (e : Ea) : Keeps [] (st.updated (eaUpdate e)) (st.ea e).2 := by
  rw [State.ea_snd]; intro f _; cases f <;> rfl
theorem keeps_eaIndexed (m : Indexed) : Keeps [] (st.updated (indexedUpdate m)) (st.eaIndexed m).2 := by
  rw [State.eaIndexed_snd]; intro f _; cases f <;> rfl
theorem keeps_operand8 (o : Src8) : Keeps [] (st.updated (src8Update o)) (st.operand8 o).2 := by
  rw [State.operand8_snd]; intro f _; cases f <;> rfl
theorem keeps_operand16 (o : Src16) : Keeps [] (st.updated (src16Update o)) (st.operand16 o).2 := by
  rw [State.operand16_snd]; intro f _; cases f <;> rfl

theorem Keeps.weaken {fs : List Field} {s t : State} (h : Keeps [] s t) : Keeps fs s t :=
  h.mono fun _ hf => absurd hf (List.not_mem_nil)

theorem KeepsMemory.of_eq {s t : State} (h : t.mem = s.mem) : KeepsMemory s t := fun _ => by rw [h]

/-! ## Stored bytes -/

/-- One byte stored. -/
theorem stored_write8 {s t : State} (hp : t.platform = s.platform) (hm : t.mem = s.mem) (a : Word) (v : Byte) :
    Stored s (t.write8 a v) a [v] := by
  have hk := State.kind_of_platform hp
  constructor
  · intro w hw
    have hne : w ≠ a := fun h => hw (by simp [addressesFrom, h])
    rw [State.read_write8, if_neg (fun h => hne h.1), hm]
  · intro j hj
    have hj0 : j = 0 := by simpa using hj
    subst hj0
    have ha : a + BitVec.ofNat 16 0 = a := by simp
    rw [ha, State.read_write8, hk, hm]
    simp

/-- Two bytes stored, high byte at the lower address. -/
theorem stored_write16 {s t : State} (hp : t.platform = s.platform) (hm : t.mem = s.mem) (a v : Word) :
    Stored s (t.write16 a v) a [hiByte v, loByte v] := by
  have hk := State.kind_of_platform hp
  have hne : a ≠ a + 1 := by bv_omega
  constructor
  · intro w hw
    simp only [addressesFrom, List.length_cons, List.length_nil, List.mem_cons, List.not_mem_nil, or_false,
      not_or] at hw
    rw [State.read_write16, if_neg (fun h => hw.2 h.1), if_neg (fun h => hw.1 h.1), hm]
  · intro j hj
    have hj2 : j = 0 ∨ j = 1 := by
      have : j < 2 := hj
      omega
    rcases hj2 with rfl | rfl
    · have ha : a + BitVec.ofNat 16 0 = a := by simp
      rw [ha, State.read_write16, if_neg (fun h => hne h.1), hk, hm]
      simp
    · have ha : a + BitVec.ofNat 16 1 = a + 1 := rfl
      rw [ha, State.read_write16, hk, hm, if_neg (fun h : a + 1 = a ∧ _ => hne h.1.symm)]
      simp

/-- What has been stored stays where no later change touches memory. -/
theorem Stored.of_eq {s t u : State} {a : Word} {bs : List Byte} (h : Stored s t a bs) (hm : u.mem = t.mem) :
    Stored s u a bs := by
  unfold Stored at *
  rw [hm]
  exact h

/-- The reference state of a store may be any with the same platform and memory. -/
theorem Stored.base {s s' t : State} {a : Word} {bs : List Byte} (h : Stored s t a bs)
    (hp : s'.platform = s.platform) (hm : s'.mem = s.mem) : Stored s' t a bs := by
  unfold Stored at *
  rw [hm]
  exact ⟨h.1, fun j hj => by rw [State.kind_of_platform hp]; exact h.2 j hj⟩

/-! ## Accumulator instructions -/

theorem State.addAcc_spec (r : Acc) (c : Bool) (o : Src8) :
    (st.addAcc r c o).acc r = (add8 (st.acc r) (st.operand8 o).1 (c && st.cc.c) st.cc).1 ∧
    (st.addAcc r c o).cc = (add8 (st.acc r) (st.operand8 o).1 (c && st.cc.c) st.cc).2 ∧
    Keeps [r.field, .cc] (st.updated (src8Update o)) (st.addAcc r c o) ∧ (st.addAcc r c o).mem = st.mem := by
  refine ⟨?_, ?_, (keeps_operand8 st o).weaken.trans (keeps_setAcc _ r _ _), ?_⟩
  · cases r <;> simp [State.addAcc, State.acc, State.setAcc]
  · simp [State.addAcc]
  · simp [State.addAcc]

theorem State.subAcc_spec (r : Acc) (c : Bool) (o : Src8) :
    (st.subAcc r c o).acc r =
      (sub8 (st.acc r) (st.operand8 o).1 (c && st.cc.c) (Config.undefBit st.draws) st.cc).1 ∧
    (st.subAcc r c o).cc = (sub8 (st.acc r) (st.operand8 o).1 (c && st.cc.c) (Config.undefBit st.draws) st.cc).2 ∧
    Keeps [r.field, .cc] (st.updated (src8Update o)) (st.subAcc r c o) ∧ (st.subAcc r c o).mem = st.mem := by
  refine ⟨?_, ?_, (keeps_operand8 st o).weaken.trans
    ((keeps_setDraws _ _).weaken.trans (keeps_setAcc _ r _ _)), ?_⟩
  · cases r <;> simp [State.subAcc, State.acc, State.setAcc]
  · cases r <;> simp [State.subAcc, State.acc]
  · simp [State.subAcc]

theorem State.cmpAcc_spec (r : Acc) (o : Src8) :
    (st.cmpAcc r o).cc = (sub8 (st.acc r) (st.operand8 o).1 false (Config.undefBit st.draws) st.cc).2 ∧
    Keeps [.cc] (st.updated (src8Update o)) (st.cmpAcc r o) ∧ (st.cmpAcc r o).mem = st.mem := by
  refine ⟨?_, (keeps_operand8 st o).weaken.trans ((keeps_setDraws _ _).weaken.trans (keeps_setCC _ _)), ?_⟩
  · cases r <;> simp [State.cmpAcc, State.acc]
  · simp [State.cmpAcc]

theorem State.logicAcc_spec (r : Acc) (f : Byte → Byte → Byte) (o : Src8) :
    (st.logicAcc r f o).acc r = f (st.acc r) (st.operand8 o).1 ∧
    (st.logicAcc r f o).cc = logic8 (f (st.acc r) (st.operand8 o).1) st.cc ∧
    Keeps [r.field, .cc] (st.updated (src8Update o)) (st.logicAcc r f o) ∧ (st.logicAcc r f o).mem = st.mem := by
  refine ⟨?_, ?_, (keeps_operand8 st o).weaken.trans (keeps_setAcc _ r _ _), ?_⟩
  · cases r <;> simp [State.logicAcc, State.acc, State.setAcc]
  · cases r <;> simp [State.logicAcc, State.acc]
  · simp [State.logicAcc]

theorem State.bitAcc_spec (r : Acc) (o : Src8) :
    (st.bitAcc r o).cc = logic8 (st.acc r &&& (st.operand8 o).1) st.cc ∧
    Keeps [.cc] (st.updated (src8Update o)) (st.bitAcc r o) ∧ (st.bitAcc r o).mem = st.mem := by
  refine ⟨?_, (keeps_operand8 st o).weaken.trans (keeps_setCC _ _), ?_⟩
  · cases r <;> simp [State.bitAcc, State.acc]
  · simp [State.bitAcc]

theorem State.loadAcc_spec (r : Acc) (o : Src8) :
    (st.loadAcc r o).acc r = (st.operand8 o).1 ∧ (st.loadAcc r o).cc = logic8 (st.operand8 o).1 st.cc ∧
    Keeps [r.field, .cc] (st.updated (src8Update o)) (st.loadAcc r o) ∧ (st.loadAcc r o).mem = st.mem := by
  refine ⟨?_, ?_, (keeps_operand8 st o).weaken.trans (keeps_setAcc _ r _ _), ?_⟩
  · cases r <;> simp [State.loadAcc, State.acc, State.setAcc]
  · simp [State.loadAcc]
  · simp [State.loadAcc]

theorem State.storeAcc_spec (r : Acc) (e : Ea) :
    (st.storeAcc r e).cc = logic8 (st.acc r) st.cc ∧ Stored st (st.storeAcc r e) (st.ea e).1 [st.acc r] ∧
    Keeps [.cc] (st.updated (eaUpdate e)) (st.storeAcc r e) := by
  refine ⟨by simp [State.storeAcc], ?_,
    (keeps_ea st e).weaken.trans ((keeps_setCC _ _).trans (keeps_write8 _ _ _).weaken)⟩
  have h := stored_write8 (s := st) (t := (st.ea e).2.setCC (logic8 ((st.ea e).2.acc r) (st.ea e).2.cc))
    (by simp) (by simp) (st.ea e).1 ((st.ea e).2.acc r)
  rw [State.ea_acc] at h
  simpa only [State.storeAcc, State.ea_acc] using h

/-! ## Single operand -/

theorem State.unaryAcc_defined (r : Acc) (f : Byte → CC → Byte × CC) :
    (st.unaryAcc r (definedFlags f)).acc r = (f (st.acc r) st.cc).1 ∧
    (st.unaryAcc r (definedFlags f)).cc = (f (st.acc r) st.cc).2 ∧
    Keeps [r.field, .cc] st (st.unaryAcc r (definedFlags f)) ∧ (st.unaryAcc r (definedFlags f)).mem = st.mem := by
  refine ⟨?_, ?_, ?_, ?_⟩
  · simp [State.unaryAcc]; rfl
  · simp [State.unaryAcc]; rfl
  · have h := keeps_setAcc st r (f (st.acc r) st.cc).1 (f (st.acc r) st.cc).2
    cases r <;> exact h
  · simp [State.unaryAcc]; rfl

theorem State.unaryAcc_undefinedH (r : Acc) (f : Byte → Bool → CC → Byte × CC) :
    (st.unaryAcc r (undefinedH f)).acc r = (f (st.acc r) (Config.undefBit st.draws) st.cc).1 ∧
    (st.unaryAcc r (undefinedH f)).cc = (f (st.acc r) (Config.undefBit st.draws) st.cc).2 ∧
    Keeps [r.field, .cc] st (st.unaryAcc r (undefinedH f)) ∧ (st.unaryAcc r (undefinedH f)).mem = st.mem := by
  refine ⟨?_, ?_, ?_, ?_⟩
  · simp [State.unaryAcc]; rfl
  · simp [State.unaryAcc]; rfl
  · have h := (keeps_setDraws st (st.draws + 1)).weaken.trans
      (keeps_setAcc (st.setDraws (st.draws + 1)) r (f (st.acc r) (Config.undefBit st.draws) st.cc).1
        (f (st.acc r) (Config.undefBit st.draws) st.cc).2)
    cases r <;> exact h
  · simp [State.unaryAcc]; rfl

theorem State.unaryMem_defined (e : Ea) (f : Byte → CC → Byte × CC) :
    (st.unaryMem e (definedFlags f)).cc = (f (st.eaByte e) st.cc).2 ∧
    Stored st (st.unaryMem e (definedFlags f)) (st.ea e).1 [(f (st.eaByte e) st.cc).1] ∧
    Keeps [.cc] (st.updated (eaUpdate e)) (st.unaryMem e (definedFlags f)) := by
  have hc : ((st.ea e).2.read8 (st.ea e).1).2.cc = st.cc := by simp
  refine ⟨?_, ?_, ?_⟩
  · simp only [State.unaryMem, definedFlags, State.write8_cc, State.setCC_cc, hc]; rfl
  · have h := stored_write8 (s := st)
      (t := ((st.ea e).2.read8 (st.ea e).1).2.setCC (f (st.eaByte e) ((st.ea e).2.read8 (st.ea e).1).2.cc).2)
      (by simp) (by simp) (st.ea e).1 (f (st.eaByte e) ((st.ea e).2.read8 (st.ea e).1).2.cc).1
    rw [hc] at h
    simp only [State.unaryMem, definedFlags, hc]
    exact h
  · exact (keeps_ea st e).weaken.trans ((keeps_read8 _ _).weaken.trans
      ((keeps_setCC _ _).trans (keeps_write8 _ _ _).weaken))

theorem State.unaryMem_undefinedH (e : Ea) (f : Byte → Bool → CC → Byte × CC) :
    (st.unaryMem e (undefinedH f)).cc = (f (st.eaByte e) (Config.undefBit st.draws) st.cc).2 ∧
    Stored st (st.unaryMem e (undefinedH f)) (st.ea e).1 [(f (st.eaByte e) (Config.undefBit st.draws) st.cc).1] ∧
    Keeps [.cc] (st.updated (eaUpdate e)) (st.unaryMem e (undefinedH f)) := by
  have hc : ((st.ea e).2.read8 (st.ea e).1).2.cc = st.cc := by simp
  have hd : ((st.ea e).2.read8 (st.ea e).1).2.draws = st.draws := by simp
  refine ⟨?_, ?_, ?_⟩
  · simp only [State.unaryMem, undefinedH, State.draw_fst, State.draw_snd, State.write8_cc, State.setCC_cc,
      State.setDraws_cc, hc, hd]; rfl
  · have h := stored_write8 (s := st)
      (t := (((st.ea e).2.read8 (st.ea e).1).2.setDraws (st.draws + 1)).setCC
        (f (st.eaByte e) (Config.undefBit st.draws) st.cc).2)
      (by simp) (by simp) (st.ea e).1 (f (st.eaByte e) (Config.undefBit st.draws) st.cc).1
    simp only [State.unaryMem, undefinedH, State.draw_fst, State.draw_snd, State.setDraws_cc, hc, hd]
    exact h
  · exact (keeps_ea st e).weaken.trans ((keeps_read8 _ _).weaken.trans
      ((keeps_setDraws _ _).weaken.trans ((keeps_setCC _ _).trans (keeps_write8 _ _ _).weaken)))

theorem State.testMem_spec (e : Ea) :
    (st.testMem e).cc = logic8 (st.eaByte e) st.cc ∧ Keeps [.cc] (st.updated (eaUpdate e)) (st.testMem e) ∧
    (st.testMem e).mem = st.mem := by
  refine ⟨?_, (keeps_ea st e).weaken.trans ((keeps_read8 _ _).weaken.trans (keeps_setCC _ _)), ?_⟩
  · simp [State.testMem, State.eaByte]
  · simp [State.testMem]

/-! ## 16-bit data -/

theorem keeps_writeReg (r : Reg) (v : Word) (c : CC) :
    Keeps (.cc :: regFields r) st ((st.writeReg r v).setCC c) := by
  intro f hf
  cases r <;> cases f <;> first
    | rfl
    | exact absurd (List.Mem.head _) hf
    | exact absurd (List.Mem.tail _ (List.Mem.head _)) hf
    | exact absurd (List.Mem.tail _ (List.Mem.tail _ (List.Mem.head _))) hf

theorem State.addD_spec (o : Src16) :
    (st.addD o).d = (add16 st.d (st.operand16 o).1 st.cc).1 ∧
    (st.addD o).cc = (add16 st.d (st.operand16 o).1 st.cc).2 ∧
    Keeps [.a, .b, .cc] (st.updated (src16Update o)) (st.addD o) ∧ (st.addD o).mem = st.mem := by
  refine ⟨?_, ?_, (keeps_operand16 st o).weaken.trans ?_, ?_⟩
  · have h := ((st.operand16 o).2).readReg_writeReg .d (add16 st.d (st.operand16 o).1 st.cc).1
    simpa [State.addD, State.readReg, State.writeReg, Reg.wide, State.d] using h
  · simp [State.addD]
  · exact (keeps_writeReg (st.operand16 o).2 .d _ _).mono (by decide)
  · simp [State.addD]

theorem State.subD_spec (o : Src16) :
    (st.subD o).d = (sub16 st.d (st.operand16 o).1 st.cc).1 ∧
    (st.subD o).cc = (sub16 st.d (st.operand16 o).1 st.cc).2 ∧
    Keeps [.a, .b, .cc] (st.updated (src16Update o)) (st.subD o) ∧ (st.subD o).mem = st.mem := by
  refine ⟨?_, ?_, (keeps_operand16 st o).weaken.trans ?_, ?_⟩
  · have h := ((st.operand16 o).2).readReg_writeReg .d (sub16 st.d (st.operand16 o).1 st.cc).1
    simpa [State.subD, State.readReg, State.writeReg, Reg.wide, State.d] using h
  · simp [State.subD]
  · exact (keeps_writeReg (st.operand16 o).2 .d _ _).mono (by decide)
  · simp [State.subD]

theorem State.compare16_spec (r : Reg) (o : Src16) :
    (st.compare16 r o).cc =
      (sub16 ((st.updated (src16Update o)).readReg r) (st.operand16 o).1 st.cc).2 ∧
    Keeps [.cc] (st.updated (src16Update o)) (st.compare16 r o) ∧ (st.compare16 r o).mem = st.mem := by
  refine ⟨?_, (keeps_operand16 st o).weaken.trans (keeps_setCC _ _), ?_⟩
  · simp [State.compare16, State.operand16_readReg]
  · simp [State.compare16]

@[simp] theorem State.writeReg_mem (r : Reg) (v : Word) : (st.writeReg r v).mem = st.mem := by cases r <;> rfl
@[simp] theorem State.writeReg_nmiArmed (r : Reg) (v : Word) : (st.writeReg r v).nmiArmed = st.nmiArmed := by
  cases r <;> rfl

theorem State.load16_spec (r : Reg) (hr : r.wide = true) (o : Src16) :
    (st.load16 r o).readReg r = (st.operand16 o).1 ∧ (st.load16 r o).cc = logic16 (st.operand16 o).1 st.cc ∧
    (st.load16 r o).nmiArmed = st.nmiArmed ∧
    Keeps (.cc :: regFields r) (st.updated (src16Update o)) (st.load16 r o) ∧ (st.load16 r o).mem = st.mem := by
  refine ⟨?_, ?_, ?_, (keeps_operand16 st o).weaken.trans (keeps_writeReg _ r _ _), ?_⟩
  · have h := ((st.operand16 o).2).readReg_writeReg r (st.operand16 o).1
    rw [if_pos hr] at h
    cases r <;> first | exact h | exact absurd hr (by decide)
  · simp [State.load16]
  · simp [State.load16]
  · simp [State.load16]

theorem State.store16_spec (r : Reg) (e : Ea) :
    (st.store16 r e).cc = logic16 ((st.updated (eaUpdate e)).readReg r) st.cc ∧
    Stored st (st.store16 r e) (st.ea e).1
      [hiByte ((st.updated (eaUpdate e)).readReg r), loByte ((st.updated (eaUpdate e)).readReg r)] ∧
    Keeps [.cc] (st.updated (eaUpdate e)) (st.store16 r e) := by
  refine ⟨by simp [State.store16, State.ea_readReg], ?_,
    (keeps_ea st e).weaken.trans ((keeps_setCC _ _).trans (keeps_write16 _ _ _).weaken)⟩
  have h := stored_write16 (s := st) (t := (st.ea e).2.setCC (logic16 ((st.ea e).2.readReg r) (st.ea e).2.cc))
    (by simp) (by simp) (st.ea e).1 ((st.ea e).2.readReg r)
  rw [State.ea_readReg] at h
  simpa only [State.store16, State.ea_readReg] using h

/-! ## Calls -/

/-- A word pushed: two bytes below the stack pointer, high byte at the lower address. -/
theorem stored_push16 {s t : State} (hp : t.platform = s.platform) (hm : t.mem = s.mem) (k : Stack) (v : Word) :
    Stored s (t.push16 k v) (t.sp k - 2) [hiByte v, loByte v] := by
  have h := t.pushBytes_stored k [hiByte v, loByte v] (by simp)
  exact h.base hp.symm hm.symm

theorem keeps_push16 (k : Stack) (v : Word) : Keeps [k.field] st (st.push16 k v) :=
  st.pushBytes_keeps k [loByte v, hiByte v]

@[simp] theorem State.push16_sp (k : Stack) (v : Word) : (st.push16 k v).sp k = st.sp k - 2 :=
  st.pushBytes_sp k [loByte v, hiByte v]
@[simp] theorem State.push16_pc (k : Stack) (v : Word) : (st.push16 k v).pc = st.pc :=
  st.pushBytes_pc k [loByte v, hiByte v]

theorem State.branchSub_spec (off : Word) :
    (st.branchSub off).pc = st.pc + off ∧ (st.branchSub off).s = st.s - 2 ∧
    Stored st (st.branchSub off) (st.s - 2) [hiByte st.pc, loByte st.pc] ∧
    Keeps [.pc, .s] st (st.branchSub off) := by
  refine ⟨?_, ?_, ?_, ?_⟩
  · simp [State.branchSub]
  · exact st.push16_sp .hardware st.pc
  · exact (stored_push16 (s := st) (t := st) rfl rfl .hardware st.pc).of_eq rfl
  · have h := keeps_push16 st .hardware st.pc
    intro f hf
    have h1 := h f (fun hm => hf (by simp [Stack.field] at hm; simp [hm]))
    cases f <;> first | exact h1 | exact absurd (List.Mem.head _) hf

end Sys2Proof.Machine
end

