-- ==== Sys2Proof/Laws/Pull.lean ====
section
/-! SUPPORT. What a pull of a register list does, and the return from an interrupt: the bytes upward from the stack pointer
are read one after another and end up in the registers of the list, in the layout a push of the list gives them. -/

namespace Sys2Proof.Machine

variable (st : State)

theorem hiByte_joinBytes (h l : Byte) : hiByte (joinBytes h l) = h := by
  apply BitVec.eq_of_getLsbD_eq
  intro i hi
  simp only [hiByte, joinBytes, BitVec.getLsbD_extractLsb', hi, decide_true, Bool.true_and]
  rw [BitVec.getLsbD_append]
  simp [BitVec.getLsbD_eq_getElem hi]

theorem loByte_joinBytes (h l : Byte) : loByte (joinBytes h l) = l := by
  apply BitVec.eq_of_getLsbD_eq
  intro i hi
  simp only [loByte, joinBytes, BitVec.getLsbD_extractLsb', hi, decide_true, Bool.true_and, Nat.zero_add]
  rw [BitVec.getLsbD_append]
  simp [hi]

theorem joinBytes_hi_lo (w : Word) : joinBytes (hiByte w) (loByte w) = w := by
  apply BitVec.eq_of_getLsbD_eq
  intro i hi
  simp only [joinBytes, hiByte, loByte, BitVec.getLsbD_append, BitVec.getLsbD_extractLsb']
  by_cases h : i < 8
  · simp [h]
  · have h8 : i - 8 < 8 := by omega
    simp [h, h8, show 8 + (i - 8) = i by omega]

/-! ## Reading bytes upward -/

theorem State.readBytes_snd (n : Nat) (a : Word) :
    (State.readBytes n a st).2 = st.setBus (State.readBytes n a st).2.bus := by
  induction n generalizing a st with
  | zero => rfl
  | succ n ih =>
    simp only [State.readBytes]
    rw [ih, State.read8_snd]
    rfl

theorem State.readBytes_length (n : Nat) (a : Word) : (State.readBytes n a st).1.length = n := by
  induction n generalizing a st with
  | zero => rfl
  | succ n ih => simp [State.readBytes, ih]

theorem State.readBytes_add (m n : Nat) (a : Word) :
    State.readBytes (m + n) a st =
      ((State.readBytes m a st).1 ++ (State.readBytes n (a + BitVec.ofNat 16 m) (State.readBytes m a st).2).1,
       (State.readBytes n (a + BitVec.ofNat 16 m) (State.readBytes m a st).2).2) := by
  induction m generalizing a st with
  | zero => simp [State.readBytes]
  | succ m ih =>
    have h : m + 1 + n = (m + n) + 1 := by omega
    rw [h]
    simp only [State.readBytes]
    rw [ih, succ_address]
    rfl

/-- Bytes read from RAM or ROM are its content, and nothing changes. -/
theorem State.readBytes_of_isMemory (n : Nat) (a : Word)
    (h : ∀ j, j < n → st.isMemory (a + BitVec.ofNat 16 j) = true) :
    State.readBytes n a st = ((addressesFrom n a).map fun w => st.mem.read w.toNat, st) := by
  induction n generalizing a with
  | zero => rfl
  | succ n ih =>
    have h0 : st.isMemory a = true := by simpa using h 0 (by omega)
    simp only [State.readBytes, State.read8_of_isMemory st a h0, addressesFrom, List.map_cons]
    rw [ih (a + 1) fun j hj => by rw [succ_address]; exact h (j + 1) (by omega)]

/-! ## A pull in the midst of a list -/

/-- `t` has come from `st` by reading the `n` bytes from `a` upward and writing registers; the stack pointer stands after
the last byte read. -/
structure Tracks (st : State) (a : Word) (k : Stack) (n : Nat) (t : State) : Prop where
  platform : t.platform = st.platform
  mem : t.mem = st.mem
  bus : t.bus = (State.readBytes n a st).2.bus
  sp : t.sp k = a + BitVec.ofNat 16 n

theorem Tracks.of_eq {st t t' : State} {a : Word} {k : Stack} {n : Nat} (h : Tracks st a k n t)
    (hp : t'.platform = t.platform) (hm : t'.mem = t.mem) (hb : t'.bus = t.bus) (hs : t'.sp k = t.sp k) :
    Tracks st a k n t' :=
  ⟨hp.trans h.platform, hm.trans h.mem, hb.trans h.bus, hs.trans h.sp⟩

theorem Tracks.pull8 {st t : State} {a : Word} {k : Stack} {n : Nat} (h : Tracks st a k n t) :
    Tracks st a k (n + 1) (t.pull8 k).2 ∧
      (State.readBytes (n + 1) a st).1 = (State.readBytes n a st).1 ++ [(t.pull8 k).1] := by
  have hr := State.read8_fst_congr (s := (State.readBytes n a st).2) (t := t) (a + BitVec.ofNat 16 n)
    (by rw [State.readBytes_snd]; exact h.platform) (by rw [State.readBytes_snd]; exact h.mem) h.bus
  have hadd := st.readBytes_add n 1 a
  have hb : (State.readBytes (n + 1) a st).2.bus =
      ((State.readBytes n a st).2.read8 (a + BitVec.ofNat 16 n)).2.bus := by rw [hadd]; rfl
  refine ⟨⟨by rw [State.pull8_platform]; exact h.platform, by rw [State.pull8_mem]; exact h.mem, ?_, ?_⟩, ?_⟩
  · rw [hb, ← hr.2, ← h.sp]
    simp [State.pull8]
  · rw [State.pull8_sp, h.sp, BitVec.ofNat_add, BitVec.add_assoc]
    rfl
  · rw [hadd]
    show _ ++ [((State.readBytes n a st).2.read8 (a + BitVec.ofNat 16 n)).1] = _
    rw [← hr.1, ← h.sp]
    rfl

theorem Tracks.pull16 {st t : State} {a : Word} {k : Stack} {n : Nat} (h : Tracks st a k n t) :
    Tracks st a k (n + 2) (t.pull16 k).2 ∧
      (State.readBytes (n + 2) a st).1 =
        (State.readBytes n a st).1 ++ [hiByte (t.pull16 k).1, loByte (t.pull16 k).1] := by
  obtain ⟨h1, e1⟩ := h.pull8
  obtain ⟨h2, e2⟩ := h1.pull8
  refine ⟨h2, ?_⟩
  rw [e2, e1]
  simp [State.pull16, hiByte_joinBytes, loByte_joinBytes]

theorem State.when_keep {α : Type} (g : State → α) (f : State → State) (c : Bool) (h : ∀ t, g (f t) = g t) :
    g (st.when c f) = g st := by
  cases c
  · rfl
  · exact h st

/-- One optional byte of a pulled list: it is the next byte read, and the register that takes it shows it. -/
theorem Tracks.when8 {st t : State} {a : Word} {k : Stack} {n : Nat} (h : Tracks st a k n t) (c : Bool)
    (put : State → Byte → State) (get : State → Byte) (hget : ∀ s v, get (put s v) = v)
    (hp : ∀ s v, (put s v).platform = s.platform ∧ (put s v).mem = s.mem ∧ (put s v).bus = s.bus ∧
      (put s v).sp k = s.sp k) :
    Tracks st a k (n + c.toNat) (t.when c fun t => put (t.pull8 k).2 (t.pull8 k).1) ∧
      (State.readBytes (n + c.toNat) a st).1 =
        (State.readBytes n a st).1 ++
          (if c then [get (t.when c fun t => put (t.pull8 k).2 (t.pull8 k).1)] else []) := by
  cases c
  · exact ⟨h, by simp⟩
  · obtain ⟨h1, e1⟩ := h.pull8
    obtain ⟨p1, p2, p3, p4⟩ := hp (t.pull8 k).2 (t.pull8 k).1
    refine ⟨h1.of_eq p1 p2 p3 p4, ?_⟩
    simp only [Bool.toNat_true, State.when_true, if_true, hget]
    exact e1

/-- One optional word of a pulled list. -/
theorem Tracks.when16 {st t : State} {a : Word} {k : Stack} {n : Nat} (h : Tracks st a k n t) (c : Bool)
    (put : State → Word → State) (get : State → Word) (hget : ∀ s v, get (put s v) = v)
    (hp : ∀ s v, (put s v).platform = s.platform ∧ (put s v).mem = s.mem ∧ (put s v).bus = s.bus ∧
      (put s v).sp k = s.sp k) :
    Tracks st a k (n + 2 * c.toNat) (t.when c fun t => put (t.pull16 k).2 (t.pull16 k).1) ∧
      (State.readBytes (n + 2 * c.toNat) a st).1 =
        (State.readBytes n a st).1 ++
          (if c then [hiByte (get (t.when c fun t => put (t.pull16 k).2 (t.pull16 k).1)),
            loByte (get (t.when c fun t => put (t.pull16 k).2 (t.pull16 k).1))] else []) := by
  cases c
  · exact ⟨h, by simp⟩
  · obtain ⟨h1, e1⟩ := h.pull16
    obtain ⟨p1, p2, p3, p4⟩ := hp (t.pull16 k).2 (t.pull16 k).1
    refine ⟨h1.of_eq p1 p2 p3 p4, ?_⟩
    simp only [Bool.toNat_true, Nat.mul_one, State.when_true, if_true, hget]
    exact e1

/-- A pull of a register list: the bytes upward from the stack pointer, read one after another, are what a push of the
list would stack from the state reached (43 R268, R284, R285). -/
theorem State.pullList_spec (k : Stack) (l : RegList) :
    Tracks st (st.sp k) k (listSize l) (st.pullList k l) ∧
      (st.pullList k l).frame k l = (State.readBytes (listSize l) (st.sp k) st).1 := by
  have h0 : Tracks st (st.sp k) k 0 st := ⟨rfl, rfl, rfl, by simp⟩
  have keep : ∀ (s : State) (v : Word), (s.setSp k.other v).platform = s.platform ∧ (s.setSp k.other v).mem = s.mem ∧
      (s.setSp k.other v).bus = s.bus ∧ (s.setSp k.other v).sp k = s.sp k := by
    intro s v; cases k <;> simp [State.sp, Stack.other, State.setSp]
  have spk : ∀ s : State, (∀ v, (s.setX v).sp k = s.sp k) ∧ (∀ v, (s.setY v).sp k = s.sp k) ∧
      (∀ v, (s.setA v).sp k = s.sp k) ∧ (∀ v, (s.setB v).sp k = s.sp k) ∧ (∀ v, (s.setDp v).sp k = s.sp k) ∧
      (∀ v, (s.setCC v).sp k = s.sp k) ∧ (∀ v, (s.setPc v).sp k = s.sp k) := by
    intro s; cases k <;> simp [State.sp]
  obtain ⟨h1, e1⟩ := h0.when8 l.cc (fun s v => s.setCC (CC.ofByte v)) (fun s => s.cc.toByte)
    (fun s v => CC.toByte_ofByte v) (fun s v => by simp [spk])
  obtain ⟨h2, e2⟩ := h1.when8 l.a (fun s v => s.setA v) (fun s => s.a) (fun s v => rfl) (fun s v => by simp [spk])
  obtain ⟨h3, e3⟩ := h2.when8 l.b (fun s v => s.setB v) (fun s => s.b) (fun s v => rfl) (fun s v => by simp [spk])
  obtain ⟨h4, e4⟩ := h3.when8 l.dp (fun s v => s.setDp v) (fun s => s.dp) (fun s v => rfl) (fun s v => by simp [spk])
  obtain ⟨h5, e5⟩ := h4.when16 l.x (fun s v => s.setX v) (fun s => s.x) (fun s v => rfl) (fun s v => by simp [spk])
  obtain ⟨h6, e6⟩ := h5.when16 l.y (fun s v => s.setY v) (fun s => s.y) (fun s v => rfl) (fun s v => by simp [spk])
  obtain ⟨h7, e7⟩ := h6.when16 l.other (fun s v => s.setSp k.other v) (fun s => s.sp k.other)
    (fun s v => by simp) (fun s v => keep s v)
  obtain ⟨h8, e8⟩ := h7.when16 l.pc (fun s v => s.setPc v) (fun s => s.pc) (fun s v => rfl) (fun s v => by simp [spk])
  have hn : 0 + l.cc.toNat + l.a.toNat + l.b.toNat + l.dp.toNat + 2 * l.x.toNat + 2 * l.y.toNat + 2 * l.other.toNat +
      2 * l.pc.toNat = listSize l := by unfold listSize; omega
  rw [hn] at h8 e8
  refine ⟨h8, ?_⟩
  rw [e8, e7, e6, e5, e4, e3, e2, e1]
  have spo : ∀ s : State, (∀ v, (s.setPc v).sp k.other = s.sp k.other) := by
    intro s; cases k <;> simp [State.sp, Stack.other]
  have sp16 : ∀ s : State, (s.pull16 k).2.sp k.other = s.sp k.other := fun s => s.pull16_sp_other k
  simp only [State.readBytes, List.nil_append, State.frame, State.pullList]
  refine congrArg₂ HAppend.hAppend ?_ rfl
  refine congrArg₂ HAppend.hAppend ?_ ?_
  rotate_left
  · refine ite_congr rfl (fun _ => congrArg (fun c => [hiByte c, loByte c]) ?_) (fun _ => rfl)
    iterate 1 refine Eq.trans (State.when_keep _ (fun s => s.sp k.other) _ _ (fun t => by simp [spo, sp16])) ?_
    rfl
  refine congrArg₂ HAppend.hAppend ?_ ?_
  rotate_left
  · refine ite_congr rfl (fun _ => congrArg (fun c => [hiByte c, loByte c]) ?_) (fun _ => rfl)
    iterate 2 refine Eq.trans (State.when_keep _ State.y _ _ (fun t => by simp)) ?_
    rfl
  refine congrArg₂ HAppend.hAppend ?_ ?_
  rotate_left
  · refine ite_congr rfl (fun _ => congrArg (fun c => [hiByte c, loByte c]) ?_) (fun _ => rfl)
    iterate 3 refine Eq.trans (State.when_keep _ State.x _ _ (fun t => by simp)) ?_
    rfl
  refine congrArg₂ HAppend.hAppend ?_ ?_
  rotate_left
  · refine ite_congr rfl (fun _ => congrArg (fun c => [c]) ?_) (fun _ => rfl)
    iterate 4 refine Eq.trans (State.when_keep _ State.dp _ _ (fun t => by simp)) ?_
    rfl
  refine congrArg₂ HAppend.hAppend ?_ ?_
  rotate_left
  · refine ite_congr rfl (fun _ => congrArg (fun c => [c]) ?_) (fun _ => rfl)
    iterate 5 refine Eq.trans (State.when_keep _ State.b _ _ (fun t => by simp)) ?_
    rfl
  refine congrArg₂ HAppend.hAppend ?_ ?_
  rotate_left
  · refine ite_congr rfl (fun _ => congrArg (fun c => [c]) ?_) (fun _ => rfl)
    iterate 6 refine Eq.trans (State.when_keep _ State.a _ _ (fun t => by simp)) ?_
    rfl
  refine ite_congr rfl (fun _ => congrArg (fun c : CC => [c.toByte]) ?_) (fun _ => rfl)
  iterate 7 refine Eq.trans (State.when_keep _ State.cc _ _ (fun t => by simp)) ?_
  rfl

theorem mem_listFields (k : Stack) (l : RegList) (f : Field) : f ∉ listFields k l →
    f ≠ k.field ∧ (f = .cc → l.cc = false) ∧ (f = .a → l.a = false) ∧ (f = .b → l.b = false) ∧
      (f = .dp → l.dp = false) ∧ (f = .x → l.x = false) ∧ (f = .y → l.y = false) ∧
      (f = k.other.field → l.other = false) ∧ (f = .pc → l.pc = false) := by
  obtain ⟨pc, other, y, x, dp, b, a, cc⟩ := l
  revert k f pc other y x dp b a cc
  intro k f
  cases k <;> cases f <;> decide

/-- Every field that the list does not name, its stack pointer apart, is after a pull what it was. -/
theorem State.pullList_keeps (k : Stack) (l : RegList) : Keeps (listFields k l) st (st.pullList k l) := by
  intro f hf
  obtain ⟨h0, hcc, ha, hb, hdp, hx, hy, ho, hpc⟩ := mem_listFields k l f hf
  have off : ∀ (s : State) (c : Bool) (g : State → State), c = false → s.when c g = s := by
    intro s c g hc; rw [hc]; rfl
  have spo : ∀ s : State, (∀ v, (s.setX v).sp k.other = s.sp k.other) ∧ (∀ v, (s.setY v).sp k.other = s.sp k.other) ∧
      (∀ v, (s.setA v).sp k.other = s.sp k.other) ∧ (∀ v, (s.setB v).sp k.other = s.sp k.other) ∧
      (∀ v, (s.setDp v).sp k.other = s.sp k.other) ∧ (∀ v, (s.setCC v).sp k.other = s.sp k.other) ∧
      (∀ v, (s.setPc v).sp k.other = s.sp k.other) := by
    intro s; cases k <;> simp [State.sp, Stack.other]
  have other : k.other.field = f → (st.pullList k l).sp k.other = st.sp k.other := by
    intro he
    simp only [State.pullList, off _ l.other _ (ho he.symm)]
    iterate 7 refine Eq.trans (State.when_keep _ (fun s => s.sp k.other) _ _ (fun t => by simp [spo])) ?_
    rfl
  cases f
  case a =>
    show (st.pullList k l).a = st.a
    simp only [State.pullList, off _ l.a _ (ha rfl)]
    iterate 7 refine Eq.trans (State.when_keep _ State.a _ _ (fun t => by simp)) ?_
    rfl
  case b =>
    show (st.pullList k l).b = st.b
    simp only [State.pullList, off _ l.b _ (hb rfl)]
    iterate 7 refine Eq.trans (State.when_keep _ State.b _ _ (fun t => by simp)) ?_
    rfl
  case dp =>
    show (st.pullList k l).dp = st.dp
    simp only [State.pullList, off _ l.dp _ (hdp rfl)]
    iterate 7 refine Eq.trans (State.when_keep _ State.dp _ _ (fun t => by simp)) ?_
    rfl
  case cc =>
    show (st.pullList k l).cc = st.cc
    simp only [State.pullList, off _ l.cc _ (hcc rfl)]
    iterate 7 refine Eq.trans (State.when_keep _ State.cc _ _ (fun t => by simp)) ?_
    rfl
  case x =>
    show (st.pullList k l).x = st.x
    simp only [State.pullList, off _ l.x _ (hx rfl)]
    iterate 7 refine Eq.trans (State.when_keep _ State.x _ _ (fun t => by simp)) ?_
    rfl
  case y =>
    show (st.pullList k l).y = st.y
    simp only [State.pullList, off _ l.y _ (hy rfl)]
    iterate 7 refine Eq.trans (State.when_keep _ State.y _ _ (fun t => by simp)) ?_
    rfl
  case pc =>
    show (st.pullList k l).pc = st.pc
    simp only [State.pullList, off _ l.pc _ (hpc rfl)]
    iterate 7 refine Eq.trans (State.when_keep _ State.pc _ _ (fun t => by simp)) ?_
    rfl
  case u => cases k with
    | hardware => exact other rfl
    | user => exact absurd rfl h0
  case s => cases k with
    | hardware => exact absurd rfl h0
    | user => exact other rfl
  case nmiArmed =>
    show (st.pullList k l).nmiArmed = st.nmiArmed
    simp only [State.pullList]
    iterate 8 refine Eq.trans (State.when_keep _ State.nmiArmed _ _ (fun t => by simp)) ?_
    rfl
  case nmiPending =>
    show (st.pullList k l).nmiPending = st.nmiPending
    simp only [State.pullList]
    iterate 8 refine Eq.trans (State.when_keep _ State.nmiPending _ _ (fun t => by simp)) ?_
    rfl
  case wait =>
    show (st.pullList k l).wait = st.wait
    simp only [State.pullList]
    iterate 8 refine Eq.trans (State.when_keep _ State.wait _ _ (fun t => by simp)) ?_
    rfl
  case platform =>
    show (st.pullList k l).platform = st.platform
    simp only [State.pullList]
    iterate 8 refine Eq.trans (State.when_keep _ State.platform _ _ (fun t => by simp)) ?_
    rfl
  case inputs =>
    show (st.pullList k l).inputs = st.inputs
    simp only [State.pullList]
    iterate 8 refine Eq.trans (State.when_keep _ State.inputs _ _ (fun t => by simp)) ?_
    rfl

/-- A pull reads memory and leaves it as it is. -/
@[simp] theorem State.pullList_mem (k : Stack) (l : RegList) : (st.pullList k l).mem = st.mem :=
  (st.pullList_spec k l).1.mem

/-- The stack pointer stands after the last byte pulled. -/
theorem State.pullList_sp (k : Stack) (l : RegList) :
    (st.pullList k l).sp k = st.sp k + BitVec.ofNat 16 (listSize l) := (st.pullList_spec k l).1.sp

/-- The registers that a return from interrupt pulls: all of them where the E bit of the pulled CC is 1, PC and CC where
it is 0 (45 R366). -/
def State.returnList (st : State) : RegList :=
  if (CC.ofByte (st.read8 st.s).1).e then allRegisters else pcAndCC

/-- RTI is the pull of the frame whose kind the pulled CC tells. -/
theorem State.returnFromInterrupt_eq : st.returnFromInterrupt = st.pullList .hardware st.returnList := by
  have h : (st.pull8 .hardware).1 = (st.read8 st.s).1 := rfl
  unfold State.returnFromInterrupt State.returnList
  simp only [State.setCC_cc, h]
  cases (CC.ofByte (st.read8 st.s).1).e <;>
    simp only [State.pullList, allRegisters, pcAndCC, State.when_true, State.when_false, h, if_true, Bool.false_eq_true,
      if_false]

end Sys2Proof.Machine
end

