-- ==== Sys2Proof/Laws/Cycle.lean ====
section
/-! SUPPORT. What a boundary and a step do: fetching from memory, the cases of a boundary, and the frames of the interrupt
entries and of the reset sequence. -/

namespace Sys2Proof.Machine

variable (st : State)

/-! ## Fetching -/

/-- Bytes fetched from RAM or ROM are its content; only PC moves. -/
theorem State.fetchBytes_of_isMemory (n : Nat) (h : ∀ j, j < n → st.isMemory (st.pc + BitVec.ofNat 16 j) = true) :
    State.fetchBytes n st =
      ((addressesFrom n st.pc).map fun w => st.mem.read w.toNat, st.setPc (st.pc + BitVec.ofNat 16 n)) := by
  induction n generalizing st with
  | zero => simp [State.fetchBytes, addressesFrom, State.setPc]
  | succ n ih =>
    have h0 : st.isMemory st.pc = true := by simpa using h 0 (by omega)
    have hf : st.fetch8 = (st.mem.read st.pc.toNat, st.setPc (st.pc + 1)) := by
      rw [State.fetch8, State.read8_of_isMemory st st.pc h0]
    simp only [State.fetchBytes, hf, addressesFrom, List.map_cons]
    rw [ih (st.setPc (st.pc + 1)) fun j hj => by
      rw [State.setPc_pc, succ_address]
      exact (State.isMemory_of_platform rfl _).trans (h (j + 1) (by omega))]
    rw [State.setPc_pc, succ_address]
    rfl

/-- The first bytes of a longer fetch are those of a shorter one. -/
theorem State.fetchBytes_take (m n : Nat) :
    (State.fetchBytes (m + n) st).1.take m = (State.fetchBytes m st).1 := by
  induction m generalizing st with
  | zero => simp [State.fetchBytes]
  | succ m ih =>
    rw [show m + 1 + n = (m + n) + 1 by omega]
    simp only [State.fetchBytes, List.take_succ_cons, ih]

/-! ## The cases of a boundary -/

/-- The state in which a boundary examines its candidates: the inputs consumed, an armed edge latched, SYNC left if any
input is active. -/
def State.examined (st : State) : State :=
  ((st.setInputs st.inputs.tail).latchNmi st.nowInputs.nmiEdge).leaveSync st.nowInputs

/-- The wait state at the examination. -/
def State.examinedWait (st : State) : Wait :=
  if st.wait = .syncing ∧ (st.nmiDue || st.nowInputs.firq || st.nowInputs.irq) = true then .running else st.wait

theorem State.leaveSync_eq (inp : Inputs) :
    st.leaveSync inp = st.setWait (if st.wait = .syncing ∧ (st.nmiPending || inp.firq || inp.irq) = true then .running
      else st.wait) := by
  unfold State.leaveSync
  split <;> rfl

theorem State.examined_eq : st.examined = (st.advanced.setNmiPending st.nmiDue).setWait st.examinedWait :=
  State.leaveSync_eq _ _

/-- What a step comes to, case by case (60 R407). -/
theorem step_cases (s : State) :
    (s.nowInputs.reset = true ∧ step s = .next (s.advanced.setNmiPending s.nmiDue).resetSequence) ∨
    (s.nowInputs.reset = false ∧ s.nmiDue = true ∧ step s = .next s.examined.nmiEntry) ∨
    (s.nowInputs.reset = false ∧ s.nmiDue = false ∧ s.firqDue = true ∧ step s = .next s.examined.firqEntry) ∨
    (s.nowInputs.reset = false ∧ s.nmiDue = false ∧ s.firqDue = false ∧ s.irqDue = true ∧
      step s = .next s.examined.irqEntry) ∨
    (s.Uneventful ∧ s.examinedWait = .running ∧ step s = s.examined.runInstruction) ∨
    (s.Uneventful ∧ s.examinedWait ≠ .running ∧ step s = .next s.examined) := by
  have hp : s.examined.nmiPending = s.nmiDue := by rw [State.examined_eq]; rfl
  have hcc : s.examined.cc = s.cc := by rw [State.examined_eq]; rfl
  have hw : s.examined.wait = s.examinedWait := by rw [State.examined_eq]; rfl
  have hb : s.boundary = if s.nowInputs.reset then
      .settled (s.advanced.setNmiPending s.nmiDue).resetSequence else s.examined.recognise s.nowInputs := rfl
  cases hr : s.nowInputs.reset
  · have hb' : s.boundary = s.examined.recognise s.nowInputs := by rw [hb, hr]; rfl
    right
    cases hn : s.nmiDue
    · right
      cases hf : s.firqDue
      · right
        have hf' : (s.nowInputs.firq && !s.cc.f) = false := hf
        cases hi : s.irqDue
        · right
          have hi' : (s.nowInputs.irq && !s.cc.i) = false := hi
          by_cases hx : s.examinedWait = .running
          · left
            refine ⟨⟨hr, hn, hf, hi⟩, hx, ?_⟩
            simp [step, State.cycle, hb', State.recognise, hp, hn, hcc, hf', hi', hw, hx]
          · right
            refine ⟨⟨hr, hn, hf, hi⟩, hx, ?_⟩
            simp [step, State.cycle, hb', State.recognise, hp, hn, hcc, hf', hi', hw, hx]
        · left
          have hi' : (s.nowInputs.irq && !s.cc.i) = true := hi
          refine ⟨rfl, rfl, rfl, rfl, ?_⟩
          simp only [step, State.cycle, hb', State.recognise, hp, hn, hcc, hf', hi', Bool.false_eq_true, if_false, if_true]
      · left
        have hf' : (s.nowInputs.firq && !s.cc.f) = true := hf
        refine ⟨rfl, rfl, rfl, ?_⟩
        simp only [step, State.cycle, hb', State.recognise, hp, hn, hcc, hf', Bool.false_eq_true, if_false, if_true]
    · left
      refine ⟨rfl, rfl, ?_⟩
      simp only [step, State.cycle, hb', State.recognise, hp, hn, if_true]
  · left
    refine ⟨rfl, ?_⟩
    simp only [step, State.cycle, hb, hr, if_true]

/-! ## Entries and reset -/

/-- A vector's word is what a read returns in the state that the entry has reached. -/
theorem takesVector_takeVector (v : Word) : TakesVector (st.takeVector v) v := by
  refine ⟨st.bus, ?_, ?_⟩
  · exact (State.read16_fst_congr (s := (st.takeVector v).setBus st.bus) (t := st) v (by simp) (by simp) rfl).1
  · exact (State.read16_fst_congr (s := (st.takeVector v).setBus st.bus) (t := st) v (by simp) (by simp) rfl).2

theorem keeps_takeVector (v : Word) : Keeps [.pc] st (st.takeVector v) := by
  intro f hf
  cases f <;> first
    | (simp [Field.same]; done)
    | exact absurd (List.Mem.head _) hf

end Sys2Proof.Machine
end

