-- ==== Sys2Proof/Laws/Accesses.lean ====
section
/-! SUPPORT. The record of the environment's accesses: what it depends on, and one lemma for each shared operation that says
which accesses the operation makes (20 R60). -/

namespace Sys2Proof.Machine

variable (st : State)

/-! ## What the record depends on -/

/-- What a write adds to the record depends on the platform and the earlier accesses alone. -/
theorem State.write8_bus_congr {s t : State} (w : Word) (v : Byte) (hp : t.platform = s.platform) (hb : t.bus = s.bus) :
    (t.write8 w v).bus = (s.write8 w v).bus := by
  have hk : t.kind w = s.kind w := State.kind_of_platform hp w
  unfold State.write8
  rw [hk]
  split <;> simp [hb]

theorem State.write16_bus_congr {s t : State} (w v : Word) (hp : t.platform = s.platform) (hb : t.bus = s.bus) :
    (t.write16 w v).bus = (s.write16 w v).bus :=
  State.write8_bus_congr _ _ (by simp [hp]) (State.write8_bus_congr _ _ hp hb)

/-- What a read adds to the record depends on the platform and the earlier accesses alone. -/
theorem State.read8_bus_congr {s t : State} (w : Word) (hp : t.platform = s.platform) (hb : t.bus = s.bus) :
    (t.read8 w).2.bus = (s.read8 w).2.bus := by
  have hk : t.kind w = s.kind w := State.kind_of_platform hp w
  unfold State.read8
  rw [hk]
  split <;> simp [hb]

theorem State.read16_bus_congr {s t : State} (w : Word) (hp : t.platform = s.platform) (hb : t.bus = s.bus) :
    (t.read16 w).2.bus = (s.read16 w).2.bus :=
  State.read8_bus_congr _ (by simp [hp]) (State.read8_bus_congr _ hp hb)

/-! ## Pushes -/

@[simp] theorem State.storeDown_platform (a : Word) (bs : List Byte) : (st.storeDown a bs).platform = st.platform := by
  induction bs generalizing st a with
  | nil => rfl
  | cons v rest ih => rw [State.storeDown, ih, State.write8_platform]

theorem State.storeDown_bus_congr {s t : State} (a : Word) (bs : List Byte) (hp : t.platform = s.platform)
    (hb : t.bus = s.bus) : (t.storeDown a bs).bus = (s.storeDown a bs).bus := by
  induction bs generalizing s t a with
  | nil => exact hb
  | cons v rest ih => exact ih _ (by simp [hp]) (State.write8_bus_congr _ _ hp hb)

/-- Pushed bytes are written downward from the stack pointer. -/
theorem State.pushBytes_bus (k : Stack) (bs : List Byte) :
    (st.pushBytes k bs).bus = (st.storeDown (st.sp k) bs).bus := by
  induction bs generalizing st with
  | nil => rfl
  | cons v rest ih =>
    rw [State.pushBytes_cons, ih, State.push8_sp]
    exact State.storeDown_bus_congr _ _ (by simp)
      (State.write8_bus_congr _ _ (State.setSp_platform st k _) (State.setSp_bus st k _))

theorem State.push16_bus (k : Stack) (v : Word) :
    (st.push16 k v).bus = (st.storeDown (st.sp k) [loByte v, hiByte v]).bus :=
  st.pushBytes_bus k [loByte v, hiByte v]

theorem State.pushList_bus (k : Stack) (l : RegList) :
    (st.pushList k l).bus = (st.storeDown (st.sp k) (st.frame k l).reverse).bus := by
  rw [State.pushList_eq]; exact st.pushBytes_bus k _

/-- Stacking the entire state, with the CC of the moment, is one frame written downward. -/
theorem State.pushEntire_bus (cc : CC) : ((st.setCC cc).pushEntire).bus = (st.storeFrame allRegisters cc).bus := by
  rw [State.pushEntire_eq, State.pushList_bus]
  exact State.storeDown_bus_congr _ _ rfl rfl

theorem State.pushFast_bus (cc : CC) : ((st.setCC cc).pushFast).bus = (st.storeFrame pcAndCC cc).bus := by
  rw [State.pushFast_eq, State.pushList_bus]
  exact State.storeDown_bus_congr _ _ rfl rfl

@[simp] theorem State.storeFrame_platform (l : RegList) (cc : CC) : (st.storeFrame l cc).platform = st.platform :=
  st.storeDown_platform _ _

/-! ## Pulls and vectors -/

theorem State.pullList_bus (k : Stack) (l : RegList) :
    (st.pullList k l).bus = (State.readBytes (listSize l) (st.sp k) st).2.bus := (st.pullList_spec k l).1.bus

theorem State.pull16_bus (k : Stack) : (st.pull16 k).2.bus = (st.read16 (st.sp k)).2.bus := by
  have h : (st.pull8 k).2.sp k = st.sp k + 1 := st.pull8_sp k
  simp only [State.pull16, State.read16, State.pull8] at h ⊢
  rw [State.setSp_bus, h]
  exact State.read8_bus_congr _ (State.setSp_platform _ k _) (State.setSp_bus _ k _)

/-- RTI reads twelve bytes or three, as the E bit of the first says. -/
theorem State.returnFromInterrupt_bus : st.returnFromInterrupt.bus =
    (State.readBytes (if (st.byteAt st.s).getLsbD 7 then 12 else 3) st.s st).2.bus := by
  have h : (CC.ofByte (st.read8 st.s).1).e = (st.byteAt st.s).getLsbD 7 := rfl
  have hl : listSize st.returnList = if (st.byteAt st.s).getLsbD 7 then 12 else 3 := by
    rw [State.returnList, h]
    cases (st.byteAt st.s).getLsbD 7 <;> rfl
  rw [State.returnFromInterrupt_eq, State.pullList_bus, hl]
  rfl

theorem State.takeVector_bus (v : Word) : (st.takeVector v).bus = (st.read16 v).2.bus := rfl

/-- A vector read in a state with the record and the platform of another adds to the record what it adds there. -/
theorem State.takeVector_bus_congr {s t : State} (v : Word) (hp : t.platform = s.platform) (hb : t.bus = s.bus) :
    (t.takeVector v).bus = (s.read16 v).2.bus := State.read16_bus_congr v hp hb

/-! ## Entries -/

theorem State.swiStack_bus : st.swiStack.bus = (st.storeFrame allRegisters { st.cc with e := true }).bus :=
  st.pushEntire_bus _
@[simp] theorem State.swiStack_platform : st.swiStack.platform = st.platform :=
  (st.setE true).pushEntire_platform

/-- What a hardware entry has stacked before it reads its vector. -/
theorem State.stackEntire_bus : st.stackEntire.bus =
    (if st.wait = .cwaiWaiting then st else st.storeFrame allRegisters { st.cc with e := true }).bus := by
  unfold State.stackEntire
  split
  · rfl
  · exact st.pushEntire_bus _
theorem State.stackFast_bus : st.stackFast.bus =
    (if st.wait = .cwaiWaiting then st else st.storeFrame pcAndCC { st.cc with e := false }).bus := by
  unfold State.stackFast
  split
  · rfl
  · exact st.pushFast_bus _
@[simp] theorem State.stackEntire_platform : st.stackEntire.platform = st.platform := by
  unfold State.stackEntire
  split
  · rfl
  · exact (st.setE true).pushEntire_platform
@[simp] theorem State.stackFast_platform : st.stackFast.platform = st.platform := by
  unfold State.stackFast
  split
  · rfl
  · exact (st.setE false).pushFast_platform

@[simp] theorem State.entryAccesses_platform (l : RegList) (cc : CC) (v : Word) :
    (st.entryAccesses l cc v).platform = st.platform := by
  unfold State.entryAccesses
  split <;> simp

/-- The accesses of the three entries: the frame, unless CWAI has stacked it, then the vector. -/
theorem State.nmiEntry_bus :
    st.nmiEntry.bus = (st.entryAccesses allRegisters { st.cc with e := true } vectorNmi).bus := by
  refine State.takeVector_bus_congr _ ?_ ?_
  · show (st.setNmiPending false).stackEntire.platform = _
    rw [State.stackEntire_platform]
    split <;> simp
  · refine ((st.setNmiPending false).stackEntire_bus).trans ?_
    by_cases h : st.wait = .cwaiWaiting
    · rw [if_pos (show (st.setNmiPending false).wait = .cwaiWaiting from h), if_pos h]; rfl
    · rw [if_neg (show ¬(st.setNmiPending false).wait = .cwaiWaiting from h), if_neg h]
      unfold State.storeFrame
      exact State.storeDown_bus_congr _ _ rfl rfl
theorem State.firqEntry_bus :
    st.firqEntry.bus = (st.entryAccesses pcAndCC { st.cc with e := false } vectorFirq).bus := by
  refine State.takeVector_bus_congr _ ?_ st.stackFast_bus
  show st.stackFast.platform = _
  rw [State.stackFast_platform]
  split <;> simp
theorem State.irqEntry_bus :
    st.irqEntry.bus = (st.entryAccesses allRegisters { st.cc with e := true } vectorIrq).bus := by
  refine State.takeVector_bus_congr _ ?_ st.stackEntire_bus
  show st.stackEntire.platform = _
  rw [State.stackEntire_platform]
  split <;> simp

/-! ## Fetching -/

/-- The bytes of an instruction are read once each, in ascending order. -/
theorem State.fetchBytes_bus (n : Nat) : (State.fetchBytes n st).1 = (State.readBytes n st.pc st).1 ∧
    (State.fetchBytes n st).2.bus = (State.readBytes n st.pc st).2.bus := by
  suffices h : ∀ (s t : State), t.platform = s.platform → t.mem = s.mem → t.bus = s.bus →
      (State.fetchBytes n t).1 = (State.readBytes n t.pc s).1 ∧
      (State.fetchBytes n t).2.bus = (State.readBytes n t.pc s).2.bus from h st st rfl rfl rfl
  induction n with
  | zero => intro s t _ _ hb; exact ⟨rfl, hb⟩
  | succ n ih =>
    intro s t hp hm hb
    have h0 := State.read8_fst_congr t.pc hp hm hb
    have h := ih (s.read8 t.pc).2 t.fetch8.2 (by simp [State.fetch8, hp]) (by simp [State.fetch8, hm]) h0.2
    exact ⟨by simp only [State.fetchBytes, State.readBytes]; exact congrArg₂ _ h0.1 h.1, h.2⟩

/-! ## The shared shapes of the data instructions -/

@[simp] theorem State.writeReg_bus (r : Reg) (v : Word) : (st.writeReg r v).bus = st.bus := by cases r <;> rfl
@[simp] theorem State.addAcc_bus (r : Acc) (c : Bool) (o : Src8) : (st.addAcc r c o).bus = (st.operand8 o).2.bus := by
  simp [State.addAcc]
@[simp] theorem State.subAcc_bus (r : Acc) (c : Bool) (o : Src8) : (st.subAcc r c o).bus = (st.operand8 o).2.bus := by
  simp [State.subAcc]
@[simp] theorem State.cmpAcc_bus (r : Acc) (o : Src8) : (st.cmpAcc r o).bus = (st.operand8 o).2.bus := by
  simp [State.cmpAcc]
@[simp] theorem State.logicAcc_bus (r : Acc) (f : Byte → Byte → Byte) (o : Src8) :
    (st.logicAcc r f o).bus = (st.operand8 o).2.bus := by simp [State.logicAcc]
@[simp] theorem State.bitAcc_bus (r : Acc) (o : Src8) : (st.bitAcc r o).bus = (st.operand8 o).2.bus := by
  simp [State.bitAcc]
@[simp] theorem State.loadAcc_bus (r : Acc) (o : Src8) : (st.loadAcc r o).bus = (st.operand8 o).2.bus := by
  simp [State.loadAcc]
@[simp] theorem State.testMem_bus (e : Ea) : (st.testMem e).bus = ((st.ea e).2.read8 (st.ea e).1).2.bus := by
  simp [State.testMem]
@[simp] theorem State.addD_bus (o : Src16) : (st.addD o).bus = (st.operand16 o).2.bus := by simp [State.addD]
@[simp] theorem State.subD_bus (o : Src16) : (st.subD o).bus = (st.operand16 o).2.bus := by simp [State.subD]
@[simp] theorem State.compare16_bus (r : Reg) (o : Src16) : (st.compare16 r o).bus = (st.operand16 o).2.bus := by
  simp [State.compare16]
@[simp] theorem State.load16_bus (r : Reg) (o : Src16) : (st.load16 r o).bus = (st.operand16 o).2.bus := by
  simp [State.load16]
@[simp] theorem State.leaIndex_bus (r : Reg) (m : Indexed) : (st.leaIndex r m).bus = (st.eaIndexed m).2.bus := by
  simp [State.leaIndex]
@[simp] theorem State.leaStack_bus (r : Reg) (m : Indexed) : (st.leaStack r m).bus = (st.eaIndexed m).2.bus := by
  simp [State.leaStack]

/-- A store writes at the effective address and does not read there. -/
theorem State.storeAcc_bus (r : Acc) (e : Ea) :
    (st.storeAcc r e).bus = ((st.ea e).2.write8 (st.ea e).1 (st.acc r)).bus := by
  simp only [State.storeAcc, State.ea_acc]
  exact State.write8_bus_congr _ _ rfl rfl

theorem State.store16_bus (r : Reg) (e : Ea) : (st.store16 r e).bus =
    ((st.ea e).2.write16 (st.ea e).1 ((st.updated (eaUpdate e)).readReg r)).bus := by
  simp only [State.store16, State.ea_readReg]
  exact State.write16_bus_congr _ _ rfl rfl

/-- A read-modify-write instruction reads the byte and writes the result at the same address. -/
theorem State.unaryMem_defined_bus (e : Ea) (f : Byte → CC → Byte × CC) : (st.unaryMem e (definedFlags f)).bus =
    (((st.ea e).2.read8 (st.ea e).1).2.write8 (st.ea e).1 (f (st.eaByte e) st.cc).1).bus := by
  have hc : ((st.ea e).2.read8 (st.ea e).1).2.cc = st.cc := by simp
  simp only [State.unaryMem, definedFlags, hc]
  exact State.write8_bus_congr _ _ rfl rfl

theorem State.unaryMem_undefinedH_bus (e : Ea) (f : Byte → Bool → CC → Byte × CC) :
    (st.unaryMem e (undefinedH f)).bus = (((st.ea e).2.read8 (st.ea e).1).2.write8 (st.ea e).1
      (f (st.eaByte e) (Config.undefBit st.draws) st.cc).1).bus := by
  have hc : ((st.ea e).2.read8 (st.ea e).1).2.cc = st.cc := by simp
  have hd : ((st.ea e).2.read8 (st.ea e).1).2.draws = st.draws := by simp
  simp only [State.unaryMem, undefinedH, State.draw_fst, State.draw_snd, State.setDraws_cc, hc, hd]
  exact State.write8_bus_congr _ _ rfl rfl

@[simp] theorem State.unaryAcc_defined_bus (r : Acc) (f : Byte → CC → Byte × CC) :
    (st.unaryAcc r (definedFlags f)).bus = st.bus := by simp [State.unaryAcc]; rfl
@[simp] theorem State.unaryAcc_undefinedH_bus (r : Acc) (f : Byte → Bool → CC → Byte × CC) :
    (st.unaryAcc r (undefinedH f)).bus = st.bus := by simp [State.unaryAcc]; rfl
@[simp] theorem State.branch_bus (c : Bool) (off : Word) : (st.branch c off).bus = st.bus := by
  unfold State.branch; split <;> rfl
theorem State.branchSub_bus (off : Word) :
    (st.branchSub off).bus = (st.storeDown st.s [loByte st.pc, hiByte st.pc]).bus := st.push16_bus .hardware st.pc
@[simp] theorem State.exchange_bus (r1 r2 : Reg) : (st.exchange r1 r2).bus = st.bus := by
  unfold State.exchange; split <;> simp [State.armNmi]
@[simp] theorem State.transfer_bus (r1 r2 : Reg) : (st.transfer r1 r2).bus = st.bus := by
  unfold State.transfer; split <;> simp [State.armNmi]

end Sys2Proof.Machine
end

