-- ==== Sys2Proof/Laws/PerInstr.lean ====
section
/-! SUPPORT. What holds of every instruction as syntax, one lemma for each constructor of `Instr`: its encoding takes one to
five bytes (30 R80). -/

namespace Sys2Proof.Laws.EncodeLength

/-- The encoding of an instruction takes one to five bytes (30 R80). -/
def Statement (i : Instr) : Prop := 1 ≤ (encode i).length ∧ (encode i).length ≤ longest

/-- An indexed operand takes a postbyte and at most two bytes more (30 R107). -/
theorem encodeIndexed_length (m : Indexed) : 1 ≤ (encodeIndexed m).length ∧ (encodeIndexed m).length ≤ 3 := by
  cases m <;> simp [encodeIndexed]

/-- A memory operand with its opcode takes two to four bytes behind the page byte. -/
theorem encodeEa_length (page : List Byte) (d x e : Byte) (ea : Ea) (h : page.length ≤ 1) :
    1 ≤ (encodeEa page d x e ea).length ∧ (encodeEa page d x e ea).length ≤ longest := by
  cases ea with
  | dir lo => simp [encodeEa, longest]; omega
  | ext a => simp [encodeEa, longest]; omega
  | idx m =>
    have hm := encodeIndexed_length m
    simp only [encodeEa, longest, List.length_append, List.length_cons]
    omega

/-- The encodings with an 8-bit source operand. -/
theorem encodeSrc8_length (i d x e : Byte) (o : Src8) :
    1 ≤ (encodeSrc8 i d x e o).length ∧ (encodeSrc8 i d x e o).length ≤ longest := by
  cases o with
  | imm v => simp [encodeSrc8, longest]
  | mem ea => exact encodeEa_length [] d x e ea (by simp)

/-- The encodings with a 16-bit source operand. -/
theorem encodeSrc16_length (page : List Byte) (i d x e : Byte) (o : Src16) (h : page.length ≤ 1) :
    1 ≤ (encodeSrc16 page i d x e o).length ∧ (encodeSrc16 page i d x e o).length ≤ longest := by
  cases o with
  | imm v => simp [encodeSrc16, longest]; omega
  | mem ea => exact encodeEa_length page d x e ea h

/-- An encoding of a fixed length. -/
theorem ofLength (i : Instr) (n : Nat) (h : (encode i).length = n) (h1 : 1 ≤ n) (h5 : n ≤ longest) : Statement i := by
  unfold Statement
  omega

/-- LEA: the opcode before the indexed operand. -/
theorem encodeLea_length (op : Byte) (m : Indexed) :
    1 ≤ (op :: encodeIndexed m).length ∧ (op :: encodeIndexed m).length ≤ longest := by
  have hm := encodeIndexed_length m
  simp only [longest, List.length_cons]
  omega

theorem adca (x0 : Src8) : Statement (.adca x0) := encodeSrc8_length _ _ _ _ x0
theorem adcb (x0 : Src8) : Statement (.adcb x0) := encodeSrc8_length _ _ _ _ x0
theorem adda (x0 : Src8) : Statement (.adda x0) := encodeSrc8_length _ _ _ _ x0
theorem addb (x0 : Src8) : Statement (.addb x0) := encodeSrc8_length _ _ _ _ x0
theorem anda (x0 : Src8) : Statement (.anda x0) := encodeSrc8_length _ _ _ _ x0
theorem andb (x0 : Src8) : Statement (.andb x0) := encodeSrc8_length _ _ _ _ x0
theorem asl (x0 : Ea) : Statement (.asl x0) := encodeEa_length _ _ _ _ x0 (by simp)
theorem asla : Statement .asla := ofLength _ 1 rfl (by decide) (by decide)
theorem aslb : Statement .aslb := ofLength _ 1 rfl (by decide) (by decide)
theorem asr (x0 : Ea) : Statement (.asr x0) := encodeEa_length _ _ _ _ x0 (by simp)
theorem asra : Statement .asra := ofLength _ 1 rfl (by decide) (by decide)
theorem asrb : Statement .asrb := ofLength _ 1 rfl (by decide) (by decide)
theorem bita (x0 : Src8) : Statement (.bita x0) := encodeSrc8_length _ _ _ _ x0
theorem bitb (x0 : Src8) : Statement (.bitb x0) := encodeSrc8_length _ _ _ _ x0
theorem clr (x0 : Ea) : Statement (.clr x0) := encodeEa_length _ _ _ _ x0 (by simp)
theorem clra : Statement .clra := ofLength _ 1 rfl (by decide) (by decide)
theorem clrb : Statement .clrb := ofLength _ 1 rfl (by decide) (by decide)
theorem cmpa (x0 : Src8) : Statement (.cmpa x0) := encodeSrc8_length _ _ _ _ x0
theorem cmpb (x0 : Src8) : Statement (.cmpb x0) := encodeSrc8_length _ _ _ _ x0
theorem com (x0 : Ea) : Statement (.com x0) := encodeEa_length _ _ _ _ x0 (by simp)
theorem coma : Statement .coma := ofLength _ 1 rfl (by decide) (by decide)
theorem comb : Statement .comb := ofLength _ 1 rfl (by decide) (by decide)
theorem daa : Statement .daa := ofLength _ 1 rfl (by decide) (by decide)
theorem dec (x0 : Ea) : Statement (.dec x0) := encodeEa_length _ _ _ _ x0 (by simp)
theorem deca : Statement .deca := ofLength _ 1 rfl (by decide) (by decide)
theorem decb : Statement .decb := ofLength _ 1 rfl (by decide) (by decide)
theorem eora (x0 : Src8) : Statement (.eora x0) := encodeSrc8_length _ _ _ _ x0
theorem eorb (x0 : Src8) : Statement (.eorb x0) := encodeSrc8_length _ _ _ _ x0
theorem exg (x0 : Reg) (x1 : Reg) : Statement (.exg x0 x1) := ofLength _ 2 rfl (by decide) (by decide)
theorem inc (x0 : Ea) : Statement (.inc x0) := encodeEa_length _ _ _ _ x0 (by simp)
theorem inca : Statement .inca := ofLength _ 1 rfl (by decide) (by decide)
theorem incb : Statement .incb := ofLength _ 1 rfl (by decide) (by decide)
theorem lda (x0 : Src8) : Statement (.lda x0) := encodeSrc8_length _ _ _ _ x0
theorem ldb (x0 : Src8) : Statement (.ldb x0) := encodeSrc8_length _ _ _ _ x0
theorem lsr (x0 : Ea) : Statement (.lsr x0) := encodeEa_length _ _ _ _ x0 (by simp)
theorem lsra : Statement .lsra := ofLength _ 1 rfl (by decide) (by decide)
theorem lsrb : Statement .lsrb := ofLength _ 1 rfl (by decide) (by decide)
theorem mul : Statement .mul := ofLength _ 1 rfl (by decide) (by decide)
theorem neg (x0 : Ea) : Statement (.neg x0) := encodeEa_length _ _ _ _ x0 (by simp)
theorem nega : Statement .nega := ofLength _ 1 rfl (by decide) (by decide)
theorem negb : Statement .negb := ofLength _ 1 rfl (by decide) (by decide)
theorem ora (x0 : Src8) : Statement (.ora x0) := encodeSrc8_length _ _ _ _ x0
theorem orb (x0 : Src8) : Statement (.orb x0) := encodeSrc8_length _ _ _ _ x0
theorem rol (x0 : Ea) : Statement (.rol x0) := encodeEa_length _ _ _ _ x0 (by simp)
theorem rola : Statement .rola := ofLength _ 1 rfl (by decide) (by decide)
theorem rolb : Statement .rolb := ofLength _ 1 rfl (by decide) (by decide)
theorem ror (x0 : Ea) : Statement (.ror x0) := encodeEa_length _ _ _ _ x0 (by simp)
theorem rora : Statement .rora := ofLength _ 1 rfl (by decide) (by decide)
theorem rorb : Statement .rorb := ofLength _ 1 rfl (by decide) (by decide)
theorem sbca (x0 : Src8) : Statement (.sbca x0) := encodeSrc8_length _ _ _ _ x0
theorem sbcb (x0 : Src8) : Statement (.sbcb x0) := encodeSrc8_length _ _ _ _ x0
theorem sta (x0 : Ea) : Statement (.sta x0) := encodeEa_length _ _ _ _ x0 (by simp)
theorem stb (x0 : Ea) : Statement (.stb x0) := encodeEa_length _ _ _ _ x0 (by simp)
theorem suba (x0 : Src8) : Statement (.suba x0) := encodeSrc8_length _ _ _ _ x0
theorem subb (x0 : Src8) : Statement (.subb x0) := encodeSrc8_length _ _ _ _ x0
theorem tst (x0 : Ea) : Statement (.tst x0) := encodeEa_length _ _ _ _ x0 (by simp)
theorem tsta : Statement .tsta := ofLength _ 1 rfl (by decide) (by decide)
theorem tstb : Statement .tstb := ofLength _ 1 rfl (by decide) (by decide)
theorem tfr (x0 : Reg) (x1 : Reg) : Statement (.tfr x0 x1) := ofLength _ 2 rfl (by decide) (by decide)
theorem addd (x0 : Src16) : Statement (.addd x0) := encodeSrc16_length _ _ _ _ _ x0 (by simp)
theorem cmpd (x0 : Src16) : Statement (.cmpd x0) := encodeSrc16_length _ _ _ _ _ x0 (by simp)
theorem ldd (x0 : Src16) : Statement (.ldd x0) := encodeSrc16_length _ _ _ _ _ x0 (by simp)
theorem sex : Statement .sex := ofLength _ 1 rfl (by decide) (by decide)
theorem std (x0 : Ea) : Statement (.std x0) := encodeEa_length _ _ _ _ x0 (by simp)
theorem subd (x0 : Src16) : Statement (.subd x0) := encodeSrc16_length _ _ _ _ _ x0 (by simp)
theorem cmps (x0 : Src16) : Statement (.cmps x0) := encodeSrc16_length _ _ _ _ _ x0 (by simp)
theorem cmpu (x0 : Src16) : Statement (.cmpu x0) := encodeSrc16_length _ _ _ _ _ x0 (by simp)
theorem cmpx (x0 : Src16) : Statement (.cmpx x0) := encodeSrc16_length _ _ _ _ _ x0 (by simp)
theorem cmpy (x0 : Src16) : Statement (.cmpy x0) := encodeSrc16_length _ _ _ _ _ x0 (by simp)
theorem leas (x0 : Indexed) : Statement (.leas x0) := encodeLea_length _ x0
theorem leau (x0 : Indexed) : Statement (.leau x0) := encodeLea_length _ x0
theorem leax (x0 : Indexed) : Statement (.leax x0) := encodeLea_length _ x0
theorem leay (x0 : Indexed) : Statement (.leay x0) := encodeLea_length _ x0
theorem lds (x0 : Src16) : Statement (.lds x0) := encodeSrc16_length _ _ _ _ _ x0 (by simp)
theorem ldu (x0 : Src16) : Statement (.ldu x0) := encodeSrc16_length _ _ _ _ _ x0 (by simp)
theorem ldx (x0 : Src16) : Statement (.ldx x0) := encodeSrc16_length _ _ _ _ _ x0 (by simp)
theorem ldy (x0 : Src16) : Statement (.ldy x0) := encodeSrc16_length _ _ _ _ _ x0 (by simp)
theorem pshs (x0 : RegList) : Statement (.pshs x0) := ofLength _ 2 rfl (by decide) (by decide)
theorem pshu (x0 : RegList) : Statement (.pshu x0) := ofLength _ 2 rfl (by decide) (by decide)
theorem puls (x0 : RegList) : Statement (.puls x0) := ofLength _ 2 rfl (by decide) (by decide)
theorem pulu (x0 : RegList) : Statement (.pulu x0) := ofLength _ 2 rfl (by decide) (by decide)
theorem sts (x0 : Ea) : Statement (.sts x0) := encodeEa_length _ _ _ _ x0 (by simp)
theorem stu (x0 : Ea) : Statement (.stu x0) := encodeEa_length _ _ _ _ x0 (by simp)
theorem stx (x0 : Ea) : Statement (.stx x0) := encodeEa_length _ _ _ _ x0 (by simp)
theorem sty (x0 : Ea) : Statement (.sty x0) := encodeEa_length _ _ _ _ x0 (by simp)
theorem abx : Statement .abx := ofLength _ 1 rfl (by decide) (by decide)
theorem beq (x0 : Byte) : Statement (.beq x0) := ofLength _ 2 rfl (by decide) (by decide)
theorem lbeq (x0 : Word) : Statement (.lbeq x0) := ofLength _ 4 rfl (by decide) (by decide)
theorem bne (x0 : Byte) : Statement (.bne x0) := ofLength _ 2 rfl (by decide) (by decide)
theorem lbne (x0 : Word) : Statement (.lbne x0) := ofLength _ 4 rfl (by decide) (by decide)
theorem bmi (x0 : Byte) : Statement (.bmi x0) := ofLength _ 2 rfl (by decide) (by decide)
theorem lbmi (x0 : Word) : Statement (.lbmi x0) := ofLength _ 4 rfl (by decide) (by decide)
theorem bpl (x0 : Byte) : Statement (.bpl x0) := ofLength _ 2 rfl (by decide) (by decide)
theorem lbpl (x0 : Word) : Statement (.lbpl x0) := ofLength _ 4 rfl (by decide) (by decide)
theorem bcs (x0 : Byte) : Statement (.bcs x0) := ofLength _ 2 rfl (by decide) (by decide)
theorem lbcs (x0 : Word) : Statement (.lbcs x0) := ofLength _ 4 rfl (by decide) (by decide)
theorem bcc (x0 : Byte) : Statement (.bcc x0) := ofLength _ 2 rfl (by decide) (by decide)
theorem lbcc (x0 : Word) : Statement (.lbcc x0) := ofLength _ 4 rfl (by decide) (by decide)
theorem bvs (x0 : Byte) : Statement (.bvs x0) := ofLength _ 2 rfl (by decide) (by decide)
theorem lbvs (x0 : Word) : Statement (.lbvs x0) := ofLength _ 4 rfl (by decide) (by decide)
theorem bvc (x0 : Byte) : Statement (.bvc x0) := ofLength _ 2 rfl (by decide) (by decide)
theorem lbvc (x0 : Word) : Statement (.lbvc x0) := ofLength _ 4 rfl (by decide) (by decide)
theorem bgt (x0 : Byte) : Statement (.bgt x0) := ofLength _ 2 rfl (by decide) (by decide)
theorem lbgt (x0 : Word) : Statement (.lbgt x0) := ofLength _ 4 rfl (by decide) (by decide)
theorem bge (x0 : Byte) : Statement (.bge x0) := ofLength _ 2 rfl (by decide) (by decide)
theorem lbge (x0 : Word) : Statement (.lbge x0) := ofLength _ 4 rfl (by decide) (by decide)
theorem ble (x0 : Byte) : Statement (.ble x0) := ofLength _ 2 rfl (by decide) (by decide)
theorem lble (x0 : Word) : Statement (.lble x0) := ofLength _ 4 rfl (by decide) (by decide)
theorem blt (x0 : Byte) : Statement (.blt x0) := ofLength _ 2 rfl (by decide) (by decide)
theorem lblt (x0 : Word) : Statement (.lblt x0) := ofLength _ 4 rfl (by decide) (by decide)
theorem bhi (x0 : Byte) : Statement (.bhi x0) := ofLength _ 2 rfl (by decide) (by decide)
theorem lbhi (x0 : Word) : Statement (.lbhi x0) := ofLength _ 4 rfl (by decide) (by decide)
theorem bls (x0 : Byte) : Statement (.bls x0) := ofLength _ 2 rfl (by decide) (by decide)
theorem lbls (x0 : Word) : Statement (.lbls x0) := ofLength _ 4 rfl (by decide) (by decide)
theorem bsr (x0 : Byte) : Statement (.bsr x0) := ofLength _ 2 rfl (by decide) (by decide)
theorem lbsr (x0 : Word) : Statement (.lbsr x0) := ofLength _ 3 rfl (by decide) (by decide)
theorem bra (x0 : Byte) : Statement (.bra x0) := ofLength _ 2 rfl (by decide) (by decide)
theorem lbra (x0 : Word) : Statement (.lbra x0) := ofLength _ 3 rfl (by decide) (by decide)
theorem brn (x0 : Byte) : Statement (.brn x0) := ofLength _ 2 rfl (by decide) (by decide)
theorem lbrn (x0 : Word) : Statement (.lbrn x0) := ofLength _ 4 rfl (by decide) (by decide)
theorem andcc (x0 : Byte) : Statement (.andcc x0) := ofLength _ 2 rfl (by decide) (by decide)
theorem cwai (x0 : Byte) : Statement (.cwai x0) := ofLength _ 2 rfl (by decide) (by decide)
theorem nop : Statement .nop := ofLength _ 1 rfl (by decide) (by decide)
theorem orcc (x0 : Byte) : Statement (.orcc x0) := ofLength _ 2 rfl (by decide) (by decide)
theorem jmp (x0 : Ea) : Statement (.jmp x0) := encodeEa_length _ _ _ _ x0 (by simp)
theorem jsr (x0 : Ea) : Statement (.jsr x0) := encodeEa_length _ _ _ _ x0 (by simp)
theorem rti : Statement .rti := ofLength _ 1 rfl (by decide) (by decide)
theorem rts : Statement .rts := ofLength _ 1 rfl (by decide) (by decide)
theorem swi : Statement .swi := ofLength _ 1 rfl (by decide) (by decide)
theorem swi2 : Statement .swi2 := ofLength _ 2 rfl (by decide) (by decide)
theorem swi3 : Statement .swi3 := ofLength _ 2 rfl (by decide) (by decide)
theorem sync : Statement .sync := ofLength _ 1 rfl (by decide) (by decide)

end Sys2Proof.Laws.EncodeLength
end

