-- ==== Sys2Proof/Tests/Slice0.lean ====
section
/-! SUPPORT. Tests of the model: the checks of well-formedness refuse what they should, every row of the opcode table
decodes as written out from the spec's encodings, single steps give what the spec's examples and test vectors say, and for
every statement with hypotheses a state that meets them. -/

namespace Sys2Proof.Tests

open Sys2Proof.Machine

/-! ## Well-formedness -/

theorem test_exg_of_two_widths_is_ill_formed : (Instr.exg .d .a).wellFormed = false := by decide
theorem test_tfr_of_two_widths_is_ill_formed : (Instr.tfr .dp .x).wellFormed = false := by decide
theorem test_exg_of_one_width_is_well_formed : (Instr.exg .a .dp).wellFormed = true := by decide

/-! ## Decoding: every row of the opcode table -/

/-- Every byte string decodes to the instruction beside it, with its length, whatever follows it. -/
def allDecode (rows : List (List Byte × Instr)) : Bool :=
  rows.all fun p => decide (decode (p.1 ++ [0xA5, 0x5A]) = .ok p.2 p.1.length)

theorem test_decode_direct_1 : allDecode
    [([0x00, 0x42], .neg (.dir 0x42)), ([0x03, 0x42], .com (.dir 0x42)), ([0x04, 0x42], .lsr (.dir 0x42)),
     ([0x06, 0x42], .ror (.dir 0x42)), ([0x07, 0x42], .asr (.dir 0x42)), ([0x08, 0x42], .asl (.dir 0x42)),
     ([0x09, 0x42], .rol (.dir 0x42)), ([0x0A, 0x42], .dec (.dir 0x42)), ([0x0C, 0x42], .inc (.dir 0x42)),
     ([0x0D, 0x42], .tst (.dir 0x42)), ([0x0E, 0x42], .jmp (.dir 0x42)), ([0x0F, 0x42], .clr (.dir 0x42)),
     ([0x90, 0x42], .suba (.mem (.dir 0x42))), ([0x91, 0x42], .cmpa (.mem (.dir 0x42))),
     ([0x92, 0x42], .sbca (.mem (.dir 0x42))), ([0x93, 0x42], .subd (.mem (.dir 0x42))),
     ([0x94, 0x42], .anda (.mem (.dir 0x42))), ([0x95, 0x42], .bita (.mem (.dir 0x42))),
     ([0x96, 0x42], .lda (.mem (.dir 0x42))), ([0x97, 0x42], .sta (.dir 0x42)),
     ([0x98, 0x42], .eora (.mem (.dir 0x42))), ([0x99, 0x42], .adca (.mem (.dir 0x42))),
     ([0x9A, 0x42], .ora (.mem (.dir 0x42))), ([0x9B, 0x42], .adda (.mem (.dir 0x42))),
     ([0x9C, 0x42], .cmpx (.mem (.dir 0x42))), ([0x9D, 0x42], .jsr (.dir 0x42)),
     ([0x9E, 0x42], .ldx (.mem (.dir 0x42))), ([0x9F, 0x42], .stx (.dir 0x42)),
     ([0xD0, 0x42], .subb (.mem (.dir 0x42))), ([0xD1, 0x42], .cmpb (.mem (.dir 0x42)))] = true := by decide

theorem test_decode_direct_2 : allDecode
    [([0xD2, 0x42], .sbcb (.mem (.dir 0x42))), ([0xD3, 0x42], .addd (.mem (.dir 0x42))),
     ([0xD4, 0x42], .andb (.mem (.dir 0x42))), ([0xD5, 0x42], .bitb (.mem (.dir 0x42))),
     ([0xD6, 0x42], .ldb (.mem (.dir 0x42))), ([0xD7, 0x42], .stb (.dir 0x42)),
     ([0xD8, 0x42], .eorb (.mem (.dir 0x42))), ([0xD9, 0x42], .adcb (.mem (.dir 0x42))),
     ([0xDA, 0x42], .orb (.mem (.dir 0x42))), ([0xDB, 0x42], .addb (.mem (.dir 0x42))),
     ([0xDC, 0x42], .ldd (.mem (.dir 0x42))), ([0xDD, 0x42], .std (.dir 0x42)),
     ([0xDE, 0x42], .ldu (.mem (.dir 0x42))), ([0xDF, 0x42], .stu (.dir 0x42)),
     ([0x10, 0x93, 0x42], .cmpd (.mem (.dir 0x42))), ([0x10, 0x9C, 0x42], .cmpy (.mem (.dir 0x42))),
     ([0x10, 0x9E, 0x42], .ldy (.mem (.dir 0x42))), ([0x10, 0x9F, 0x42], .sty (.dir 0x42)),
     ([0x10, 0xDE, 0x42], .lds (.mem (.dir 0x42))), ([0x10, 0xDF, 0x42], .sts (.dir 0x42)),
     ([0x11, 0x93, 0x42], .cmpu (.mem (.dir 0x42))), ([0x11, 0x9C, 0x42], .cmps (.mem (.dir 0x42)))] = true := by decide

theorem test_decode_inherent_1 : allDecode
    [([0x12], .nop), ([0x13], .sync), ([0x19], .daa), ([0x1D], .sex), ([0x39], .rts), ([0x3A], .abx),
     ([0x3B], .rti), ([0x3D], .mul), ([0x3F], .swi), ([0x40], .nega), ([0x43], .coma), ([0x44], .lsra),
     ([0x46], .rora), ([0x47], .asra), ([0x48], .asla), ([0x49], .rola), ([0x4A], .deca), ([0x4C], .inca),
     ([0x4D], .tsta), ([0x4F], .clra), ([0x50], .negb), ([0x53], .comb), ([0x54], .lsrb), ([0x56], .rorb),
     ([0x57], .asrb), ([0x58], .aslb), ([0x59], .rolb), ([0x5A], .decb), ([0x5C], .incb), ([0x5D], .tstb)] = true := by decide

theorem test_decode_inherent_2 : allDecode
    [([0x5F], .clrb), ([0x10, 0x3F], .swi2), ([0x11, 0x3F], .swi3)] = true := by decide

theorem test_decode_long_relative : allDecode
    [([0x16, 0x81, 0x23], .lbra 0x8123), ([0x17, 0x81, 0x23], .lbsr 0x8123),
     ([0x10, 0x21, 0x81, 0x23], .lbrn 0x8123), ([0x10, 0x22, 0x81, 0x23], .lbhi 0x8123),
     ([0x10, 0x23, 0x81, 0x23], .lbls 0x8123), ([0x10, 0x24, 0x81, 0x23], .lbcc 0x8123),
     ([0x10, 0x25, 0x81, 0x23], .lbcs 0x8123), ([0x10, 0x26, 0x81, 0x23], .lbne 0x8123),
     ([0x10, 0x27, 0x81, 0x23], .lbeq 0x8123), ([0x10, 0x28, 0x81, 0x23], .lbvc 0x8123),
     ([0x10, 0x29, 0x81, 0x23], .lbvs 0x8123), ([0x10, 0x2A, 0x81, 0x23], .lbpl 0x8123),
     ([0x10, 0x2B, 0x81, 0x23], .lbmi 0x8123), ([0x10, 0x2C, 0x81, 0x23], .lbge 0x8123),
     ([0x10, 0x2D, 0x81, 0x23], .lblt 0x8123), ([0x10, 0x2E, 0x81, 0x23], .lbgt 0x8123),
     ([0x10, 0x2F, 0x81, 0x23], .lble 0x8123)] = true := by decide

theorem test_decode_immediate_byte : allDecode
    [([0x1A, 0x9A], .orcc 0x9A), ([0x1C, 0x9A], .andcc 0x9A), ([0x3C, 0x9A], .cwai 0x9A),
     ([0x80, 0x9A], .suba (.imm 0x9A)), ([0x81, 0x9A], .cmpa (.imm 0x9A)), ([0x82, 0x9A], .sbca (.imm 0x9A)),
     ([0x84, 0x9A], .anda (.imm 0x9A)), ([0x85, 0x9A], .bita (.imm 0x9A)), ([0x86, 0x9A], .lda (.imm 0x9A)),
     ([0x88, 0x9A], .eora (.imm 0x9A)), ([0x89, 0x9A], .adca (.imm 0x9A)), ([0x8A, 0x9A], .ora (.imm 0x9A)),
     ([0x8B, 0x9A], .adda (.imm 0x9A)), ([0xC0, 0x9A], .subb (.imm 0x9A)), ([0xC1, 0x9A], .cmpb (.imm 0x9A)),
     ([0xC2, 0x9A], .sbcb (.imm 0x9A)), ([0xC4, 0x9A], .andb (.imm 0x9A)), ([0xC5, 0x9A], .bitb (.imm 0x9A)),
     ([0xC6, 0x9A], .ldb (.imm 0x9A)), ([0xC8, 0x9A], .eorb (.imm 0x9A)), ([0xC9, 0x9A], .adcb (.imm 0x9A)),
     ([0xCA, 0x9A], .orb (.imm 0x9A)), ([0xCB, 0x9A], .addb (.imm 0x9A))] = true := by decide

theorem test_decode_register_pair : allDecode
    [([0x1E, 0x8B], .exg .a .dp), ([0x1F, 0x8B], .tfr .a .dp)] = true := by decide

theorem test_decode_short_relative : allDecode
    [([0x20, 0xF0], .bra 0xF0), ([0x21, 0xF0], .brn 0xF0), ([0x22, 0xF0], .bhi 0xF0), ([0x23, 0xF0], .bls 0xF0),
     ([0x24, 0xF0], .bcc 0xF0), ([0x25, 0xF0], .bcs 0xF0), ([0x26, 0xF0], .bne 0xF0), ([0x27, 0xF0], .beq 0xF0),
     ([0x28, 0xF0], .bvc 0xF0), ([0x29, 0xF0], .bvs 0xF0), ([0x2A, 0xF0], .bpl 0xF0), ([0x2B, 0xF0], .bmi 0xF0),
     ([0x2C, 0xF0], .bge 0xF0), ([0x2D, 0xF0], .blt 0xF0), ([0x2E, 0xF0], .bgt 0xF0), ([0x2F, 0xF0], .ble 0xF0),
     ([0x8D, 0xF0], .bsr 0xF0)] = true := by decide

theorem test_decode_indexed_1 : allDecode
    [([0x30, 0xC8, 0xF7], .leax (.offset8 .u 0xF7 false)), ([0x31, 0xC8, 0xF7], .leay (.offset8 .u 0xF7 false)),
     ([0x32, 0xC8, 0xF7], .leas (.offset8 .u 0xF7 false)), ([0x33, 0xC8, 0xF7], .leau (.offset8 .u 0xF7 false)),
     ([0x60, 0xC8, 0xF7], .neg (.idx (.offset8 .u 0xF7 false))),
     ([0x63, 0xC8, 0xF7], .com (.idx (.offset8 .u 0xF7 false))),
     ([0x64, 0xC8, 0xF7], .lsr (.idx (.offset8 .u 0xF7 false))),
     ([0x66, 0xC8, 0xF7], .ror (.idx (.offset8 .u 0xF7 false))),
     ([0x67, 0xC8, 0xF7], .asr (.idx (.offset8 .u 0xF7 false))),
     ([0x68, 0xC8, 0xF7], .asl (.idx (.offset8 .u 0xF7 false))),
     ([0x69, 0xC8, 0xF7], .rol (.idx (.offset8 .u 0xF7 false))),
     ([0x6A, 0xC8, 0xF7], .dec (.idx (.offset8 .u 0xF7 false))),
     ([0x6C, 0xC8, 0xF7], .inc (.idx (.offset8 .u 0xF7 false))),
     ([0x6D, 0xC8, 0xF7], .tst (.idx (.offset8 .u 0xF7 false))),
     ([0x6E, 0xC8, 0xF7], .jmp (.idx (.offset8 .u 0xF7 false))),
     ([0x6F, 0xC8, 0xF7], .clr (.idx (.offset8 .u 0xF7 false))),
     ([0xA0, 0xC8, 0xF7], .suba (.mem (.idx (.offset8 .u 0xF7 false)))),
     ([0xA1, 0xC8, 0xF7], .cmpa (.mem (.idx (.offset8 .u 0xF7 false)))),
     ([0xA2, 0xC8, 0xF7], .sbca (.mem (.idx (.offset8 .u 0xF7 false)))),
     ([0xA3, 0xC8, 0xF7], .subd (.mem (.idx (.offset8 .u 0xF7 false)))),
     ([0xA4, 0xC8, 0xF7], .anda (.mem (.idx (.offset8 .u 0xF7 false)))),
     ([0xA5, 0xC8, 0xF7], .bita (.mem (.idx (.offset8 .u 0xF7 false)))),
     ([0xA6, 0xC8, 0xF7], .lda (.mem (.idx (.offset8 .u 0xF7 false)))),
     ([0xA7, 0xC8, 0xF7], .sta (.idx (.offset8 .u 0xF7 false))),
     ([0xA8, 0xC8, 0xF7], .eora (.mem (.idx (.offset8 .u 0xF7 false)))),
     ([0xA9, 0xC8, 0xF7], .adca (.mem (.idx (.offset8 .u 0xF7 false)))),
     ([0xAA, 0xC8, 0xF7], .ora (.mem (.idx (.offset8 .u 0xF7 false)))),
     ([0xAB, 0xC8, 0xF7], .adda (.mem (.idx (.offset8 .u 0xF7 false)))),
     ([0xAC, 0xC8, 0xF7], .cmpx (.mem (.idx (.offset8 .u 0xF7 false)))),
     ([0xAD, 0xC8, 0xF7], .jsr (.idx (.offset8 .u 0xF7 false)))] = true := by decide

theorem test_decode_indexed_2 : allDecode
    [([0xAE, 0xC8, 0xF7], .ldx (.mem (.idx (.offset8 .u 0xF7 false)))),
     ([0xAF, 0xC8, 0xF7], .stx (.idx (.offset8 .u 0xF7 false))),
     ([0xE0, 0xC8, 0xF7], .subb (.mem (.idx (.offset8 .u 0xF7 false)))),
     ([0xE1, 0xC8, 0xF7], .cmpb (.mem (.idx (.offset8 .u 0xF7 false)))),
     ([0xE2, 0xC8, 0xF7], .sbcb (.mem (.idx (.offset8 .u 0xF7 false)))),
     ([0xE3, 0xC8, 0xF7], .addd (.mem (.idx (.offset8 .u 0xF7 false)))),
     ([0xE4, 0xC8, 0xF7], .andb (.mem (.idx (.offset8 .u 0xF7 false)))),
     ([0xE5, 0xC8, 0xF7], .bitb (.mem (.idx (.offset8 .u 0xF7 false)))),
     ([0xE6, 0xC8, 0xF7], .ldb (.mem (.idx (.offset8 .u 0xF7 false)))),
     ([0xE7, 0xC8, 0xF7], .stb (.idx (.offset8 .u 0xF7 false))),
     ([0xE8, 0xC8, 0xF7], .eorb (.mem (.idx (.offset8 .u 0xF7 false)))),
     ([0xE9, 0xC8, 0xF7], .adcb (.mem (.idx (.offset8 .u 0xF7 false)))),
     ([0xEA, 0xC8, 0xF7], .orb (.mem (.idx (.offset8 .u 0xF7 false)))),
     ([0xEB, 0xC8, 0xF7], .addb (.mem (.idx (.offset8 .u 0xF7 false)))),
     ([0xEC, 0xC8, 0xF7], .ldd (.mem (.idx (.offset8 .u 0xF7 false)))),
     ([0xED, 0xC8, 0xF7], .std (.idx (.offset8 .u 0xF7 false))),
     ([0xEE, 0xC8, 0xF7], .ldu (.mem (.idx (.offset8 .u 0xF7 false)))),
     ([0xEF, 0xC8, 0xF7], .stu (.idx (.offset8 .u 0xF7 false))),
     ([0x10, 0xA3, 0xC8, 0xF7], .cmpd (.mem (.idx (.offset8 .u 0xF7 false)))),
     ([0x10, 0xAC, 0xC8, 0xF7], .cmpy (.mem (.idx (.offset8 .u 0xF7 false)))),
     ([0x10, 0xAE, 0xC8, 0xF7], .ldy (.mem (.idx (.offset8 .u 0xF7 false)))),
     ([0x10, 0xAF, 0xC8, 0xF7], .sty (.idx (.offset8 .u 0xF7 false))),
     ([0x10, 0xEE, 0xC8, 0xF7], .lds (.mem (.idx (.offset8 .u 0xF7 false)))),
     ([0x10, 0xEF, 0xC8, 0xF7], .sts (.idx (.offset8 .u 0xF7 false))),
     ([0x11, 0xA3, 0xC8, 0xF7], .cmpu (.mem (.idx (.offset8 .u 0xF7 false)))),
     ([0x11, 0xAC, 0xC8, 0xF7], .cmps (.mem (.idx (.offset8 .u 0xF7 false))))] = true := by decide

theorem test_decode_register_list : allDecode
    [([0x34, 0xC5], .pshs ⟨true, true, false, false, false, true, false, true⟩),
     ([0x35, 0xC5], .puls ⟨true, true, false, false, false, true, false, true⟩),
     ([0x36, 0xC5], .pshu ⟨true, true, false, false, false, true, false, true⟩),
     ([0x37, 0xC5], .pulu ⟨true, true, false, false, false, true, false, true⟩)] = true := by decide

theorem test_decode_extended_1 : allDecode
    [([0x70, 0x12, 0x34], .neg (.ext 0x1234)), ([0x73, 0x12, 0x34], .com (.ext 0x1234)),
     ([0x74, 0x12, 0x34], .lsr (.ext 0x1234)), ([0x76, 0x12, 0x34], .ror (.ext 0x1234)),
     ([0x77, 0x12, 0x34], .asr (.ext 0x1234)), ([0x78, 0x12, 0x34], .asl (.ext 0x1234)),
     ([0x79, 0x12, 0x34], .rol (.ext 0x1234)), ([0x7A, 0x12, 0x34], .dec (.ext 0x1234)),
     ([0x7C, 0x12, 0x34], .inc (.ext 0x1234)), ([0x7D, 0x12, 0x34], .tst (.ext 0x1234)),
     ([0x7E, 0x12, 0x34], .jmp (.ext 0x1234)), ([0x7F, 0x12, 0x34], .clr (.ext 0x1234)),
     ([0xB0, 0x12, 0x34], .suba (.mem (.ext 0x1234))), ([0xB1, 0x12, 0x34], .cmpa (.mem (.ext 0x1234))),
     ([0xB2, 0x12, 0x34], .sbca (.mem (.ext 0x1234))), ([0xB3, 0x12, 0x34], .subd (.mem (.ext 0x1234))),
     ([0xB4, 0x12, 0x34], .anda (.mem (.ext 0x1234))), ([0xB5, 0x12, 0x34], .bita (.mem (.ext 0x1234))),
     ([0xB6, 0x12, 0x34], .lda (.mem (.ext 0x1234))), ([0xB7, 0x12, 0x34], .sta (.ext 0x1234)),
     ([0xB8, 0x12, 0x34], .eora (.mem (.ext 0x1234))), ([0xB9, 0x12, 0x34], .adca (.mem (.ext 0x1234))),
     ([0xBA, 0x12, 0x34], .ora (.mem (.ext 0x1234))), ([0xBB, 0x12, 0x34], .adda (.mem (.ext 0x1234))),
     ([0xBC, 0x12, 0x34], .cmpx (.mem (.ext 0x1234))), ([0xBD, 0x12, 0x34], .jsr (.ext 0x1234)),
     ([0xBE, 0x12, 0x34], .ldx (.mem (.ext 0x1234))), ([0xBF, 0x12, 0x34], .stx (.ext 0x1234)),
     ([0xF0, 0x12, 0x34], .subb (.mem (.ext 0x1234))), ([0xF1, 0x12, 0x34], .cmpb (.mem (.ext 0x1234)))] = true := by decide

theorem test_decode_extended_2 : allDecode
    [([0xF2, 0x12, 0x34], .sbcb (.mem (.ext 0x1234))), ([0xF3, 0x12, 0x34], .addd (.mem (.ext 0x1234))),
     ([0xF4, 0x12, 0x34], .andb (.mem (.ext 0x1234))), ([0xF5, 0x12, 0x34], .bitb (.mem (.ext 0x1234))),
     ([0xF6, 0x12, 0x34], .ldb (.mem (.ext 0x1234))), ([0xF7, 0x12, 0x34], .stb (.ext 0x1234)),
     ([0xF8, 0x12, 0x34], .eorb (.mem (.ext 0x1234))), ([0xF9, 0x12, 0x34], .adcb (.mem (.ext 0x1234))),
     ([0xFA, 0x12, 0x34], .orb (.mem (.ext 0x1234))), ([0xFB, 0x12, 0x34], .addb (.mem (.ext 0x1234))),
     ([0xFC, 0x12, 0x34], .ldd (.mem (.ext 0x1234))), ([0xFD, 0x12, 0x34], .std (.ext 0x1234)),
     ([0xFE, 0x12, 0x34], .ldu (.mem (.ext 0x1234))), ([0xFF, 0x12, 0x34], .stu (.ext 0x1234)),
     ([0x10, 0xB3, 0x12, 0x34], .cmpd (.mem (.ext 0x1234))), ([0x10, 0xBC, 0x12, 0x34], .cmpy (.mem (.ext 0x1234))),
     ([0x10, 0xBE, 0x12, 0x34], .ldy (.mem (.ext 0x1234))), ([0x10, 0xBF, 0x12, 0x34], .sty (.ext 0x1234)),
     ([0x10, 0xFE, 0x12, 0x34], .lds (.mem (.ext 0x1234))), ([0x10, 0xFF, 0x12, 0x34], .sts (.ext 0x1234)),
     ([0x11, 0xB3, 0x12, 0x34], .cmpu (.mem (.ext 0x1234))), ([0x11, 0xBC, 0x12, 0x34], .cmps (.mem (.ext 0x1234)))] = true := by decide

theorem test_decode_immediate_word : allDecode
    [([0x83, 0xBE, 0xEF], .subd (.imm 0xBEEF)), ([0x8C, 0xBE, 0xEF], .cmpx (.imm 0xBEEF)),
     ([0x8E, 0xBE, 0xEF], .ldx (.imm 0xBEEF)), ([0xC3, 0xBE, 0xEF], .addd (.imm 0xBEEF)),
     ([0xCC, 0xBE, 0xEF], .ldd (.imm 0xBEEF)), ([0xCE, 0xBE, 0xEF], .ldu (.imm 0xBEEF)),
     ([0x10, 0x83, 0xBE, 0xEF], .cmpd (.imm 0xBEEF)), ([0x10, 0x8C, 0xBE, 0xEF], .cmpy (.imm 0xBEEF)),
     ([0x10, 0x8E, 0xBE, 0xEF], .ldy (.imm 0xBEEF)), ([0x10, 0xCE, 0xBE, 0xEF], .lds (.imm 0xBEEF)),
     ([0x11, 0x83, 0xBE, 0xEF], .cmpu (.imm 0xBEEF)), ([0x11, 0x8C, 0xBE, 0xEF], .cmps (.imm 0xBEEF))] = true := by decide

/-- The indexed forms of 30 R107, behind LEAX. -/
theorem test_decode_indexed_forms : allDecode
    [([0x30, 0x05], .leax (.offset5 .x 0x05)), ([0x30, 0x7F], .leax (.offset5 .s 0x1F)),
     ([0x30, 0x80], .leax (.postInc1 .x)), ([0x30, 0xA1], .leax (.postInc2 .y false)),
     ([0x30, 0xD1], .leax (.postInc2 .u true)), ([0x30, 0xE2], .leax (.preDec1 .s)),
     ([0x30, 0x83], .leax (.preDec2 .x false)), ([0x30, 0xB3], .leax (.preDec2 .y true)),
     ([0x30, 0xC4], .leax (.noOffset .u false)), ([0x30, 0xF4], .leax (.noOffset .s true)),
     ([0x30, 0x85], .leax (.accB .x false)), ([0x30, 0xB6], .leax (.accA .y true)),
     ([0x30, 0xC8, 0x80], .leax (.offset8 .u 0x80 false)), ([0x30, 0xF9, 0x12, 0x34], .leax (.offset16 .s 0x1234 true)),
     ([0x30, 0x8B], .leax (.accD .x false)), ([0x30, 0x8C, 0xFE], .leax (.pcOffset8 0 0xFE false)),
     ([0x30, 0x9D, 0x81, 0x23], .leax (.pcOffset16 0 0x8123 true)), ([0x30, 0x9F, 0x20, 0x00], .leax (.extIndirect 0x2000))]
    = true := by decide

theorem test_illegal_page1 : decode [0x87, 0x00] = .illegal .undefinedOpcode [0x87] := by decide
theorem test_illegal_page2 : decode [0x10, 0x20] = .illegal .undefinedPage2 [0x10, 0x20] := by decide
theorem test_illegal_page3 : decode [0x11, 0x10] = .illegal .undefinedPage3 [0x11, 0x10] := by decide
theorem test_illegal_postbyte : decode [0x10, 0xAE, 0xBF] = .illegal .indexedPostbyte [0x10, 0xAE, 0xBF] := by decide
theorem test_illegal_pair : decode [0x1F, 0x80] = .illegal .registerPair [0x1F, 0x80] := by decide

/-- The encoder writes the examples of the spec back. -/
theorem test_encode : [Instr.lbne 0x8123, .ldy (.mem (.idx (.extIndirect 0x1234))), .exg .x .pc].map encode =
    [[0x10, 0x26, 0x81, 0x23], [0x10, 0xAE, 0x9F, 0x12, 0x34], [0x1E, 0x15]] := by decide

theorem test_table_word_one_byte : decodeTableWord 8 0x96 = some (.lda (.mem (.dir 0))) := by decide
theorem test_table_word_page2 : decodeTableWord 16 0x1021 = some (.lbrn 0) := by decide
theorem test_table_word_page2_low_first : decodeTableWord 16 0x2110 = some (.lbrn 0) := by decide

/-! ## Steps -/

/-- The machine with bytes at 0x1000 and PC there, everything else as after reset but the flags, which are clear. -/
def boot (bytes : List Byte) : State :=
  { State.reset with pc := 0x1000, mem := Memory.writeBytes [] 0x1000 bytes, cc := CC.ofByte 0 }

/-- The next state of a step has a property. -/
def after (s : State) (p : State → Bool) : Bool :=
  match step s with
  | .next t => p t
  | .fault _ | .refused _ => false

theorem test_reset_state : State.reset.cc.toByte = 0x50 ∧ State.reset.pc = 0 ∧ State.reset.mem.wf = true := by decide

/-- 40 R145, the example. -/
theorem test_adca : after { boot [0x89, 0x01] with a := 0xFF, cc := CC.ofByte 0x01 }
    (fun t => t.a == 0x01 && t.cc.toByte == 0x21 && t.pc == 0x1002) = true := by decide
/-- Vector V1. -/
theorem test_adda : after { boot [0x8B, 0x01] with a := 0x7F }
    (fun t => t.a == 0x80 && t.cc.toByte == 0x2A) = true := by decide
/-- Vector V13, H being undefined. -/
theorem test_suba : after { boot [0x80, 0x80] with a := 0x7F }
    (fun t => t.a == 0xFF && t.cc.n && t.cc.v && t.cc.c && !t.cc.z) = true := by decide
/-- Vector V17, H being undefined. -/
theorem test_sbcb : after { boot [0xC2, 0x7F] with b := 0x80, cc := CC.ofByte 0x01 }
    (fun t => t.b == 0x00 && t.cc.z && t.cc.v && !t.cc.c) = true := by decide
/-- Vector V19: the compare keeps A. -/
theorem test_cmpa : after { boot [0x81, 0x20] with a := 0x10 }
    (fun t => t.a == 0x10 && t.cc.n && t.cc.c && !t.cc.v) = true := by decide
/-- Vector V24: C is untouched. -/
theorem test_inca : after { boot [0x4C] with a := 0x7F, cc := CC.ofByte 0x01 }
    (fun t => t.a == 0x80 && t.cc.toByte == 0x0B) = true := by decide
/-- Vector V27. -/
theorem test_decb : after { boot [0x5A] with cc := CC.ofByte 0x01 }
    (fun t => t.b == 0xFF && t.cc.toByte == 0x09) = true := by decide
/-- Vector V35, V being undefined. -/
theorem test_daa : after { boot [0x19] with a := 0xFF, cc := CC.ofByte 0x21 }
    (fun t => t.a == 0x65 && t.cc.c && !t.cc.z && !t.cc.n) = true := by decide
/-- Vector V38: N and V are untouched. -/
theorem test_mul : after { boot [0x3D] with a := 0xFF, b := 0xFF, cc := CC.ofByte 0x0A }
    (fun t => t.d == 0xFE01 && t.cc.toByte == 0x0A) = true := by decide
/-- 42 R256, the example: V is untouched. -/
theorem test_sex : after { boot [0x1D] with a := 0x12, b := 0x80, cc := CC.ofByte 0x02 }
    (fun t => t.d == 0xFF80 && t.cc.toByte == 0x0A) = true := by decide
/-- 42 R253, the example. -/
theorem test_addd : after { boot [0xC3, 0x00, 0x01] with a := 0x7F, b := 0xFF }
    (fun t => t.d == 0x8000 && t.cc.toByte == 0x0A && t.pc == 0x1003) = true := by decide
/-- 42 R258, the example. -/
theorem test_subd : after (boot [0x83, 0x00, 0x01]) (fun t => t.d == 0xFFFF && t.cc.toByte == 0x09) = true := by decide
/-- 42 R257, the example, and the wrap of 20 R55. -/
theorem test_std : after { boot [0xDD, 0x40] with a := 0x12, b := 0x34, dp := 0x20, cc := CC.ofByte 0x0A }
    (fun t => t.mem.word 0x2040 == 0x1234 && t.cc.toByte == 0x00) = true := by decide
theorem test_std_wraps : after { boot [0xFD, 0xFF, 0xFF] with a := 0x12, b := 0x34 }
    (fun t => t.mem.read 0xFFFF == 0x12 && t.mem.read 0x0000 == 0x34) = true := by decide
/-- 43 R290, the second example. -/
theorem test_abx : after { boot [0x3A] with x := 0xFFFF, b := 0x01, cc := CC.ofByte 0xFF }
    (fun t => t.x == 0x0000 && t.cc.toByte == 0xFF) = true := by decide
/-- 30 R106: the load overwrites the increment, the store stores it. -/
theorem test_ldx_post_increment : after { boot [0xAE, 0x81, 0xBE, 0xEF] with x := 0x1002 }
    (fun t => t.x == 0xBEEF && t.cc.n) = true := by decide
theorem test_stx_post_increment : after { boot [0xAF, 0x81] with x := 0x2000 }
    (fun t => t.x == 0x2002 && t.mem.word 0x2000 == 0x2002) = true := by decide
theorem test_leax_post_increment : after { boot [0x30, 0x81] with x := 0x2000 } (fun t => t.x == 0x2000) = true := by decide
/-- 45 R364, the example of an indirect jump. -/
theorem test_jmp_indirect : after { boot [0x6E, 0x9F, 0x10, 0x04, 0xE0, 0x05] with x := 0x2345 }
    (fun t => t.pc == 0xE005) = true := by decide
/-- 44 R344, the example. -/
theorem test_bsr : after { boot [0x8D, 0x20] with s := 0x8000 }
    (fun t => t.pc == 0x1022 && t.s == 0x7FFE && t.mem.word 0x7FFE == 0x1002) = true := by decide
/-- 45 R367, the example. -/
theorem test_rts : after { boot [0x39, 0x10, 0x03] with s := 0x1001 } (fun t => t.pc == 0x1003 && t.s == 0x1003) = true := by
  decide
theorem test_beq_backwards : after { boot [0x27, 0xFE] with cc := CC.ofByte 0x04 } (fun t => t.pc == 0x1000) = true := by decide
theorem test_lbge_not_taken : after { boot [0x10, 0x2C, 0x7F, 0xFF] with cc := CC.ofByte 0x08 }
    (fun t => t.pc == 0x1004) = true := by decide
/-- 43 R268: the image is CC, A, B, DP, X, Y, U, PC upward. -/
theorem test_pshs : after { boot [0x34, 0xFF] with s := 0x8000, a := 0x11, b := 0x22, dp := 0x33, x := 0x4455, cc := CC.ofByte 0x84 }
    (fun t => t.s == 0x7FF4 && t.mem.word 0x7FF4 == 0x8411 && t.mem.word 0x7FF6 == 0x2233 && t.mem.word 0x7FF8 == 0x4455 &&
      t.mem.word 0x7FFE == 0x1002) = true := by decide
theorem test_pulu : after { boot [0x37, 0x42, 0x77, 0x12, 0x34] with u := 0x1002 }
    (fun t => t.a == 0x77 && t.s == 0x1234 && t.u == 0x1005) = true := by decide
theorem test_tfr : after { boot [0x1F, 0x8B] with a := 0x20 } (fun t => t.dp == 0x20 && t.a == 0x20) = true := by decide
theorem test_exg : after { boot [0x1E, 0x15] with x := 0x2345 } (fun t => t.x == 0x1002 && t.pc == 0x2345) = true := by decide
/-- 45 R360 and R363, the examples. -/
theorem test_andcc : after { boot [0x1C, 0xAF] with cc := CC.ofByte 0xFF } (fun t => t.cc.toByte == 0xAF) = true := by decide
theorem test_orcc : after { boot [0x1A, 0x50] with cc := CC.ofByte 0x04 } (fun t => t.cc.toByte == 0x54) = true := by decide
/-- 45 R361: the stacked CC has E set, and the processor waits. -/
theorem test_cwai : after { boot [0x3C, 0xEF] with s := 0x8000, cc := CC.ofByte 0x50 }
    (fun t => t.wait == .cwaiWaiting && t.s == 0x7FF4 && t.mem.read 0x7FF4 == 0xC0) = true := by decide
/-- 45 R368: the vector of SWI is at 0xFFFA. -/
theorem test_swi : after
    { boot [] with s := 0x8000, mem := Memory.writeBytes (Memory.writeBytes [] 0xFFFA [0xE0, 0x05]) 0x1000 [0x3F] }
    (fun t => t.pc == 0xE005 && t.cc.toByte == 0xD0 && t.s == 0x7FF4) = true := by decide
/-- 45 R366: RTI with E clear pulls CC and PC only. -/
theorem test_rti_short : after { boot [0x3B, 0x01, 0x20, 0x00] with s := 0x1001, cc := CC.ofByte 0xD0, a := 0x99 }
    (fun t => t.pc == 0x2000 && t.s == 0x1004 && t.cc.toByte == 0x01 && t.a == 0x99) = true := by decide
/-- 45 R366: RTI with E set pulls all. -/
theorem test_rti_entire : after
    { boot [0x3B, 0x80, 0x11, 0x22, 0x33, 0x44, 0x55, 0x66, 0x77, 0x88, 0x99, 0x20, 0x00] with s := 0x1001 }
    (fun t => t.pc == 0x2000 && t.s == 0x100D && t.d == 0x1122 && t.dp == 0x33 && t.x == 0x4455 && t.y == 0x6677 &&
      t.u == 0x8899) = true := by decide
/-- 20 R60 (e): CLR reads, then writes. -/
theorem test_clr_reads_a_device : after { boot [0x7F, 0xC0, 0x00] with platform := [⟨0xC000, 2, .device⟩] }
    (fun t => t.bus == [.write 0xC000 0x00, .read 0xC000] && t.cc.z) = true := by decide
/-- 20 R66: the store of one instruction is the next one's opcode. -/
theorem test_store_into_the_next_instruction : after { boot [0xB7, 0x10, 0x03] with a := 0x12 }
    (fun t => after t (fun u => u.pc == 0x1004)) = true := by decide
theorem test_undefined_opcode_faults :
    step (boot [0x01]) = .fault (.illegalInstruction 0x1000 .undefinedOpcode [0x01]) := by rfl
theorem test_with_fetch_word : after (State.reset.withFetchWord 8 0x3A) (fun t => t.pc == 1 && t.x == 0) = true := by decide
theorem test_with_fetch_word_waiting :
    after (State.withFetchWord { State.reset with wait := .syncing, nmiPending := true, pc := 0xFFFF } 16 0x1021)
      (fun t => t.pc == 3) = true := by decide

/-! ## Witnesses: states that meet the hypotheses of the statements -/

/-- The inputs with nothing asserted but what is given. -/
def only (reset nmi firq irq : Bool) : Inputs := { reset := reset, nmiEdge := nmi, firq := firq, irq := irq }

/-- A platform with a device at 0xC000 and 0xC001, ROM from 0xE000 up, and nothing at 0xD000. -/
def board : List Region := [⟨0xC000, 2, .device⟩, ⟨0xD000, 1, .unpopulated⟩, ⟨0xE000, 0x2000, .rom⟩]

theorem witness_DecodeEncode : (Instr.exg .cc .dp).wellFormed = true ∧ (Instr.tfr .pc .d).wellFormed = true := by decide
theorem witness_EncodeDecode : decode [0x1F, 0x8B, 0x00] = .ok (.tfr .a .dp) 2 := by decide

theorem witness_StepRunsTheDecodedInstruction :
    (boot [0x12]).Undisturbed ∧ (boot [0x12]).advanced.decodeAtPc = .ok .nop 1 := by
  unfold State.Undisturbed State.Uneventful; decide
/-- A masked request does not disturb, and neither does an edge that NMI is not armed for. -/
theorem witness_Undisturbed_masked :
    ({ boot [0x12] with inputs := [only false true true true], cc := CC.ofByte 0x50 } : State).Undisturbed := by
  unfold State.Undisturbed State.Uneventful; decide
/-- LBRN across 0xFFFF, its last two bytes at 0x0001 and 0x0002. -/
theorem witness_StepRunsTheBytesInMemory :
    ({ boot [] with pc := 0xFFFF, mem := Memory.writeBytes [] 0xFFFF [0x10, 0x21, 0x12, 0x34] } : State).HoldsInstr
      (.lbrn 0x1234) ∧
    ({ boot [] with pc := 0xFFFF, mem := Memory.writeBytes [] 0xFFFF [0x10, 0x21, 0x12, 0x34] } : State).Undisturbed ∧
    (Instr.lbrn 0x1234).wellFormed = true := by
  unfold State.HoldsInstr State.Undisturbed State.Uneventful; decide
theorem witness_StepFaultsOnIllegalBytes :
    (boot [0x87]).Undisturbed ∧ (boot [0x87]).advanced.decodeAtPc = .illegal .undefinedOpcode [0x87] := by
  unfold State.Undisturbed State.Uneventful; decide
theorem witness_StepOutcomes_fault : ∃ f, step (boot [0x87]) = .fault f := ⟨_, rfl⟩
theorem witness_StepOutcomes_next : ∃ t, step (boot [0x12]) = .next t := ⟨_, rfl⟩

theorem witness_BoundaryOrder_reset : ({ boot [] with inputs := [only true true true true] } : State).nowInputs.reset = true := by
  decide
theorem witness_BoundaryOrder_nmi :
    ({ boot [] with inputs := [only false true true true], nmiArmed := true } : State).nowInputs.reset = false ∧
    ({ boot [] with inputs := [only false true true true], nmiArmed := true } : State).nmiDue = true := by decide
theorem witness_BoundaryOrder_firq :
    ({ boot [] with inputs := [only false true true true] } : State).nowInputs.reset = false ∧
    ({ boot [] with inputs := [only false true true true] } : State).nmiDue = false ∧
    ({ boot [] with inputs := [only false true true true] } : State).firqDue = true := by decide
theorem witness_BoundaryOrder_irq :
    ({ boot [] with inputs := [only false false true true], cc := CC.ofByte 0x40 } : State).nowInputs.reset = false ∧
    ({ boot [] with inputs := [only false false true true], cc := CC.ofByte 0x40 } : State).nmiDue = false ∧
    ({ boot [] with inputs := [only false false true true], cc := CC.ofByte 0x40 } : State).firqDue = false ∧
    ({ boot [] with inputs := [only false false true true], cc := CC.ofByte 0x40 } : State).irqDue = true := by decide
theorem witness_BoundaryOrder_quiet : (boot []).Uneventful ∧ (boot []).wait = .running ∧
    ({ boot [] with wait := .cwaiWaiting } : State).Uneventful := by
  unfold State.Uneventful; decide
theorem witness_NmiEdgeNeedsArming : (boot []).nmiArmed = false ∧
    ∃ t, step { boot [] with nmiArmed := true, inputs := [only false true false false] } = .next t := ⟨rfl, _, rfl⟩
theorem witness_WaitStates :
    ({ boot [] with wait := .syncing } : State).Uneventful ∧
    ({ boot [] with wait := .cwaiWaiting, cc := CC.ofByte 0x50, inputs := [only false false true true] } : State).Uneventful ∧
    ({ boot [] with wait := .syncing, cc := CC.ofByte 0x50, inputs := [only false false true false] } : State).Uneventful ∧
    ({ boot [] with wait := .syncing, cc := CC.ofByte 0x50, inputs := [only false false false true] } : State).Uneventful := by
  unfold State.Uneventful; decide
theorem witness_ResetSequence :
    ({ boot [] with inputs := [only true false false false], wait := .cwaiWaiting } : State).nowInputs.reset = true := by decide

/-- A machine with the given inputs at its next step. -/
def facing (w : Wait) (inp : Inputs) : State :=
  { boot [] with s := 0x0006, nmiArmed := true, wait := w, inputs := [inp] }

/-- Entries from a running, a synchronising and a waiting processor. -/
theorem witness_NmiEntry : ∀ w : Wait, w ∈ [Wait.running, .syncing, .cwaiWaiting] →
    (facing w (only false true true true)).nowInputs.reset = false ∧
    (facing w (only false true true true)).nmiDue = true ∧ (facing w (only false true true true)).wait = w := by decide
theorem witness_FirqEntry : ∀ w : Wait, w ∈ [Wait.running, .syncing, .cwaiWaiting] →
    (facing w (only false false true true)).nowInputs.reset = false ∧
    (facing w (only false false true true)).nmiDue = false ∧ (facing w (only false false true true)).firqDue = true ∧
    (facing w (only false false true true)).wait = w := by decide
theorem witness_IrqEntry : ∀ w : Wait, w ∈ [Wait.running, .syncing, .cwaiWaiting] →
    (facing w (only false false false true)).nowInputs.reset = false ∧
    (facing w (only false false false true)).nmiDue = false ∧ (facing w (only false false false true)).firqDue = false ∧
    (facing w (only false false false true)).irqDue = true ∧ (facing w (only false false false true)).wait = w := by decide
theorem witness_Cwai : ({ CC.ofByte ((CC.ofByte 0x50).toByte &&& 0xEF) with e := true } : CC) = CC.ofByte 0xC0 := by decide
theorem witness_ReturnFromInterrupt :
    (({ boot [0x80] with s := 0x1000 } : State).byteAt 0x1000).getLsbD 7 = true ∧
    (({ boot [0x7F] with s := 0x1000 } : State).byteAt 0x1000).getLsbD 7 = false := by decide
/-- The frame wraps across 0x0000, below a stack pointer of 6, and all of it is RAM; the entries' hypotheses hold of the
same states, as the three witnesses above say. -/
theorem witness_ReturnUndoesEntry : (∀ inp ∈ [only false true true true, only false false true true, only false false false true],
      ∀ j, j < 12 → (facing .running inp).kind ((facing .running inp).s - 12 + BitVec.ofNat 16 j) = .ram) ∧
    isSoftwareInterrupt .swi = true ∧ isSoftwareInterrupt .swi2 = true ∧ isSoftwareInterrupt .swi3 = true := by decide
/-- CWAI facing an NMI, a FIRQ and an IRQ, each unmasked by the mask byte 0xAF. -/
theorem witness_ReturnUndoesEntry_cwai :
    (facing .running (only false true false false)).nmiDue = true ∧
    (facing .running (only false false true false)).nowInputs.firq = true ∧
    (facing .running (only false false false true)).nowInputs.irq = true ∧
    (∀ inp ∈ [only false true false false, only false false true false, only false false false true],
      (facing .running inp).nowInputs.reset = false ∧
      ({ CC.ofByte ((facing .running inp).cc.toByte &&& 0xAF) with e := true } : CC).f = false ∧
      ({ CC.ofByte ((facing .running inp).cc.toByte &&& 0xAF) with e := true } : CC).i = false) := by decide
theorem witness_InvariantKept : (boot [0x12]).Inv ∧ ∃ t, step (boot [0x12]) = .next t := by
  refine ⟨?_, _, rfl⟩
  unfold State.Inv; decide
/-- The invariant holds of a waiting state with a pending NMI, too. -/
theorem witness_InvariantKept_waiting :
    ({ boot [] with nmiArmed := true, nmiPending := true, wait := .cwaiWaiting, cc := CC.ofByte 0x80 } : State).Inv := by
  unfold State.Inv; decide
theorem witness_ExchangeAndTransfer : Reg.wide .s = Reg.wide .d ∧ Reg.wide .cc = Reg.wide .dp ∧ Reg.wide .a ≠ Reg.wide .d := by
  decide
theorem witness_AccessByKind :
    ({ boot [] with platform := board } : State).kind 0xC001 = .device ∧
    ({ boot [] with platform := board } : State).kind 0xC002 = .ram ∧
    ({ boot [] with platform := board } : State).kind 0xD000 = .unpopulated ∧
    ({ boot [] with platform := board } : State).kind 0xFFFF = .rom ∧
    ({ boot [] with platform := board } : State).isMemory 0xFFFF = true ∧
    ({ boot [] with platform := board } : State).isMemory 0xD000 = false := by decide
theorem witness_WordAccess : (boot []).kind 0xFFFF = .ram ∧ (boot []).kind (0xFFFF + 1) = .ram := by decide
theorem witness_EffectiveAddresses : (Indexed.postInc2 .x false).indirect = false ∧ (Indexed.postInc2 .x true).indirect = true ∧
    (Indexed.extIndirect 0xFFFF).indirect = true := by decide
theorem witness_OperandAccess :
    (boot []).isMemory ((boot []).ea (.ext 0xFFFF)).1 = true ∧ (boot []).isMemory (((boot []).ea (.ext 0xFFFF)).1 + 1) = true := by
  decide
theorem witness_AccessesInOrder :
    (Instr.exg .a .dp).wellFormed = true ∧ (Instr.clr (.idx (.postInc2 .x true))).wellFormed = true ∧
    ({ boot [] with platform := board, s := 0xC002 } : State).kind 0xC000 = .device ∧
    ({ boot [] with platform := board, s := 0xC002 } : State).kind (0xC000 + 1) = .device ∧
    ({ boot [] with platform := board, s := 0xC002 } : State).s = 0xC000 + 2 := by decide
/-- Reset, NMI, FIRQ and IRQ where the processor waits in CWAI and where it runs. -/
theorem witness_EntryAccessesInOrder : ∀ w : Wait, w ∈ [Wait.running, .cwaiWaiting] →
    (facing w (only true true true true)).nowInputs.reset = true ∧
    ((facing w (only false true true true)).nowInputs.reset = false ∧ (facing w (only false true true true)).nmiDue = true) ∧
    ((facing w (only false false true true)).nmiDue = false ∧ (facing w (only false false true true)).firqDue = true) ∧
    (facing w (only false false false true)).nmiDue = false ∧ (facing w (only false false false true)).firqDue = false ∧
    (facing w (only false false false true)).irqDue = true := by decide
theorem witness_DecimalAdjust : ∃ low high : Nat,
    low = (if (0x9A : Byte).toNat % 16 > 9 ∨ (CC.ofByte 0).h = true then 6 else 0) ∧
    high = (if (0x9A : Byte).toNat / 16 > 9 ∨ (CC.ofByte 0).c = true ∨
      ((0x9A : Byte).toNat / 16 > 8 ∧ (0x9A : Byte).toNat % 16 > 9) then 96 else 0) ∧ low = 6 ∧ high = 96 :=
  ⟨6, 96, by decide, by decide, rfl, rfl⟩
/-- The operand comes from memory, through an auto mode: 0x99 stands where X points. -/
theorem witness_DecimalAddition :
    (0x99 : Byte) = (({ boot [0x99] with x := 0x1000 } : State).operand8 (.mem (.idx (.postInc1 .x)))).1 ∧
    isPackedDecimal ({ boot [0x99] with x := 0x1000 } : State).a ∧ isPackedDecimal 0x99 := by
  unfold isPackedDecimal; decide
theorem witness_PullUndoesPush :
    (∀ j, j < listSize allRegisters →
      (boot []).kind ((boot []).s - BitVec.ofNat 16 (listSize allRegisters) + BitVec.ofNat 16 j) = .ram) ∧
    ∀ j, j < listSize allRegisters →
      (boot []).kind ((boot []).u - BitVec.ofNat 16 (listSize allRegisters) + BitVec.ofNat 16 j) = .ram := by decide
theorem witness_BranchInstructions : (CC.ofByte 0x04).z = true ∧ (CC.ofByte 0x00).z = false ∧
    (CC.ofByte 0x0A).n = (CC.ofByte 0x0A).v ∧ (CC.ofByte 0x08).n ≠ (CC.ofByte 0x08).v := by decide
/-- Of 0x00 and 0x80 the first is lower unsigned and greater signed, so both sides of a branch's condition occur. -/
theorem witness_CompareThenBranch :
    (boot []).acc .b = 0x00 ∧ ((boot []).operand8 (.imm 0x80)).1 = 0x80 ∧
    (0x00 : Byte).toNat < (0x80 : Byte).toNat ∧ ¬(0x00 : Byte).toInt < (0x80 : Byte).toInt := by decide
theorem witness_CallsAndJumps : ∃ v, v = (boot []).updated (eaUpdate (.idx (.postInc2 .s false))) ∧ v.s = 2 := ⟨_, rfl, by decide⟩
theorem witness_WritersOfRegisters : (∃ t, exec .nop (boot []) = .next t) ∧ writesDp .nop = false ∧ writesCC .nop = false ∧
    writesH .nop = false ∧ writesPc .nop = false ∧ isSoftwareInterrupt .nop = false := ⟨⟨_, rfl⟩, by decide⟩
theorem witness_WritersOfHiddenState : ∃ t, exec (.lds (.imm 0x8000)) (boot []) = .next t := ⟨_, rfl⟩
theorem witness_WritersOfMemory : (∃ t, exec .rts { boot [] with platform := board } = .next t) ∧ writesMemory .rts = false ∧
    ({ boot [] with platform := board } : State).kind 0xE000 ≠ .ram := ⟨⟨_, rfl⟩, by decide⟩

end Sys2Proof.Tests
end

section
/-! The register layouts of 10 R21 and 10 R27 in numbers: the word A : B and its halves, and CC as a sum of flag weights. -/

namespace Sys2Proof

/-! ## Bytes and words as numbers -/

theorem joinBytes_toNat (h l : Byte) : (joinBytes h l).toNat = h.toNat * 256 + l.toNat := by
  have hl : l.toNat < 2 ^ 8 := l.isLt
  rw [joinBytes, BitVec.toNat_append, ← Nat.shiftLeft_add_eq_or_of_lt hl, Nat.shiftLeft_eq]

theorem hiByte_toNat (w : Word) : (hiByte w).toNat = w.toNat / 256 := by
  have hw : w.toNat < 65536 := w.isLt
  rw [hiByte, BitVec.extractLsb'_toNat, Nat.shiftRight_eq_div_pow]
  omega

theorem loByte_toNat (w : Word) : (loByte w).toNat = w.toNat % 256 := by
  rw [loByte, BitVec.extractLsb'_toNat, Nat.shiftRight_zero]

/-- A flag appended to a bit string is its new bit 0. -/
theorem toNat_append_ofBool {n : Nat} (x : BitVec n) (b : Bool) :
    (x ++ BitVec.ofBool b).toNat = 2 * x.toNat + b.toNat := by
  have hb : b.toNat < 2 ^ 1 := b.toNat_lt
  rw [BitVec.toNat_append, BitVec.toNat_ofBool, ← Nat.shiftLeft_add_eq_or_of_lt hb, Nat.shiftLeft_eq]
  omega

end Sys2Proof

namespace Sys2Proof.Machine

/-! ## D and CC as numbers -/

theorem State.d_toNat (s : State) : s.d.toNat = s.a.toNat * 256 + s.b.toNat := joinBytes_toNat s.a s.b

theorem State.d_toNat_div (s : State) : s.d.toNat / 256 = s.a.toNat := by
  have hb : s.b.toNat < 256 := s.b.isLt
  rw [s.d_toNat]
  omega

theorem State.d_toNat_mod (s : State) : s.d.toNat % 256 = s.b.toNat := by
  have hb : s.b.toNat < 256 := s.b.isLt
  rw [s.d_toNat]
  omega

/-- Each flag has the weight of its bit (10 R27): the byte is built by Horner's rule from E down to C. -/
theorem CC.toByte_toNat (cc : CC) :
    cc.toByte.toNat = 128 * cc.e.toNat + 64 * cc.f.toNat + 32 * cc.h.toNat + 16 * cc.i.toNat +
      8 * cc.n.toNat + 4 * cc.z.toNat + 2 * cc.v.toNat + cc.c.toNat := by
  simp only [CC.toByte, toNat_append_ofBool, BitVec.toNat_ofBool]
  omega

/-- Settles O26: a write of A or of B changes its half of D because the other accessor still reads the old byte. -/
theorem registerLayouts : Obligations.RegisterLayouts := by
  refine ⟨State.d_toNat, fun s v => ⟨?setDHigh, ?setDLow⟩, fun s v => ?setA, fun s v => ?setB, CC.toByte_toNat,
    CC.ofByte_toByte, CC.toByte_ofByte⟩
  case setDHigh => rw [State.setD_a, hiByte_toNat]
  case setDLow => rw [State.setD_b, loByte_toNat]
  case setA => rw [State.d_toNat, State.setA_a, State.setA_b, State.d_toNat_mod]
  case setB => rw [State.d_toNat, State.setB_a, State.setB_b, State.d_toNat_div]

end Sys2Proof.Machine
end

section
/-! Byte and word accesses (20 R52 to R59): the equations of a byte write by the kind of its address, and what a word stored
to RAM reads back as. -/

namespace Sys2Proof.Machine

variable (st : State)

/-! ## Byte writes by the kind of the address -/

theorem State.write8_of_ram (w : Word) (v : Byte) (h : st.kind w = .ram) :
    st.write8 w v = st.setMem (st.mem.write w.toNat v) := by
  simp only [State.write8, h]

theorem State.write8_of_device (w : Word) (v : Byte) (h : st.kind w = .device) :
    st.write8 w v = st.setBus (.write w v :: st.bus) := by
  simp only [State.write8, h]

/-- ROM and unpopulated addresses ignore a write (20 R59). -/
theorem State.write8_of_ignored (w : Word) (v : Byte) (h : st.kind w = .rom ∨ st.kind w = .unpopulated) :
    st.write8 w v = st := by
  rcases h with h | h <;> simp only [State.write8, h]

/-! ## A word of RAM -/

theorem State.read8_of_ram (w : Word) (h : st.kind w = .ram) : st.read8 w = (st.mem.read w.toNat, st) := by
  simp only [State.read8, h]

/-- The byte at the lower address is the more significant one (20 R53). The two addresses differ, also where the second
one wraps to 0. -/
theorem State.read8_write16_high (a v : Word) (h : st.kind a = .ram) :
    (st.write16 a v).read8 a = (hiByte v, st.write16 a v) := by
  have hne : a ≠ a + 1 := by bv_omega
  rw [State.read8_of_ram _ a ((st.write16_kind a v a).trans h), State.read_write16, if_neg fun e => hne e.1,
    if_pos ⟨rfl, h⟩]

theorem State.read8_write16_low (a v : Word) (h : st.kind (a + 1) = .ram) :
    (st.write16 a v).read8 (a + 1) = (loByte v, st.write16 a v) := by
  rw [State.read8_of_ram _ (a + 1) ((st.write16_kind a v (a + 1)).trans h), State.read_write16, if_pos ⟨rfl, h⟩]

/-- A word stored to RAM reads back as written (20 R56), and reading it changes nothing. -/
theorem State.read16_write16 (a v : Word) (h : st.kind a = .ram) (h' : st.kind (a + 1) = .ram) :
    (st.write16 a v).read16 a = (v, st.write16 a v) := by
  rw [State.read16, st.read8_write16_high a v h, st.read8_write16_low a v h', joinBytes_hi_lo]

/-- Settles O29: the order of the two accesses is that of the model's equations; that a word reads back rests on its
two addresses being different. -/
theorem wordAccess : Obligations.WordAccess := by
  refine ⟨fun _ _ => rfl, fun _ _ _ => rfl, fun _ _ _ => rfl, fun s a v => stored_write16 rfl rfl a v,
    fun s a v h h' => ⟨?word, ?high, ?low⟩⟩
  case word => rw [s.read16_write16 a v h h']
  case high => rw [s.read8_write16_high a v h, hiByte_toNat]
  case low => rw [s.read8_write16_low a v h', loByte_toNat]

/-- Settles O28, one equation for each kind of address. -/
theorem accessByKind : Obligations.AccessByKind := by
  refine fun s a v => ⟨s.read8_of_isMemory a, s.read8_of_not_isMemory a, fun h => ⟨stored_write8 rfl rfl a v, ?busKept⟩,
    s.write8_of_device a v, s.write8_of_ignored a v⟩
  case busKept => rw [s.write8_of_ram a v h]; rfl

end Sys2Proof.Machine
end

section
/-! The 8-bit helpers of 40 R140 to R142 in numbers. The model finds the flags from bits of the operands and of the result;
here each is what the numbers say. -/

namespace Sys2Proof.Machine

/-! ## Flags of a result -/

theorem byte_msb (r : Byte) : r.msb = decide (128 ≤ r.toNat) := BitVec.msb_eq_decide r

theorem byte_beq_zero (r : Byte) : (r == 0) = decide (r.toNat = 0) := by
  rw [Bool.eq_iff_iff, beq_iff_eq, decide_eq_true_iff, ← BitVec.toNat_inj]
  rfl

/-- `Logic8` (40 R142). -/
theorem logic8_eq_ofByteResult (r : Byte) (cc : CC) : logic8 r cc = cc.ofByteResult r false := by
  rw [logic8, CC.ofByteResult, byte_msb, byte_beq_zero]

theorem byte_toInt (a : Byte) : a.toInt = if 128 ≤ a.toNat then (a.toNat : Int) - 256 else a.toNat := by
  rw [BitVec.toInt_eq_toNat_cond]
  split <;> split <;> omega

/-! ## Overflow from the sign bits -/

/-- A signed sum leaves -128..127 exactly when its operands agree in sign and its low byte does not. -/
theorem signs_of_sum (a m r : Byte) (cin : Nat) (hc : cin ≤ 1) (hr : r.toNat = (a.toNat + m.toNat + cin) % 256) :
    (a.msb == m.msb && r.msb != a.msb) = decide (a.toInt + m.toInt + cin < -128 ∨ 127 < a.toInt + m.toInt + cin) := by
  have ha : a.toNat < 256 := a.isLt
  have hm : m.toNat < 256 := m.isLt
  rw [byte_msb, byte_msb, byte_msb, byte_toInt, byte_toInt, Bool.eq_iff_iff]
  simp only [Bool.and_eq_true, beq_iff_eq, bne_iff_ne, decide_eq_true_iff, ne_eq, decide_eq_decide]
  split <;> split <;> omega

/-- A signed difference leaves -128..127 exactly when its operands differ in sign and its low byte has not the sign of the
minuend. -/
theorem signs_of_difference (a m r : Byte) (bin : Nat) (hb : bin ≤ 1)
    (hr : (r.toNat : Int) = ((a.toNat : Int) - m.toNat - bin) % 256) :
    (a.msb != m.msb && r.msb != a.msb) = decide (a.toInt - m.toInt - bin < -128 ∨ 127 < a.toInt - m.toInt - bin) := by
  have ha : a.toNat < 256 := a.isLt
  have hm : m.toNat < 256 := m.isLt
  rw [byte_msb, byte_msb, byte_msb, byte_toInt, byte_toInt, Bool.eq_iff_iff]
  simp only [Bool.and_eq_true, bne_iff_ne, decide_eq_true_iff, ne_eq, decide_eq_decide]
  split <;> split <;> omega

/-- The sum's V as a bit formula (40 R140). -/
theorem signs_of_sum_as_bits (a m r : Byte) :
    (a.msb == m.msb && r.msb != a.msb) = ((a ^^^ r) &&& (m ^^^ r)).getLsbD 7 := by
  change _ = ((a ^^^ r) &&& (m ^^^ r)).msb
  rw [BitVec.msb_and, BitVec.msb_xor, BitVec.msb_xor]
  cases a.msb <;> cases m.msb <;> cases r.msb <;> rfl

/-- The difference's V as a bit formula (40 R141). -/
theorem signs_of_difference_as_bits (a m r : Byte) :
    (a.msb != m.msb && r.msb != a.msb) = ((a ^^^ m) &&& (a ^^^ r)).getLsbD 7 := by
  change _ = ((a ^^^ m) &&& (a ^^^ r)).msb
  rw [BitVec.msb_and, BitVec.msb_xor, BitVec.msb_xor]
  cases a.msb <;> cases m.msb <;> cases r.msb <;> rfl

/-! ## `Add8` (40 R140) -/

section

variable (a m : Byte) (cin : Bool) (cc : CC)

/-- The sum that `Add8` forms before it cuts off the carry. -/
def sum9 : BitVec 9 := a.setWidth 9 + m.setWidth 9 + (BitVec.ofBool cin).setWidth 9

/-- Nine bits hold the whole sum. -/
theorem sum9_toNat : (sum9 a m cin).toNat = a.toNat + m.toNat + cin.toNat := by
  have ha : a.toNat < 256 := a.isLt
  have hm : m.toNat < 256 := m.isLt
  have hc := cin.toNat_le
  simp only [sum9, BitVec.toNat_add, BitVec.toNat_setWidth, BitVec.toNat_ofBool]
  omega

theorem sum8_toNat (n : Nat) : (sum8 a m n).toNat = (a.toNat + m.toNat + n) % 256 := BitVec.toNat_ofNat _ 8

theorem sum9_setWidth : (sum9 a m cin).setWidth 8 = sum8 a m cin.toNat := by
  apply BitVec.eq_of_toNat_eq
  rw [BitVec.toNat_setWidth, sum9_toNat, sum8_toNat]

/-- Bit 8 of the nine is the carry out of bit 7. -/
theorem sum9_getLsbD_eight : (sum9 a m cin).getLsbD 8 = decide (256 ≤ a.toNat + m.toNat + cin.toNat) := by
  rw [← sum9_toNat]
  exact BitVec.msb_eq_decide (sum9 a m cin)

theorem add8_fst : (add8 a m cin cc).1 = sum8 a m cin.toNat := sum9_setWidth a m cin

/-- `Add8` over the 8-bit sum, with V still in sign bits. -/
theorem add8_snd : (add8 a m cin cc).2 =
    { cc.ofByteResult (sum8 a m cin.toNat) (a.msb == m.msb && (sum8 a m cin.toNat).msb != a.msb) with
      h := decide (16 ≤ a.toNat % 16 + m.toNat % 16 + cin.toNat)
      c := decide (256 ≤ a.toNat + m.toNat + cin.toNat) } := by
  rw [CC.ofByteResult, ← byte_msb, ← byte_beq_zero, ← sum9_getLsbD_eight, ← sum9_setWidth]
  rfl

theorem add8_eq : add8 a m cin cc = (sum8 a m cin.toNat, cc.ofSum8 a m cin.toNat) := by
  refine Prod.ext (add8_fst a m cin cc) ?flags
  case flags => rw [add8_snd, signs_of_sum a m _ _ cin.toNat_le (sum8_toNat a m _), CC.ofSum8]

theorem add8_v_eq_bit :
    (add8 a m cin cc).2.v = ((a ^^^ (add8 a m cin cc).1) &&& (m ^^^ (add8 a m cin cc).1)).getLsbD 7 := by
  rw [add8_snd, add8_fst, ← signs_of_sum_as_bits, CC.ofByteResult]

theorem sum8_eq_add : sum8 a m cin.toNat = a + m + (BitVec.ofBool cin).setWidth 8 := by
  apply BitVec.eq_of_toNat_eq
  simp [sum8_toNat]

/-- The sum's bit 4 is that of the operands unless a carry came into it, and that carry is H. -/
theorem add8_h_eq_bit : (add8 a m cin cc).2.h = (a ^^^ m ^^^ (add8 a m cin cc).1).getLsbD 4 := by
  have hcarry : BitVec.carry 4 a m cin = decide (16 ≤ a.toNat % 16 + m.toNat % 16 + cin.toNat) := rfl
  rw [add8_snd, add8_fst, sum8_eq_add, BitVec.getLsbD_xor, BitVec.getLsbD_xor,
    BitVec.getLsbD_add_add_bool (by decide), hcarry]
  cases a.getLsbD 4 <;> cases m.getLsbD 4 <;> simp

/-! ## `Sub8` (40 R141) -/

theorem difference8_toNat (n : Nat) :
    ((difference8 a m n).toNat : Int) = ((a.toNat : Int) - m.toNat - n) % 256 := by
  rw [difference8, BitVec.toNat_ofInt]
  omega

/-- `Sub8` over the 8-bit difference, with V still in sign bits; the difference is negative exactly when it borrows. -/
theorem sub8_snd (bin h : Bool) : (sub8 a m bin h cc).2 =
    { cc.ofByteResult (difference8 a m bin.toNat) (a.msb != m.msb && (difference8 a m bin.toNat).msb != a.msb) with
      h := h
      c := decide (a.toNat < m.toNat + bin.toNat) } := by
  have hborrow : a.toNat < m.toNat + bin.toNat ↔ (a.toNat : Int) - m.toNat - bin.toNat < 0 := by omega
  rw [CC.ofByteResult, ← byte_msb, ← byte_beq_zero, decide_eq_decide.mpr hborrow]
  rfl

theorem sub8_eq (bin h : Bool) :
    sub8 a m bin h cc = (difference8 a m bin.toNat, cc.ofDifference8 a m bin.toNat h) := by
  refine Prod.ext rfl ?flags
  case flags =>
    rw [sub8_snd, signs_of_difference a m _ _ bin.toNat_le (difference8_toNat a m _), CC.ofDifference8]

theorem sub8_v_eq_bit (bin h : Bool) :
    (sub8 a m bin h cc).2.v = ((a ^^^ m) &&& (a ^^^ (sub8 a m bin h cc).1)).getLsbD 7 := by
  rw [← signs_of_difference_as_bits]
  rfl

end

/-- Settles O35: the results are the model's own; the flags are found in the sign bits, in bit 8 of the nine-bit sum and in
the sign of the difference. -/
theorem byteArithmetic : Obligations.ByteArithmetic :=
  ⟨fun a m cin cc => ⟨add8_eq a m cin cc, add8_h_eq_bit a m cin cc, add8_v_eq_bit a m cin cc⟩,
    fun a m bin h cc => ⟨sub8_eq a m cc bin h, sub8_v_eq_bit a m cc bin h⟩, logic8_eq_ofByteResult⟩

end Sys2Proof.Machine
end

section
/-! The 16-bit helpers of 42 R250 to R252 in numbers. The results are the library's sum and difference of words, V is its
signed overflow and the carry its unsigned one, each of which it states both in numbers and in bits. -/

namespace Sys2Proof.Machine

/-! ## Flags of a result -/

theorem word_msb (r : Word) : r.msb = decide (32768 ≤ r.toNat) := BitVec.msb_eq_decide r

theorem word_beq_zero (r : Word) : (r == 0) = decide (r.toNat = 0) := by
  rw [Bool.eq_iff_iff, beq_iff_eq, decide_eq_true_iff, ← BitVec.toNat_inj]
  rfl

/-- `Logic16` (42 R252). -/
theorem logic16_eq_ofWordResult (r : Word) (cc : CC) : logic16 r cc = cc.ofWordResult r false := by
  rw [logic16, CC.ofWordResult, word_msb, word_beq_zero]

section

variable (a m : Word) (cc : CC)

/-! ## `Add16` (42 R250) -/

theorem sum16_eq_add : sum16 a m = a + m := by
  rw [sum16, BitVec.ofNat_add, BitVec.ofNat_toNat, BitVec.ofNat_toNat, BitVec.setWidth_eq, BitVec.setWidth_eq]

theorem add16_fst : (add16 a m cc).1 = sum16 a m := by
  rw [sum16_eq_add, add16, BitVec.setWidth_add _ _ (by decide), BitVec.setWidth_setWidth_of_le _ (by decide),
    BitVec.setWidth_setWidth_of_le _ (by decide), BitVec.setWidth_eq, BitVec.setWidth_eq]

/-- Bit 16 of the seventeen is the carry out of bit 15. -/
theorem sum17_getLsbD_sixteen :
    (a.setWidth 17 + m.setWidth 17).getLsbD 16 = decide (65536 ≤ a.toNat + m.toNat) :=
  (BitVec.uaddOverflow_eq a m).symm

/-- The sum's V in numbers: the operands agree in sign and the word does not exactly when the signed sum leaves
-32768..32767. -/
theorem signs_of_wordSum : (a.msb == m.msb && (sum16 a m).msb != a.msb) =
    decide (a.toInt + m.toInt < -32768 ∨ 32767 < a.toInt + m.toInt) := by
  have hoverflow : a.saddOverflow m = decide (a.toInt + m.toInt < -32768 ∨ 32767 < a.toInt + m.toInt) := by
    rw [BitVec.saddOverflow, ← Bool.decide_or, decide_eq_decide]
    omega
  rw [sum16_eq_add, ← hoverflow, BitVec.saddOverflow_eq]
  rfl

theorem add16_eq : add16 a m cc = (sum16 a m, cc.ofSum16 a m) := by
  refine Prod.ext (add16_fst a m cc) ?flags
  case flags =>
    rw [CC.ofSum16, CC.ofWordResult, ← word_msb, ← word_beq_zero, ← signs_of_wordSum, ← sum17_getLsbD_sixteen,
      ← add16_fst a m cc]
    rfl

/-! ## `Sub16` (42 R251) -/

theorem difference16_eq_sub : difference16 a m = a - m := by
  apply BitVec.eq_of_toInt_eq
  rw [difference16, BitVec.toInt_ofInt, BitVec.toInt_sub, BitVec.toInt_eq_toNat_bmod, BitVec.toInt_eq_toNat_bmod,
    Int.bmod_sub_bmod, Int.sub_bmod_bmod]

/-- The difference's V in numbers: the operands differ in sign and the word has not the sign of the minuend exactly when
the signed difference leaves -32768..32767. -/
theorem signs_of_wordDifference : (a.msb != m.msb && (difference16 a m).msb != a.msb) =
    decide (a.toInt - m.toInt < -32768 ∨ 32767 < a.toInt - m.toInt) := by
  have hoverflow : a.ssubOverflow m = decide (a.toInt - m.toInt < -32768 ∨ 32767 < a.toInt - m.toInt) := by
    rw [BitVec.ssubOverflow, ← Bool.decide_or, decide_eq_decide]
    omega
  rw [difference16_eq_sub, ← hoverflow, BitVec.ssubOverflow_eq]
  cases a.msb <;> cases m.msb <;> cases (a - m).msb <;> rfl

/-- The difference is negative exactly when it borrows. -/
theorem sub16_eq : sub16 a m cc = (difference16 a m, cc.ofDifference16 a m) := by
  have hborrow : a.toNat < m.toNat ↔ (a.toNat : Int) - m.toNat < 0 := by omega
  refine Prod.ext rfl ?flags
  case flags =>
    rw [CC.ofDifference16, CC.ofWordResult, ← word_msb, ← word_beq_zero, ← signs_of_wordDifference,
      decide_eq_decide.mpr hborrow]
    rfl

end

/-- Settles O46: the model finds V in sign bits and C in bit 16 of the seventeen-bit sum or in the sign of the
difference. -/
theorem wordArithmetic : Obligations.WordArithmetic :=
  ⟨add16_eq, sub16_eq, logic16_eq_ofWordResult⟩

end Sys2Proof.Machine
end

section
/-! Interrupt frames and hardware entries (60 R408 to R412). NMI, FIRQ and IRQ are one operation, `State.enter`, with four
parameters: the registers stacked, the E bit stacked with them, the mask bits set, and the vector. What an entry does is said
once of that operation. -/

namespace Sys2Proof.Machine

variable (st : State)

/-! ## Frames -/

/-- The frame of a register list stands below the old S, with the given CC in it (60 R408, R409). -/
def StacksList (l : RegList) (s t : State) (cc : CC) : Prop :=
  t.s = s.s - BitVec.ofNat 16 (listSize l) ∧
  Stored s t (s.s - BitVec.ofNat 16 (listSize l)) ((s.setCC cc).frame .hardware l)

theorem stacksList_all (s t : State) (cc : CC) : StacksList allRegisters s t cc ↔ StacksEntire s t cc := Iff.rfl

theorem stacksList_pcAndCC (s t : State) (cc : CC) : StacksList pcAndCC s t cc ↔ StacksFast s t cc := Iff.rfl

/-- A frame stays where neither S nor memory changes afterwards. -/
theorem StacksList.of_eq {l : RegList} {s t u : State} {cc : CC} (h : StacksList l s t cc) (hs : u.s = t.s)
    (hm : u.mem = t.mem) : StacksList l s u cc :=
  ⟨hs.trans h.1, h.2.of_eq hm⟩

/-- A push on the hardware stack leaves the frame of its list, with the CC of the moment. -/
theorem stacksList_pushList (l : RegList) (cc : CC) : StacksList l st ((st.setCC cc).pushList .hardware l) cc :=
  ⟨(st.setCC cc).pushList_sp .hardware l, (st.setCC cc).pushList_stored .hardware l⟩

/-- The order of the pushes (60 R408): as S is the only register they change, each pushes a register of the old state. -/
theorem State.pushEntire_pushes : st.pushEntire =
    (((((((st.push16 .hardware st.pc).push16 .hardware st.u).push16 .hardware st.y).push16 .hardware
      st.x).push8 .hardware st.dp).push8 .hardware st.b).push8 .hardware st.a).push8 .hardware st.cc.toByte := by
  rw [st.pushEntire_eq, st.pushList_eq]
  rfl

theorem State.pushFast_pushes : st.pushFast = (st.push16 .hardware st.pc).push8 .hardware st.cc.toByte := by
  rw [st.pushFast_eq, st.pushList_eq]
  rfl

theorem exec_pshs (l : RegList) : exec (.pshs l) st = .next (st.pushList .hardware l) := rfl

/-- Settles O16: both frames are pushes of a register list, whose image and frame rule are those of every push. -/
theorem interruptFrames : Obligations.InterruptFrames := by
  refine fun s => ⟨?entire, ?entireKeeps, s.pushEntire_pushes, ?pshs, ?short, ?shortKeeps, s.pushFast_pushes⟩
  case entire => rw [s.pushEntire_eq]; exact (stacksList_all _ _ _).mp (stacksList_pushList s allRegisters s.cc)
  case entireKeeps => rw [s.pushEntire_eq]; exact s.pushList_keeps .hardware allRegisters
  case pshs => rw [exec_pshs, s.pushEntire_eq]
  case short => rw [s.pushFast_eq]; exact (stacksList_pcAndCC _ _ _).mp (stacksList_pushList s pcAndCC s.cc)
  case shortKeeps => rw [s.pushFast_eq]; exact s.pushList_keeps .hardware pcAndCC

/-! ## Stacking by an entry -/

/-- What an entry stacks, unless CWAI has stacked the entire state already. -/
def State.stack (l : RegList) (e : Bool) : State :=
  if st.wait = .cwaiWaiting then st else (st.setE e).pushList .hardware l

theorem State.stackEntire_eq : st.stackEntire = st.stack allRegisters true := by
  rw [State.stackEntire, State.pushEntire_eq, State.stack]

theorem State.stackFast_eq : st.stackFast = st.stack pcAndCC false := by
  rw [State.stackFast, State.pushFast_eq, State.stack]

theorem State.stack_of_waiting (l : RegList) (e : Bool) (h : st.wait = .cwaiWaiting) : st.stack l e = st := if_pos h

theorem State.stack_of_not_waiting (l : RegList) (e : Bool) (h : st.wait ≠ .cwaiWaiting) :
    st.stack l e = (st.setE e).pushList .hardware l := if_neg h

theorem State.stack_keeps (l : RegList) (e : Bool) : Keeps [.cc, .s] st (st.stack l e) := by
  by_cases h : st.wait = .cwaiWaiting
  · rw [st.stack_of_waiting l e h]
    exact Keeps.refl _ _
  · rw [st.stack_of_not_waiting l e h]
    have hcc : Keeps [.cc, .s] st (st.setE e) := (keeps_setCC st _).mono (by decide)
    exact hcc.trans (((st.setE e).pushList_keeps .hardware l).mono (by decide))

/-! ## Hardware entries -/

/-- F and I set, as NMI and FIRQ leave them (60 R410, R411). -/
def CC.withBothMasks (cc : CC) : CC := { cc with f := true, i := true }

/-- I set and F as it was, as IRQ leaves them (60 R412). -/
def CC.withIrqMask (cc : CC) : CC := { cc with i := true }

/-- A hardware entry: stack, run, mask, take the vector. -/
def State.enter (l : RegList) (e : Bool) (mask : CC → CC) (vector : Word) : State :=
  (((st.stack l e).setWait .running).setCC (mask (st.stack l e).cc)).takeVector vector

theorem State.nmiEntry_eq :
    st.nmiEntry = (st.setNmiPending false).enter allRegisters true CC.withBothMasks vectorNmi := by
  rw [State.nmiEntry, State.stackEntire_eq]
  rfl

theorem State.firqEntry_eq : st.firqEntry = st.enter pcAndCC false CC.withBothMasks vectorFirq := by
  rw [State.firqEntry, State.stackFast_eq]
  rfl

theorem State.irqEntry_eq : st.irqEntry = st.enter allRegisters true CC.withIrqMask vectorIrq := by
  rw [State.irqEntry, State.stackEntire_eq]
  rfl

section
variable {l : RegList} {e : Bool} {mask : CC → CC} {vector : Word}

@[simp] theorem State.enter_wait : (st.enter l e mask vector).wait = .running := State.takeVector_wait _ vector
@[simp] theorem State.enter_s : (st.enter l e mask vector).s = (st.stack l e).s := State.takeVector_s _ vector
@[simp] theorem State.enter_cc : (st.enter l e mask vector).cc = mask (st.stack l e).cc := State.takeVector_cc _ vector
@[simp] theorem State.enter_mem : (st.enter l e mask vector).mem = (st.stack l e).mem := State.takeVector_mem _ vector

theorem takesVector_enter : TakesVector (st.enter l e mask vector) vector := takesVector_takeVector _ vector

theorem keeps_setWait (w : Wait) : Keeps [.wait] st (st.setWait w) := by
  intro f hf
  cases f
  case wait => exact absurd (List.mem_singleton_self _) hf
  all_goals rfl

theorem State.enter_keeps : Keeps [.cc, .s, .pc, .wait] st (st.enter l e mask vector) := by
  have hstack : Keeps [.cc, .s, .pc, .wait] st (st.stack l e) := (st.stack_keeps l e).mono (by decide)
  have hwait := (keeps_setWait (st.stack l e) .running).mono (gs := [.cc, .s, .pc, .wait]) (by decide)
  have hmask := (keeps_setCC ((st.stack l e).setWait .running) (mask (st.stack l e).cc)).mono
    (gs := [.cc, .s, .pc, .wait]) (by decide)
  exact ((hstack.trans hwait).trans hmask).trans ((keeps_takeVector _ vector).mono (by decide))

/-- Out of any wait but CWAI's the frame is stacked with E as given, and CC keeps that E. -/
theorem State.enter_of_not_waiting (h : st.wait ≠ .cwaiWaiting) :
    StacksList l st (st.enter l e mask vector) { st.cc with e := e } ∧
    (st.enter l e mask vector).cc = mask { st.cc with e := e } := by
  have hstack := st.stack_of_not_waiting l e h
  have hcc : (st.stack l e).cc = { st.cc with e := e } := by
    rw [hstack]
    exact (st.setE e).pushList_keeps .hardware l .cc (by decide)
  have hframe : StacksList l st (st.stack l e) { st.cc with e := e } := by
    rw [hstack]
    exact stacksList_pushList st l { st.cc with e := e }
  exact ⟨hframe.of_eq st.enter_s st.enter_mem, by rw [st.enter_cc, hcc]⟩

/-- Out of CWAI's wait nothing is stacked and E is left alone (45 R361). -/
theorem State.enter_of_waiting (h : st.wait = .cwaiWaiting) :
    (st.enter l e mask vector).s = st.s ∧ KeepsMemory st (st.enter l e mask vector) ∧
    (st.enter l e mask vector).cc = mask st.cc := by
  have hstack := st.stack_of_waiting l e h
  exact ⟨by rw [st.enter_s, hstack], KeepsMemory.of_eq (by rw [st.enter_mem, hstack]), by rw [st.enter_cc, hstack]⟩

end

/-! ## Entries at a boundary -/

/-- The state from which every hardware entry stacks: inputs consumed, SYNC left, no NMI pending. -/
def State.entryState : State := (st.advanced.setNmiPending false).setWait st.examinedWait

/-- The examination ends SYNC only, so it does not hide a CWAI wait from the entry. -/
theorem State.examinedWait_eq_cwaiWaiting_iff : st.examinedWait = .cwaiWaiting ↔ st.wait = .cwaiWaiting := by
  unfold State.examinedWait
  split
  next h => simp [h.1]
  next => rfl

theorem step_of_nmiDue (hr : st.nowInputs.reset = false) (hn : st.nmiDue = true) :
    step st = .next (st.entryState.enter allRegisters true CC.withBothMasks vectorNmi) := by
  have h : step st = .next st.examined.nmiEntry := by simpa [hr, hn, State.Uneventful] using step_cases st
  rw [h, State.nmiEntry_eq, State.examined_eq]
  rfl

theorem State.examined_of_not_nmiDue (hn : st.nmiDue = false) : st.examined = st.entryState := by
  rw [State.examined_eq, hn, State.entryState]

theorem step_of_firqDue (hr : st.nowInputs.reset = false) (hn : st.nmiDue = false) (hf : st.firqDue = true) :
    step st = .next (st.entryState.enter pcAndCC false CC.withBothMasks vectorFirq) := by
  have h : step st = .next st.examined.firqEntry := by simpa [hr, hn, hf, State.Uneventful] using step_cases st
  rw [h, State.firqEntry_eq, st.examined_of_not_nmiDue hn]

theorem step_of_irqDue (hr : st.nowInputs.reset = false) (hn : st.nmiDue = false) (hf : st.firqDue = false)
    (hi : st.irqDue = true) :
    step st = .next (st.entryState.enter allRegisters true CC.withIrqMask vectorIrq) := by
  have h : step st = .next st.examined.irqEntry := by simpa [hr, hn, hf, hi, State.Uneventful] using step_cases st
  rw [h, State.irqEntry_eq, st.examined_of_not_nmiDue hn]

theorem State.entryState_keeps : Keeps [.nmiPending, .wait] st.advanced st.entryState := by
  intro f hf
  cases f
  case nmiPending => exact absurd (by decide) hf
  case wait => exact absurd (by decide) hf
  all_goals rfl

/-- Where no NMI is due none is pending, so the entry state differs from the step's start in the wait alone. -/
theorem State.entryState_keeps_of_not_nmiDue (hn : st.nmiDue = false) : Keeps [.wait] st.advanced st.entryState := by
  have hp : st.nmiPending = false := (Bool.or_eq_false_iff.mp hn).1
  intro f hf
  by_cases h : f = .nmiPending
  · subst h
    exact hp.symm
  · exact st.entryState_keeps f (by simp_all)

section
variable {l : RegList} {e : Bool} {mask : CC → CC} {vector : Word}

theorem State.entryState_enter_of_not_waiting (h : st.wait ≠ .cwaiWaiting) :
    StacksList l st (st.entryState.enter l e mask vector) { st.cc with e := e } ∧
    (st.entryState.enter l e mask vector).cc = mask { st.cc with e := e } :=
  st.entryState.enter_of_not_waiting fun hw => h (st.examinedWait_eq_cwaiWaiting_iff.mp hw)

theorem State.entryState_enter_of_waiting (h : st.wait = .cwaiWaiting) :
    (st.entryState.enter l e mask vector).s = st.s ∧ KeepsMemory st (st.entryState.enter l e mask vector) ∧
    (st.entryState.enter l e mask vector).cc = mask st.cc :=
  st.entryState.enter_of_waiting (st.examinedWait_eq_cwaiWaiting_iff.mpr h)

theorem State.entryState_enter_keeps :
    Keeps [.cc, .s, .pc, .nmiPending, .wait] st.advanced (st.entryState.enter l e mask vector) :=
  (st.entryState_keeps.mono (by decide)).trans (st.entryState.enter_keeps.mono (by decide))

theorem State.entryState_enter_keeps_of_not_nmiDue (hn : st.nmiDue = false) :
    Keeps [.cc, .s, .pc, .wait] st.advanced (st.entryState.enter l e mask vector) :=
  ((st.entryState_keeps_of_not_nmiDue hn).mono (by decide)).trans st.entryState.enter_keeps

theorem State.entryState_enter_nmiPending : (st.entryState.enter l e mask vector).nmiPending = false :=
  st.entryState.enter_keeps .nmiPending (by decide)

end

/-- Settles O17: the entry with the entire state, both masks and the vector 0xFFFC. -/
theorem nmiEntry : Obligations.NmiEntry := by
  intro s hr hn
  refine ⟨_, step_of_nmiDue s hr hn, s.entryState_enter_nmiPending, s.entryState.enter_wait, takesVector_enter _,
    s.entryState_enter_keeps, fun hw => ?stacked, s.entryState_enter_of_waiting⟩
  case stacked => exact (s.entryState_enter_of_not_waiting hw).imp_left (stacksList_all _ _ _).mp

/-- Settles O18: the entry with PC and CC, both masks and the vector 0xFFF6; as no NMI is due, the pending latch keeps its
value. -/
theorem firqEntry : Obligations.FirqEntry := by
  intro s hr hn hf
  refine ⟨_, step_of_firqDue s hr hn hf, s.entryState.enter_wait, takesVector_enter _,
    s.entryState_enter_keeps_of_not_nmiDue hn, fun hw => ?stacked, s.entryState_enter_of_waiting⟩
  case stacked => exact (s.entryState_enter_of_not_waiting hw).imp_left (stacksList_pcAndCC _ _ _).mp

/-- Settles O19: the entry with the entire state, I alone masked and the vector 0xFFF8. -/
theorem irqEntry : Obligations.IrqEntry := by
  intro s hr hn hf hi
  refine ⟨_, step_of_irqDue s hr hn hf hi, s.entryState.enter_wait, takesVector_enter _,
    s.entryState_enter_keeps_of_not_nmiDue hn, fun hw => ?stacked, s.entryState_enter_of_waiting⟩
  case stacked => exact (s.entryState_enter_of_not_waiting hw).imp_left (stacksList_all _ _ _).mp

end Sys2Proof.Machine
end

section
/-! The encoding in both directions (30 R80 to R118). Both round trips go through one relation, `Format.Encodes`: which operand
bytes an instruction has behind an opcode of a format. The decoder accepts exactly those bytes, and the opcode maps agree cell by
cell with the encoder. -/

namespace Sys2Proof

/-! ## Postbytes -/

theorem indexReg_code (r : IndexReg) : indexReg r.code = r := by cases r <;> rfl

theorem code_indexReg (rr : BitVec 2) : (indexReg rr).code = rr := by
  revert rr
  decide

/-- The fields of a postbyte `0 rr nnnnn` (30 R89). -/
theorem offset5_fields : ∀ (rr : BitVec 2) (n : BitVec 5), (0#1 ++ rr ++ n : Byte).getLsbD 7 = false ∧
    (0#1 ++ rr ++ n : Byte).extractLsb' 5 2 = rr ∧ (0#1 ++ rr ++ n : Byte).extractLsb' 0 5 = n := by
  decide

/-- The fields of a postbyte `1 rr i mode` (30 R88). -/
theorem modeByte_fields : ∀ (rr : BitVec 2) (ind : Bool) (mode : BitVec 4), (modeByte rr ind mode).getLsbD 7 = true ∧
    (modeByte rr ind mode).extractLsb' 5 2 = rr ∧ (modeByte rr ind mode).getLsbD 4 = ind ∧
    (modeByte rr ind mode).extractLsb' 0 4 = mode := by
  decide

/-- A postbyte is one of the two forms. -/
theorem postbyte_cases : ∀ pb : Byte,
    (pb.getLsbD 7 = false ∧ pb = 0#1 ++ pb.extractLsb' 5 2 ++ pb.extractLsb' 0 5) ∨
    (pb.getLsbD 7 = true ∧ pb = modeByte (pb.extractLsb' 5 2) (pb.getLsbD 4) (pb.extractLsb' 0 4)) := by
  decide

theorem pairOfByte_pairByte (r1 r2 : Reg) (h : pairWellFormed r1 r2 = true) :
    pairOfByte (pairByte r1 r2) = some (r1, r2) := by
  revert h
  cases r1 <;> cases r2 <;> decide

theorem pairOfByte_eq_some : ∀ (pb : Byte), ∀ p ∈ pairOfByte pb,
    pairWellFormed p.1 p.2 = true ∧ pairByte p.1 p.2 = pb := by
  decide

theorem listOfByte_toByte (l : RegList) : listOfByte l.toByte = l := by
  obtain ⟨pc, other, y, x, dp, b, a, cc⟩ := l
  revert pc other y x dp b a cc
  decide

theorem toByte_listOfByte : ∀ pb : Byte, (listOfByte pb).toByte = pb := by
  decide

/-! ## Indexed operands -/

/-- Decoding the postbyte of an indexed operand and its offset bytes gives the operand back. -/
theorem decodeIndexed_encodeIndexed (m : Indexed) (rest : List Byte) :
    ∃ pb more, encodeIndexed m = pb :: more ∧ decodeIndexed pb (more ++ rest) = .ok m more.length := by
  cases m with
  | offset5 r n =>
    obtain ⟨h7, hrr, hn⟩ := offset5_fields r.code n
    exact ⟨_, _, rfl, by simp only [decodeIndexed, h7, hrr, hn, indexReg_code, if_true, List.length_nil]⟩
  | extIndirect a => exact ⟨0x9F, _, rfl, congrArg (IndexedDecoded.ok · 2)
      (congrArg Indexed.extIndirect (Machine.joinBytes_hi_lo a))⟩
  | _ =>
    refine ⟨_, _, rfl, ?_⟩
    simp only [decodeIndexed, modeByte_fields, indexReg_code, List.cons_append, List.nil_append, oneMore, twoMore,
      Machine.joinBytes_hi_lo, Bool.true_eq_false, if_false]
    rfl

/-- `pb :: more` starts with the encoding of `m`, which takes `extra` bytes behind the postbyte. -/
def StartsWithIndexed (pb : Byte) (more : List Byte) (m : Indexed) (extra : Nat) : Prop :=
  ∃ tail, pb :: more = encodeIndexed m ++ tail ∧ extra + 1 = (encodeIndexed m).length

section

variable {pb : Byte} {more : List Byte} {m : Indexed} {extra : Nat}

theorem startsWithIndexed_of_ok {k : Indexed} (h : IndexedDecoded.ok k 0 = .ok m extra)
    (hk : encodeIndexed k = [pb]) : StartsWithIndexed pb more m extra := by
  cases h
  exact ⟨more, by rw [hk]; rfl, by rw [hk]; rfl⟩

theorem startsWithIndexed_of_oneMore {k : Byte → Indexed} (h : oneMore k more = .ok m extra)
    (hk : ∀ o, encodeIndexed (k o) = [pb, o]) : StartsWithIndexed pb more m extra := by
  match more, h with
  | o :: tail, h =>
    cases h
    exact ⟨tail, by rw [hk]; rfl, by rw [hk]; rfl⟩

theorem startsWithIndexed_of_twoMore {k : Word → Indexed} (h : twoMore k more = .ok m extra)
    (hk : ∀ w, encodeIndexed (k w) = [pb, hiByte w, loByte w]) : StartsWithIndexed pb more m extra := by
  match more, h with
  | hi :: lo :: tail, h =>
    cases h
    exact ⟨tail, by rw [hk, Machine.hiByte_joinBytes, Machine.loByte_joinBytes]; rfl, by rw [hk]; rfl⟩

/-- What decodes as an indexed operand is the operand's encoding and what follows it. -/
theorem startsWithIndexed_of_decodeIndexed (h : decodeIndexed pb more = .ok m extra) :
    StartsWithIndexed pb more m extra := by
  rcases postbyte_cases pb with ⟨h7, hpb⟩ | ⟨h7, hpb⟩
  · rw [decodeIndexed, if_pos h7] at h
    exact startsWithIndexed_of_ok h (by rw [encodeIndexed, code_indexReg, ← hpb])
  · generalize pb.extractLsb' 5 2 = rr at hpb
    generalize pb.getLsbD 4 = ind at hpb
    generalize pb.extractLsb' 0 4 = mode at hpb
    subst hpb
    simp only [decodeIndexed, modeByte_fields, Bool.true_eq_false, if_false] at h
    have hcode : ∀ ind n, mode.toNat = n → modeByte (indexReg rr).code ind (BitVec.ofNat 4 n) = modeByte rr ind mode := by
      rintro ind _ rfl
      rw [code_indexReg, BitVec.ofNat_toNat, BitVec.setWidth_eq]
    split at h
    case h_1 hm | h_3 hm =>
      cases ind
      · exact startsWithIndexed_of_ok h (congrArg (· :: []) (hcode false _ hm))
      · cases h
    case h_2 hm | h_4 hm | h_5 hm | h_6 hm | h_7 hm | h_10 hm =>
      exact startsWithIndexed_of_ok h (congrArg (· :: []) (hcode ind _ hm))
    case h_8 hm => exact startsWithIndexed_of_oneMore h (fun o => congrArg (· :: [o]) (hcode ind _ hm))
    case h_9 hm =>
      exact startsWithIndexed_of_twoMore h (fun w => congrArg (· :: [hiByte w, loByte w]) (hcode ind _ hm))
    case h_11 hm =>
      rw [code_indexReg] at hcode
      exact startsWithIndexed_of_oneMore h (fun o => congrArg (· :: [o]) (hcode ind _ hm))
    case h_12 hm =>
      rw [code_indexReg] at hcode
      exact startsWithIndexed_of_twoMore h (fun w => congrArg (· :: [hiByte w, loByte w]) (hcode ind _ hm))
    case h_13 hm =>
      split at h
      · next hpb => exact startsWithIndexed_of_twoMore h (fun w => by rw [hpb]; rfl)
      · cases h
    case h_14 => cases h

end

/-! ## Operands of every format -/

/-- The operand bytes that an instruction has behind an opcode of a format (30 R80). -/
inductive Format.Encodes : Format → Instr → List Byte → Prop
  | inherent (i : Instr) : Encodes (.inherent i) i []
  | imm8 (k : Byte → Instr) (v : Byte) : Encodes (.imm8 k) (k v) [v]
  | direct (k : Byte → Instr) (v : Byte) : Encodes (.direct k) (k v) [v]
  | rel8 (k : Byte → Instr) (v : Byte) : Encodes (.rel8 k) (k v) [v]
  | imm16 (k : Word → Instr) (w : Word) : Encodes (.imm16 k) (k w) [hiByte w, loByte w]
  | extended (k : Word → Instr) (w : Word) : Encodes (.extended k) (k w) [hiByte w, loByte w]
  | rel16 (k : Word → Instr) (w : Word) : Encodes (.rel16 k) (k w) [hiByte w, loByte w]
  | indexed (k : Indexed → Instr) (m : Indexed) : Encodes (.indexed k) (k m) (encodeIndexed m)
  | regPair (k : Reg → Reg → Instr) (r1 r2 : Reg) (h : pairWellFormed r1 r2 = true) :
      Encodes (.regPair k) (k r1 r2) [pairByte r1 r2]
  | regList (k : RegList → Instr) (l : RegList) : Encodes (.regList k) (k l) [l.toByte]

/-- Operand bytes decode to their instruction, whatever follows them. -/
theorem Format.Encodes.decodeOperand {f : Format} {i : Instr} {bs : List Byte} (h : f.Encodes i bs) (op rest : List Byte) :
    decodeOperand op f (bs ++ rest) = .ok i (op ++ bs).length := by
  rw [List.length_append]
  cases h with
  | inherent | imm8 | direct | rel8 => rfl
  | imm16 k w | extended k w | rel16 k w =>
    simp only [List.cons_append, List.nil_append, Sys2Proof.decodeOperand, Machine.joinBytes_hi_lo]
    rfl
  | indexed k m =>
    obtain ⟨pb, more, hm, hd⟩ := decodeIndexed_encodeIndexed m rest
    simp only [hm, List.cons_append, Sys2Proof.decodeOperand, hd, List.length_cons, Nat.add_assoc, Nat.add_comm 1]
  | regPair k r1 r2 hw =>
    simp only [List.cons_append, List.nil_append, Sys2Proof.decodeOperand, pairOfByte_pairByte r1 r2 hw]
    rfl
  | regList k l =>
    simp only [List.cons_append, List.nil_append, Sys2Proof.decodeOperand, listOfByte_toByte]
    rfl

/-- What decodes behind an opcode starts with the operand bytes of the instruction, and its length counts them. -/
theorem encodes_of_decodeOperand {op : List Byte} {f : Format} {bytes : List Byte} {i : Instr} {n : Nat}
    (h : decodeOperand op f bytes = .ok i n) :
    ∃ bs tail, bytes = bs ++ tail ∧ f.Encodes i bs ∧ n = (op ++ bs).length := by
  unfold decodeOperand at h
  split at h
  case h_1 k => cases h; exact ⟨[], _, rfl, .inherent _, by simp⟩
  case h_2 k v tail => cases h; exact ⟨[v], tail, rfl, .imm8 k v, by simp⟩
  case h_3 k v tail => cases h; exact ⟨[v], tail, rfl, .direct k v, by simp⟩
  case h_4 k v tail => cases h; exact ⟨[v], tail, rfl, .rel8 k v, by simp⟩
  case h_5 k hi lo tail =>
    cases h
    exact ⟨_, tail, by rw [Machine.hiByte_joinBytes, Machine.loByte_joinBytes]; rfl, .imm16 k (joinBytes hi lo), by simp⟩
  case h_6 k hi lo tail =>
    cases h
    exact ⟨_, tail, by rw [Machine.hiByte_joinBytes, Machine.loByte_joinBytes]; rfl, .extended k (joinBytes hi lo), by simp⟩
  case h_7 k hi lo tail =>
    cases h
    exact ⟨_, tail, by rw [Machine.hiByte_joinBytes, Machine.loByte_joinBytes]; rfl, .rel16 k (joinBytes hi lo), by simp⟩
  case h_8 k pb tail => cases h; exact ⟨_, tail, by rw [toByte_listOfByte]; rfl, .regList k (listOfByte pb), by simp⟩
  case h_9 k pb tail =>
    split at h
    · next r1 r2 hp =>
      obtain ⟨hw, hpb⟩ := pairOfByte_eq_some pb (r1, r2) hp
      cases h
      exact ⟨_, tail, by rw [hpb]; rfl, .regPair k r1 r2 hw, by simp⟩
    · cases h
  case h_10 k pb more =>
    split at h
    · next m extra hm =>
      obtain ⟨tail, hb, hl⟩ := startsWithIndexed_of_decodeIndexed hm
      cases h
      exact ⟨_, tail, hb, .indexed k m, by rw [List.length_append, ← hl]; omega⟩
    · cases h
    · cases h
  case h_11 => cases h

/-! ## Opcodes -/

/-- The bytes `op` are an opcode of format `f`, whatever follows them. -/
def IsOpcode (op : List Byte) (f : Format) : Prop := ∀ rest, decode (op ++ rest) = decodeOperand op f rest

/-- The encoder's lines for the instructions of a cell `f` begin with the opcode `op`. -/
def Format.AgreesWith (op : List Byte) : Format → Prop
  | .inherent i => i.wellFormed = true ∧ encode i = op
  | .imm8 k | .direct k | .rel8 k => ∀ v, (k v).wellFormed = true ∧ encode (k v) = op ++ [v]
  | .imm16 k | .extended k | .rel16 k => ∀ w, (k w).wellFormed = true ∧ encode (k w) = op ++ [hiByte w, loByte w]
  | .indexed k => ∀ m, (k m).wellFormed = true ∧ encode (k m) = op ++ encodeIndexed m
  | .regPair k => ∀ r1 r2, (k r1 r2).wellFormed = pairWellFormed r1 r2 ∧ encode (k r1 r2) = op ++ [pairByte r1 r2]
  | .regList k => ∀ l, (k l).wellFormed = true ∧ encode (k l) = op ++ [l.toByte]

theorem Format.AgreesWith.encode_eq {op : List Byte} {f : Format} (h : f.AgreesWith op) {i : Instr} {bs : List Byte}
    (hi : f.Encodes i bs) : i.wellFormed = true ∧ encode i = op ++ bs := by
  cases hi with
  | inherent => exact ⟨h.1, by rw [h.2, List.append_nil]⟩
  | imm8 _ v | direct _ v | rel8 _ v => exact h v
  | imm16 _ w | extended _ w | rel16 _ w => exact h w
  | indexed _ m => exact h m
  | regPair _ r1 r2 hw => exact ⟨(h r1 r2).1.trans hw, (h r1 r2).2⟩
  | regList _ l => exact h l

/-- The cells of a page 1 row agree with the encoder, the first of them at opcode `first`. -/
def RowAgrees : Nat → List (Option Format) → Prop
  | _, [] => True
  | first, cell :: row => (∀ f ∈ cell, f.AgreesWith [BitVec.ofNat 8 first]) ∧ RowAgrees (first + 1) row

theorem RowAgrees.cell {first : Nat} {row : List (Option Format)} (h : RowAgrees first row) (c : Nat) :
    ∀ f ∈ row.getD c none, f.AgreesWith [BitVec.ofNat 8 (first + c)] := by
  induction row generalizing first c with
  | nil => intro f hf; cases hf
  | cons cell row ih =>
    cases c with
    | zero => exact h.1
    | succ c =>
      have := ih h.2 c
      rwa [Nat.add_right_comm] at this

section

variable {op : List Byte} {f : Format}

/-! The four kinds of cell. The encoder's line for a cell is compared by evaluation. -/

theorem undefinedCell : ∀ g ∈ (none : Option Format), g.AgreesWith op := by
  rintro _ ⟨⟩

theorem operandCell (h : f.AgreesWith op := by exact fun _ => ⟨rfl, rfl⟩) : ∀ g ∈ some f, g.AgreesWith op := by
  rintro _ ⟨⟩
  exact h

theorem inherentCell (h : f.AgreesWith op := by exact ⟨rfl, rfl⟩) : ∀ g ∈ some f, g.AgreesWith op := operandCell h

theorem pairCell (h : f.AgreesWith op := by exact fun _ _ => ⟨rfl, rfl⟩) : ∀ g ∈ some f, g.AgreesWith op :=
  operandCell h

end

/-! The rows of the page 1 map, cell by cell (30 R113). -/

theorem page1Row0_agrees : RowAgrees 0x00 page1Row0 :=
  ⟨operandCell, undefinedCell, undefinedCell, operandCell, operandCell, undefinedCell, operandCell, operandCell,
   operandCell, operandCell, operandCell, undefinedCell, operandCell, operandCell, operandCell, operandCell, trivial⟩

theorem page1Row1_agrees : RowAgrees 0x10 page1Row1 :=
  ⟨undefinedCell, undefinedCell, inherentCell, inherentCell, undefinedCell, undefinedCell, operandCell, operandCell,
   undefinedCell, inherentCell, operandCell, undefinedCell, operandCell, inherentCell, pairCell, pairCell, trivial⟩

theorem page1Row2_agrees : RowAgrees 0x20 page1Row2 :=
  ⟨operandCell, operandCell, operandCell, operandCell, operandCell, operandCell, operandCell, operandCell,
   operandCell, operandCell, operandCell, operandCell, operandCell, operandCell, operandCell, operandCell, trivial⟩

theorem page1Row3_agrees : RowAgrees 0x30 page1Row3 :=
  ⟨operandCell, operandCell, operandCell, operandCell, operandCell, operandCell, operandCell, operandCell,
   undefinedCell, inherentCell, inherentCell, inherentCell, operandCell, inherentCell, undefinedCell, inherentCell,
   trivial⟩

theorem page1Row4_agrees : RowAgrees 0x40 page1Row4 :=
  ⟨inherentCell, undefinedCell, undefinedCell, inherentCell, inherentCell, undefinedCell, inherentCell, inherentCell,
   inherentCell, inherentCell, inherentCell, undefinedCell, inherentCell, inherentCell, undefinedCell, inherentCell,
   trivial⟩

theorem page1Row5_agrees : RowAgrees 0x50 page1Row5 :=
  ⟨inherentCell, undefinedCell, undefinedCell, inherentCell, inherentCell, undefinedCell, inherentCell, inherentCell,
   inherentCell, inherentCell, inherentCell, undefinedCell, inherentCell, inherentCell, undefinedCell, inherentCell,
   trivial⟩

theorem page1Row6_agrees : RowAgrees 0x60 page1Row6 :=
  ⟨operandCell, undefinedCell, undefinedCell, operandCell, operandCell, undefinedCell, operandCell, operandCell,
   operandCell, operandCell, operandCell, undefinedCell, operandCell, operandCell, operandCell, operandCell, trivial⟩

theorem page1Row7_agrees : RowAgrees 0x70 page1Row7 :=
  ⟨operandCell, undefinedCell, undefinedCell, operandCell, operandCell, undefinedCell, operandCell, operandCell,
   operandCell, operandCell, operandCell, undefinedCell, operandCell, operandCell, operandCell, operandCell, trivial⟩

theorem page1Row8_agrees : RowAgrees 0x80 page1Row8 :=
  ⟨operandCell, operandCell, operandCell, operandCell, operandCell, operandCell, operandCell, undefinedCell,
   operandCell, operandCell, operandCell, operandCell, operandCell, operandCell, operandCell, undefinedCell, trivial⟩

theorem page1Row9_agrees : RowAgrees 0x90 page1Row9 :=
  ⟨operandCell, operandCell, operandCell, operandCell, operandCell, operandCell, operandCell, operandCell,
   operandCell, operandCell, operandCell, operandCell, operandCell, operandCell, operandCell, operandCell, trivial⟩

theorem page1RowA_agrees : RowAgrees 0xA0 page1RowA :=
  ⟨operandCell, operandCell, operandCell, operandCell, operandCell, operandCell, operandCell, operandCell,
   operandCell, operandCell, operandCell, operandCell, operandCell, operandCell, operandCell, operandCell, trivial⟩

theorem page1RowB_agrees : RowAgrees 0xB0 page1RowB :=
  ⟨operandCell, operandCell, operandCell, operandCell, operandCell, operandCell, operandCell, operandCell,
   operandCell, operandCell, operandCell, operandCell, operandCell, operandCell, operandCell, operandCell, trivial⟩

theorem page1RowC_agrees : RowAgrees 0xC0 page1RowC :=
  ⟨operandCell, operandCell, operandCell, operandCell, operandCell, operandCell, operandCell, undefinedCell,
   operandCell, operandCell, operandCell, operandCell, operandCell, undefinedCell, operandCell, undefinedCell,
   trivial⟩

theorem page1RowD_agrees : RowAgrees 0xD0 page1RowD :=
  ⟨operandCell, operandCell, operandCell, operandCell, operandCell, operandCell, operandCell, operandCell,
   operandCell, operandCell, operandCell, operandCell, operandCell, operandCell, operandCell, operandCell, trivial⟩

theorem page1RowE_agrees : RowAgrees 0xE0 page1RowE :=
  ⟨operandCell, operandCell, operandCell, operandCell, operandCell, operandCell, operandCell, operandCell,
   operandCell, operandCell, operandCell, operandCell, operandCell, operandCell, operandCell, operandCell, trivial⟩

theorem page1RowF_agrees : RowAgrees 0xF0 page1RowF :=
  ⟨operandCell, operandCell, operandCell, operandCell, operandCell, operandCell, operandCell, operandCell,
   operandCell, operandCell, operandCell, operandCell, operandCell, operandCell, operandCell, operandCell, trivial⟩

theorem page1_agrees : ∀ r < 16, RowAgrees (16 * r) (page1.getD r []) := by
  intro r hr
  interval_cases r
  exacts [page1Row0_agrees, page1Row1_agrees, page1Row2_agrees, page1Row3_agrees, page1Row4_agrees, page1Row5_agrees,
    page1Row6_agrees, page1Row7_agrees, page1Row8_agrees, page1Row9_agrees, page1RowA_agrees, page1RowB_agrees,
    page1RowC_agrees, page1RowD_agrees, page1RowE_agrees, page1RowF_agrees]

theorem page1Format_agrees (b : Byte) : ∀ f ∈ page1Format b, f.AgreesWith [b] := by
  have hb : b.toNat < 256 := b.isLt
  have h := (page1_agrees (b.toNat / 16) (by omega)).cell (b.toNat % 16)
  rwa [Nat.div_add_mod, BitVec.ofNat_toNat, BitVec.setWidth_eq] at h

/-- The cells of page 2 or page 3 agree with the encoder. -/
def PageAgrees (page : Byte) : List (Byte × Option Format) → Prop
  | [] => True
  | (b, cell) :: cells => (∀ f ∈ cell, f.AgreesWith [page, b]) ∧ PageAgrees page cells

theorem PageAgrees.cell {page : Byte} {cells : List (Byte × Option Format)} (h : PageAgrees page cells) (b : Byte) :
    ∀ f ∈ cellOf b cells, f.AgreesWith [page, b] := by
  induction cells with
  | nil => intro f hf; cases hf
  | cons c cells ih =>
    unfold cellOf
    split
    · next hb => rw [hb]; exact h.1
    · exact ih h.2

theorem page2_agrees : PageAgrees 0x10 page2 :=
  ⟨operandCell, operandCell, operandCell, operandCell, operandCell, operandCell, operandCell, operandCell,
   operandCell, operandCell, operandCell, operandCell, operandCell, operandCell, operandCell, inherentCell,
   operandCell, operandCell, operandCell, operandCell, operandCell, operandCell, operandCell, operandCell,
   operandCell, operandCell, operandCell, operandCell, operandCell, operandCell, operandCell, operandCell,
   operandCell, operandCell, operandCell, operandCell, operandCell, operandCell, trivial⟩

theorem page3_agrees : PageAgrees 0x11 page3 :=
  ⟨inherentCell, operandCell, operandCell, operandCell, operandCell, operandCell, operandCell, operandCell,
   operandCell, trivial⟩

/-! The three pages, one equation each (30 R82). -/

theorem decode_page1 {b : Byte} (rest : List Byte) (h2 : b ≠ 0x10) (h3 : b ≠ 0x11) :
    decode (b :: rest) = decodeCell .undefinedOpcode [b] (page1Format b) rest := by
  simp only [decode, if_neg h2, if_neg h3]

theorem decode_page2 (b : Byte) (rest : List Byte) :
    decode (0x10 :: b :: rest) = decodeCell .undefinedPage2 [0x10, b] (cellOf b page2) rest := rfl

theorem decode_page3 (b : Byte) (rest : List Byte) :
    decode (0x11 :: b :: rest) = decodeCell .undefinedPage3 [0x11, b] (cellOf b page3) rest := rfl

/-- The bytes are an opcode of one or two bytes, which agrees with the encoder, and an operand that decodes. -/
def ReadsAs (bytes : List Byte) (i : Instr) (n : Nat) : Prop :=
  ∃ op f rest, bytes = op ++ rest ∧ op.length ≤ 2 ∧ f.AgreesWith op ∧ decodeOperand op f rest = .ok i n

theorem readsAs_of_decodeCell {why : Illegal} {op : List Byte} {cell : Option Format} (hop : op.length ≤ 2)
    (hc : ∀ f ∈ cell, f.AgreesWith op) {rest : List Byte} {i : Instr} {n : Nat}
    (h : decodeCell why op cell rest = .ok i n) : ReadsAs (op ++ rest) i n := by
  cases cell with
  | none => cases h
  | some f => exact ⟨op, f, rest, rfl, hop, hc f rfl, h⟩

/-- What decodes is read from a cell of one of the pages. -/
theorem readsAs_of_decode {bytes : List Byte} {i : Instr} {n : Nat} (h : decode bytes = .ok i n) : ReadsAs bytes i n := by
  match bytes with
  | [] => cases h
  | b0 :: rest =>
    by_cases h2 : b0 = 0x10
    · subst h2
      match rest with
      | [] => cases h
      | b1 :: more =>
        exact readsAs_of_decodeCell (op := [0x10, b1]) (Nat.le_refl 2) (page2_agrees.cell b1) (decode_page2 b1 more ▸ h)
    · by_cases h3 : b0 = 0x11
      · subst h3
        match rest with
        | [] => cases h
        | b1 :: more =>
          exact readsAs_of_decodeCell (op := [0x11, b1]) (Nat.le_refl 2) (page3_agrees.cell b1) (decode_page3 b1 more ▸ h)
      · exact readsAs_of_decodeCell (op := [b0]) (Nat.le_succ 1) (page1Format_agrees b0) (decode_page1 rest h2 h3 ▸ h)

/-- Settles O2: the opcode's cell agrees with the encoder, and the operand bytes are those of its format. -/
theorem encodeDecode : Obligations.EncodeDecode := by
  intro bytes i n h
  obtain ⟨op, f, rest, rfl, -, hf, ho⟩ := readsAs_of_decode h
  obtain ⟨bs, tail, rfl, hi, rfl⟩ := encodes_of_decodeOperand ho
  obtain ⟨hw, he⟩ := hf.encode_eq hi
  exact ⟨hw, by rw [he], by rw [he, ← List.append_assoc, List.take_left]⟩

/-- An operand takes at most three bytes. -/
theorem Format.Encodes.length_le {f : Format} {i : Instr} {bs : List Byte} (h : f.Encodes i bs) : bs.length ≤ 3 := by
  cases h with
  | indexed k m => exact (Laws.EncodeLength.encodeIndexed_length m).2
  | _ => simp

/-- No instruction is longer than five bytes (30 R80). -/
theorem decode_length_le {bytes : List Byte} {i : Instr} {n : Nat} (h : decode bytes = .ok i n) : n ≤ longest := by
  obtain ⟨op, f, rest, rfl, hop, -, ho⟩ := readsAs_of_decode h
  obtain ⟨bs, tail, rfl, hi, rfl⟩ := encodes_of_decodeOperand ho
  rw [List.length_append]
  exact Nat.add_le_add hop hi.length_le

/-! ## Decoding what has been encoded -/

/-- The bytes decode to the instruction, and to all of them, whatever follows. -/
def DecodesTo (bytes : List Byte) (i : Instr) : Prop := ∀ rest, decode (bytes ++ rest) = .ok i bytes.length

theorem IsOpcode.decodesTo {op bs : List Byte} {f : Format} {i : Instr} (ho : IsOpcode op f) (hi : f.Encodes i bs) :
    DecodesTo (op ++ bs) i := by
  intro rest
  rw [List.append_assoc, ho, hi.decodeOperand]

theorem IsOpcode.decodesTo_paged {page bs : List Byte} {b : Byte} {f : Format} {i : Instr}
    (ho : IsOpcode (page ++ [b]) f) (hi : f.Encodes i bs) : DecodesTo (page ++ b :: bs) i := by
  have h := ho.decodesTo hi
  rwa [List.append_assoc] at h

section

variable {page op : List Byte} {imm dir idx ext : Byte}

/-! One lemma for each way the encoder writes an instruction; that its bytes are opcodes of the maps is evaluated. -/

theorem decodesTo_inherent {i : Instr} (h : IsOpcode op (.inherent i) := by exact fun _ => rfl) : DecodesTo op i :=
  List.append_nil op ▸ h.decodesTo (.inherent i)

theorem decodesTo_imm8 {k : Byte → Instr} {v : Byte} (h : IsOpcode [imm] (.imm8 k) := by exact fun _ => rfl) :
    DecodesTo [imm, v] (k v) := h.decodesTo (.imm8 k v)

theorem decodesTo_rel8 {k : Byte → Instr} {v : Byte} (h : IsOpcode [imm] (.rel8 k) := by exact fun _ => rfl) :
    DecodesTo [imm, v] (k v) := h.decodesTo (.rel8 k v)

theorem decodesTo_rel16 {k : Word → Instr} {w : Word} (h : IsOpcode [imm] (.rel16 k) := by exact fun _ => rfl) :
    DecodesTo [imm, hiByte w, loByte w] (k w) := h.decodesTo (.rel16 k w)

theorem decodesTo_pagedRel16 {b : Byte} {k : Word → Instr} {w : Word}
    (h : IsOpcode [b, imm] (.rel16 k) := by exact fun _ => rfl) :
    DecodesTo [b, imm, hiByte w, loByte w] (k w) := h.decodesTo (.rel16 k w)

theorem decodesTo_regList {k : RegList → Instr} {l : RegList} (h : IsOpcode [imm] (.regList k) := by exact fun _ => rfl) :
    DecodesTo [imm, l.toByte] (k l) := h.decodesTo (.regList k l)

theorem decodesTo_regPair {k : Reg → Reg → Instr} {r1 r2 : Reg} (hw : pairWellFormed r1 r2 = true)
    (h : IsOpcode [imm] (.regPair k) := by exact fun _ => rfl) :
    DecodesTo [imm, pairByte r1 r2] (k r1 r2) := h.decodesTo (.regPair k r1 r2 hw)

theorem decodesTo_indexed {k : Indexed → Instr} {m : Indexed} (h : IsOpcode [idx] (.indexed k) := by exact fun _ => rfl) :
    DecodesTo (idx :: encodeIndexed m) (k m) := h.decodesTo (.indexed k m)

theorem decodesTo_ea {k : Ea → Instr} {e : Ea}
    (hd : IsOpcode (page ++ [dir]) (.direct fun lo => k (.dir lo)) := by exact fun _ => rfl)
    (hi : IsOpcode (page ++ [idx]) (.indexed fun m => k (.idx m)) := by exact fun _ => rfl)
    (he : IsOpcode (page ++ [ext]) (.extended fun a => k (.ext a)) := by exact fun _ => rfl) :
    DecodesTo (encodeEa page dir idx ext e) (k e) := by
  cases e with
  | dir lo => exact hd.decodesTo_paged (.direct _ lo)
  | idx m => exact hi.decodesTo_paged (.indexed _ m)
  | ext a => exact he.decodesTo_paged (.extended _ a)

theorem decodesTo_src8 {k : Src8 → Instr} {o : Src8}
    (hv : IsOpcode [imm] (.imm8 fun v => k (.imm v)) := by exact fun _ => rfl)
    (hd : IsOpcode [dir] (.direct fun lo => k (.mem (.dir lo))) := by exact fun _ => rfl)
    (hi : IsOpcode [idx] (.indexed fun m => k (.mem (.idx m))) := by exact fun _ => rfl)
    (he : IsOpcode [ext] (.extended fun a => k (.mem (.ext a))) := by exact fun _ => rfl) :
    DecodesTo (encodeSrc8 imm dir idx ext o) (k o) := by
  cases o with
  | imm v => exact hv.decodesTo (.imm8 _ v)
  | mem e => exact decodesTo_ea (k := fun e => k (.mem e)) hd hi he

theorem decodesTo_src16 {k : Src16 → Instr} {o : Src16}
    (hv : IsOpcode (page ++ [imm]) (.imm16 fun v => k (.imm v)) := by exact fun _ => rfl)
    (hd : IsOpcode (page ++ [dir]) (.direct fun lo => k (.mem (.dir lo))) := by exact fun _ => rfl)
    (hi : IsOpcode (page ++ [idx]) (.indexed fun m => k (.mem (.idx m))) := by exact fun _ => rfl)
    (he : IsOpcode (page ++ [ext]) (.extended fun a => k (.mem (.ext a))) := by exact fun _ => rfl) :
    DecodesTo (encodeSrc16 page imm dir idx ext o) (k o) := by
  cases o with
  | imm v => exact hv.decodesTo_paged (.imm16 _ v)
  | mem e => exact decodesTo_ea (k := fun e => k (.mem e)) hd hi he

end

/-- Every instruction's encoding, by the way the encoder writes it. -/
theorem decodesTo_encode (i : Instr) (hw : i.wellFormed = true) : DecodesTo (encode i) i :=
  match i, hw with
  | .adca _, _ | .adcb _, _ | .adda _, _ | .addb _, _ | .anda _, _ | .andb _, _ | .bita _, _ | .bitb _, _
  | .cmpa _, _ | .cmpb _, _ | .eora _, _ | .eorb _, _ | .lda _, _ | .ldb _, _ | .ora _, _ | .orb _, _ | .sbca _, _
  | .sbcb _, _ | .suba _, _ | .subb _, _ => decodesTo_src8
  | .asl _, _ | .asr _, _ | .clr _, _ | .com _, _ | .dec _, _ | .inc _, _ | .lsr _, _ | .neg _, _ | .rol _, _
  | .ror _, _ | .sta _, _ | .stb _, _ | .tst _, _ | .std _, _ | .sts _, _ | .stu _, _ | .stx _, _ | .sty _, _
  | .jmp _, _ | .jsr _, _ => decodesTo_ea
  | .asla, _ | .aslb, _ | .asra, _ | .asrb, _ | .clra, _ | .clrb, _ | .coma, _ | .comb, _ | .daa, _ | .deca, _
  | .decb, _ | .inca, _ | .incb, _ | .lsra, _ | .lsrb, _ | .mul, _ | .nega, _ | .negb, _ | .rola, _ | .rolb, _
  | .rora, _ | .rorb, _ | .tsta, _ | .tstb, _ | .sex, _ | .abx, _ | .nop, _ | .rti, _ | .rts, _ | .swi, _ | .swi2, _
  | .swi3, _ | .sync, _ => decodesTo_inherent
  | .exg _ _, hw | .tfr _ _, hw => decodesTo_regPair hw
  | .addd _, _ | .cmpd _, _ | .ldd _, _ | .subd _, _ | .cmps _, _ | .cmpu _, _ | .cmpx _, _ | .cmpy _, _ | .lds _, _
  | .ldu _, _ | .ldx _, _ | .ldy _, _ => decodesTo_src16
  | .leas _, _ | .leau _, _ | .leax _, _ | .leay _, _ => decodesTo_indexed
  | .pshs _, _ | .pshu _, _ | .puls _, _ | .pulu _, _ => decodesTo_regList
  | .beq _, _ | .bne _, _ | .bmi _, _ | .bpl _, _ | .bcs _, _ | .bcc _, _ | .bvs _, _ | .bvc _, _ | .bgt _, _
  | .bge _, _ | .ble _, _ | .blt _, _ | .bhi _, _ | .bls _, _ | .bsr _, _ | .bra _, _ | .brn _, _ => decodesTo_rel8
  | .lbeq _, _ | .lbne _, _ | .lbmi _, _ | .lbpl _, _ | .lbcs _, _ | .lbcc _, _ | .lbvs _, _ | .lbvc _, _
  | .lbgt _, _ | .lbge _, _ | .lble _, _ | .lblt _, _ | .lbhi _, _ | .lbls _, _ | .lbrn _, _ => decodesTo_pagedRel16
  | .lbsr _, _ | .lbra _, _ => decodesTo_rel16
  | .andcc _, _ | .cwai _, _ | .orcc _, _ => decodesTo_imm8

/-- Settles O1, by the form of the encoder's line. -/
theorem decodeEncode : Obligations.DecodeEncode := fun i rest hw => decodesTo_encode i hw rest

end Sys2Proof
end

section
/-! What is illegal (30 R104, R110, R115, R116), and sample words. -/

namespace Sys2Proof

/-! ## Indexed postbytes -/

theorem oneMore_ne_illegal (k : Byte → Indexed) (more : List Byte) : oneMore k more ≠ .illegal := by
  cases more <;> rintro ⟨⟩

theorem twoMore_ne_illegal (k : Word → Indexed) (more : List Byte) : twoMore k more ≠ .illegal := by
  match more with
  | [] | [_] | _ :: _ :: _ => rintro ⟨⟩

/-- Whether a postbyte is legal does not depend on the bytes after it. -/
theorem decodeIndexed_illegal_iff_alone (pb : Byte) (more : List Byte) :
    decodeIndexed pb more = .illegal ↔ decodeIndexed pb [] = .illegal := by
  unfold decodeIndexed
  split
  · rfl
  · split
    case h_8 | h_11 => simp only [oneMore_ne_illegal]
    case h_9 | h_12 => simp only [twoMore_ne_illegal]
    case h_13 => split <;> simp only [twoMore_ne_illegal]
    all_goals rfl

/-- The postbytes of 30 R104, found by looking at all 256. -/
theorem decodeIndexed_alone_illegal_iff (pb : Byte) : decodeIndexed pb [] = .illegal ↔
    ((∃ base ∈ ([0x87, 0x8A, 0x8E, 0x8F, 0x90, 0x92, 0x97, 0x9A, 0x9E] : List Byte),
      ∃ rr ∈ ([0x00, 0x20, 0x40, 0x60] : List Byte), pb = base + rr) ∨ pb ∈ ([0xBF, 0xDF, 0xFF] : List Byte)) := by
  have h : ∀ pb : Byte, decodeIndexed pb [] = .illegal ↔
      ((([0x87, 0x8A, 0x8E, 0x8F, 0x90, 0x92, 0x97, 0x9A, 0x9E] : List Byte).any fun base =>
        ([0x00, 0x20, 0x40, 0x60] : List Byte).any fun rr => decide (pb = base + rr)) = true ∨
        pb ∈ ([0xBF, 0xDF, 0xFF] : List Byte)) := by
    decide
  simpa only [List.any_eq_true, decide_eq_true_eq] using h pb

theorem decodeOperand_indexed_illegal_iff (op : List Byte) (k : Indexed → Instr) (pb : Byte) (more : List Byte) :
    decodeOperand op (.indexed k) (pb :: more) = .illegal .indexedPostbyte (op ++ [pb]) ↔
      decodeIndexed pb more = .illegal := by
  simp only [decodeOperand]
  cases decodeIndexed pb more <;> simp

/-- Settles O4: legality is a property of the postbyte alone, and there are 256 of those. -/
theorem illegalIndexedPostbytes : Obligations.IllegalIndexedPostbytes := fun op k pb more =>
  (decodeOperand_indexed_illegal_iff op k pb more).trans
    ((decodeIndexed_illegal_iff_alone pb more).trans (decodeIndexed_alone_illegal_iff pb))

/-! ## Register pairs -/

theorem registerCodes (c : BitVec 4) : regOfCode c =
    match c.toNat with
    | 0 => some .d | 1 => some .x | 2 => some .y | 3 => some .u | 4 => some .s | 5 => some .pc
    | 8 => some .a | 9 => some .b | 10 => some .cc | 11 => some .dp
    | _ => none := rfl

/-- The two nibbles of a byte as numbers. -/
theorem nibbles (pb : Byte) : pb.extractLsb' 4 4 = BitVec.ofNat 4 (pb.toNat / 16) ∧
    pb.extractLsb' 0 4 = BitVec.ofNat 4 (pb.toNat % 16) := by
  revert pb
  decide

/-- Settles O5: the decoder reads the nibbles, the statement the quotient and the remainder by 16. -/
theorem registerPairPostbytes : Obligations.RegisterPairPostbytes := by
  refine ⟨registerCodes, fun opcode k pb more => ?_⟩
  obtain ⟨hhi, hlo⟩ := nibbles pb
  simp only [decodeOperand, pairOfByte, hhi, hlo]
  cases regOfCode (BitVec.ofNat 4 (pb.toNat / 16)) with
  | none => rfl
  | some r1 =>
    cases regOfCode (BitVec.ofNat 4 (pb.toNat % 16)) with
    | none => rfl
    | some r2 => by_cases hw : r1.wide = r2.wide <;> simp [pairWellFormed, hw]

/-! ## Opcodes -/

/-- An operand's illegality is never the opcode's. -/
theorem decodeOperand_illegal {op : List Byte} {f : Format} {rest bs : List Byte} {why : Illegal}
    (h : decodeOperand op f rest = .illegal why bs) :
    why = .indexedPostbyte ∨ why = .registerPair ∨ why = .truncated := by
  unfold decodeOperand at h
  split at h
  case h_9 => split at h <;> cases h; exact .inr (.inl rfl)
  case h_10 =>
    split at h <;> cases h
    · exact .inl rfl
    · exact .inr (.inr rfl)
  case h_11 => cases h; exact .inr (.inr rfl)
  all_goals cases h

/-- The reasons for which an opcode is illegal. -/
def Illegal.OfOpcode (why : Illegal) : Prop := why = .undefinedOpcode ∨ why = .undefinedPage2 ∨ why = .undefinedPage3

theorem decodeOperand_ne_illegal {op : List Byte} {f : Format} {rest bs : List Byte} {why : Illegal} (hw : why.OfOpcode) :
    decodeOperand op f rest ≠ .illegal why bs := by
  intro h
  rcases hw with rfl | rfl | rfl <;> simpa using decodeOperand_illegal h

/-- A cell is illegal as an opcode exactly if it is empty. -/
theorem decodeCell_illegal_iff {why why' : Illegal} (hw : why.OfOpcode) (op : List Byte) (cell : Option Format)
    (rest : List Byte) : decodeCell why' op cell rest = .illegal why op ↔ cell.isNone = true ∧ why' = why := by
  cases cell with
  | none => simp [decodeCell]
  | some f => simp [decodeCell, decodeOperand_ne_illegal hw]

theorem decodeCell_ne_undefinedOpcode {why : Illegal} (hw : why ≠ .undefinedOpcode) (op bs : List Byte)
    (cell : Option Format) (rest : List Byte) : decodeCell why op cell rest ≠ .illegal .undefinedOpcode bs := by
  cases cell with
  | none => simp [decodeCell, hw]
  | some f => exact decodeOperand_ne_illegal (.inl rfl)

theorem page1Format_isNone_iff : ∀ b : Byte, (b ≠ 0x10 ∧ b ≠ 0x11 ∧ (page1Format b).isNone = true) ↔
    b ∈ ([0x01, 0x02, 0x05, 0x0B, 0x14, 0x15, 0x18, 0x1B, 0x38, 0x3E, 0x41, 0x42, 0x45, 0x4B, 0x4E, 0x51, 0x52, 0x55,
      0x5B, 0x5E, 0x61, 0x62, 0x65, 0x6B, 0x71, 0x72, 0x75, 0x7B, 0x87, 0x8F, 0xC7, 0xCD, 0xCF] : List Byte) := by
  decide

theorem page2_isNone_iff : ∀ b : Byte, (cellOf b page2).isNone = true ↔
    b ∉ ([0x21, 0x22, 0x23, 0x24, 0x25, 0x26, 0x27, 0x28, 0x29, 0x2A, 0x2B, 0x2C, 0x2D, 0x2E, 0x2F, 0x3F, 0x83, 0x8C,
      0x8E, 0x93, 0x9C, 0x9E, 0x9F, 0xA3, 0xAC, 0xAE, 0xAF, 0xB3, 0xBC, 0xBE, 0xBF, 0xCE, 0xDE, 0xDF, 0xEE, 0xEF, 0xFE,
      0xFF] : List Byte) := by
  decide

theorem page3_isNone_iff : ∀ b : Byte, (cellOf b page3).isNone = true ↔
    b ∉ ([0x3F, 0x83, 0x8C, 0x93, 0x9C, 0xA3, 0xAC, 0xB3, 0xBC] : List Byte) := by
  decide

/-- A page 1 opcode is illegal exactly if it selects no page and its cell is empty. -/
theorem decode_undefinedOpcode_iff (b : Byte) (rest : List Byte) :
    decode (b :: rest) = .illegal .undefinedOpcode [b] ↔ b ≠ 0x10 ∧ b ≠ 0x11 ∧ (page1Format b).isNone = true := by
  by_cases h2 : b = 0x10
  · subst h2
    refine iff_of_false ?_ (fun h => h.1 rfl)
    match rest with
    | [] => rintro ⟨⟩
    | b1 :: more => exact decode_page2 b1 more ▸ decodeCell_ne_undefinedOpcode (by decide) _ _ _ _
  · by_cases h3 : b = 0x11
    · subst h3
      refine iff_of_false ?_ (fun h => h.2.1 rfl)
      match rest with
      | [] => rintro ⟨⟩
      | b1 :: more => exact decode_page3 b1 more ▸ decodeCell_ne_undefinedOpcode (by decide) _ _ _ _
    · rw [decode_page1 rest h2 h3, decodeCell_illegal_iff (.inl rfl), and_iff_left rfl]
      exact ⟨fun h => ⟨h2, h3, h⟩, fun h => h.2.2⟩

/-- Settles O3: an opcode is illegal exactly if its cell is empty, and the empty cells are counted out. -/
theorem illegalOpcodes : Obligations.IllegalOpcodes := by
  refine ⟨fun b rest => (decode_undefinedOpcode_iff b rest).trans (page1Format_isNone_iff b), fun b rest => ?_,
    fun b rest => ?_⟩
  · rw [decode_page2, decodeCell_illegal_iff (.inr (.inl rfl)), page2_isNone_iff]
    exact and_iff_left rfl
  · rw [decode_page3, decodeCell_illegal_iff (.inr (.inr rfl)), page3_isNone_iff]
    exact and_iff_left rfl

/-! ## Sample words -/

/-- Settles O6: each word is the encoding of its instruction. -/
theorem sampleWordsDecode : Obligations.SampleWordsDecode :=
  ⟨decodeEncode (.lda (.imm 0x12)) [] rfl, decodeEncode (.ldy (.imm 0x1234)) [] rfl, decodeEncode (.sta (.dir 0x40)) [] rfl,
   decodeEncode (.jmp (.ext 0xE005)) [] rfl, decodeEncode (.lda (.mem (.idx (.postInc1 .y)))) [] rfl,
   decodeEncode (.jmp (.idx (.extIndirect 0x2000))) [] rfl, decodeEncode (.beq 0xFE) [] rfl,
   decodeEncode (.lbrn 0x1234) [] rfl, decodeEncode (.tfr .a .b) [] rfl,
   decodeEncode (.pshs ⟨false, false, false, true, false, true, true, false⟩) [] rfl, decodeEncode (.cwai 0xEF) [] rfl,
   decodeEncode .swi3 [] rfl⟩

end Sys2Proof
end

section
/-! Which parts of the state an instruction may change. `Rights` says it for a piece of the machine, `Respects` that two states
differ by no more; both compose, so that the rights of a meaning are put together from those of the operations it is made of. From
the one statement about all instructions follow who writes what (10 R24 to R40, 20 R60) and what every step keeps. -/

namespace Sys2Proof.Machine

/-- What may be changed beyond A, B, X, Y, U, S, N, Z, V, C and the model's own `bus` and `draws`. -/
structure Rights where
  dp : Bool := false
  /-- I and F -/
  masks : Bool := false
  e : Bool := false
  h : Bool := false
  pc : Bool := false
  mem : Bool := false
  /-- the NMI is armed -/
  arms : Bool := false
  /-- the wait state afterwards -/
  wait : Wait → Wait := id

/-- `t` has come from `s` within the rights. Whatever they are, only RAM changes, memory stays canonical, and the latch of the
NMI, the platform and the inputs are kept. -/
structure Respects (r : Rights) (s t : State) : Prop where
  dp : r.dp = false → t.dp = s.dp
  masks : r.masks = false → t.cc.i = s.cc.i ∧ t.cc.f = s.cc.f
  e : r.e = false → t.cc.e = s.cc.e
  h : r.h = false → t.cc.h = s.cc.h
  pc : r.pc = false → t.pc = s.pc
  mem : r.mem = false → t.mem = s.mem
  nmiArmed : t.nmiArmed = (s.nmiArmed || r.arms)
  wait : t.wait = r.wait s.wait
  nmiPending : t.nmiPending = s.nmiPending
  platform : t.platform = s.platform
  inputs : t.inputs = s.inputs
  notRam : ∀ w : Word, s.kind w ≠ .ram → t.mem.read w.toNat = s.mem.read w.toNat
  wf : s.mem.wf = true → t.mem.wf = true

/-- The rights of one operation after another. -/
def Rights.andThen (p q : Rights) : Rights :=
  { dp := p.dp || q.dp, masks := p.masks || q.masks, e := p.e || q.e, h := p.h || q.h, pc := p.pc || q.pc,
    mem := p.mem || q.mem, arms := p.arms || q.arms, wait := q.wait ∘ p.wait }

theorem Respects.andThen {p q : Rights} {s t u : State} (h : Respects p s t) (h' : Respects q t u) :
    Respects (p.andThen q) s u where
  dp hr := by
    obtain ⟨hp, hq⟩ := Bool.or_eq_false_iff.mp hr
    exact (h'.dp hq).trans (h.dp hp)
  masks hr := by
    obtain ⟨hp, hq⟩ := Bool.or_eq_false_iff.mp hr
    exact ⟨(h'.masks hq).1.trans (h.masks hp).1, (h'.masks hq).2.trans (h.masks hp).2⟩
  e hr := by
    obtain ⟨hp, hq⟩ := Bool.or_eq_false_iff.mp hr
    exact (h'.e hq).trans (h.e hp)
  h hr := by
    obtain ⟨hp, hq⟩ := Bool.or_eq_false_iff.mp hr
    exact (h'.h hq).trans (h.h hp)
  pc hr := by
    obtain ⟨hp, hq⟩ := Bool.or_eq_false_iff.mp hr
    exact (h'.pc hq).trans (h.pc hp)
  mem hr := by
    obtain ⟨hp, hq⟩ := Bool.or_eq_false_iff.mp hr
    exact (h'.mem hq).trans (h.mem hp)
  nmiArmed := by rw [h'.nmiArmed, h.nmiArmed, Bool.or_assoc]; rfl
  wait := by rw [h'.wait, h.wait]; rfl
  nmiPending := h'.nmiPending.trans h.nmiPending
  platform := h'.platform.trans h.platform
  inputs := h'.inputs.trans h.inputs
  notRam w hw := (h'.notRam w ((State.kind_of_platform h.platform w).trans_ne hw)).trans (h.notRam w hw)
  wf hs := h'.wf (h.wf hs)

/-! ## Single operations -/

section

variable (s : State)

/-- An operation that leaves all of this alone needs no right. -/
theorem Respects.of_keeps {s t : State} (h : Keeps [.a, .b, .x, .y, .u, .s] s t) (hm : t.mem = s.mem) : Respects {} s t where
  dp _ := h .dp (by decide)
  masks _ := have hc : t.cc = s.cc := h .cc (by decide); ⟨by rw [hc], by rw [hc]⟩
  e _ := have hc : t.cc = s.cc := h .cc (by decide); by rw [hc]
  h _ := have hc : t.cc = s.cc := h .cc (by decide); by rw [hc]
  pc _ := h .pc (by decide)
  mem _ := hm
  nmiArmed := (h .nmiArmed (by decide)).trans (Bool.or_false _).symm
  wait := h .wait (by decide)
  nmiPending := h .nmiPending (by decide)
  platform := h .platform (by decide)
  inputs := h .inputs (by decide)
  notRam _ _ := by rw [hm]
  wf hs := by rw [hm]; exact hs

theorem respects_refl : Respects {} s s := .of_keeps (Keeps.refl _ s) rfl

theorem respects_ea (e : Ea) : Respects {} s (s.ea e).2 := by constructor <;> simp
theorem respects_eaIndexed (m : Indexed) : Respects {} s (s.eaIndexed m).2 := by constructor <;> simp
theorem respects_operand8 (o : Src8) : Respects {} s (s.operand8 o).2 := by constructor <;> simp
theorem respects_operand16 (o : Src16) : Respects {} s (s.operand16 o).2 := by constructor <;> simp
theorem respects_read8 (a : Word) : Respects {} s (s.read8 a).2 := by constructor <;> simp
theorem respects_setAcc (r : Acc) (v : Byte) : Respects {} s (s.setAcc r v) := by constructor <;> simp
theorem respects_setDraws (n : Nat) : Respects {} s (s.setDraws n) := by constructor <;> simp
theorem respects_setPc (w : Word) : Respects { pc := true } s (s.setPc w) := by constructor <;> simp
theorem respects_setWait (w : Wait) : Respects { wait := fun _ => w } s (s.setWait w) := by constructor <;> simp

/-- A write of S by a kind of NMI_ARM_SET, after an operation that does not arm. -/
theorem Respects.armNmi {r : Rights} {s t : State} (h : Respects r s t) (hr : r.arms = false) (k : SLoad) :
    Respects { r with arms := inArmSet k } s (t.armNmi k) where
  dp := h.dp
  masks := h.masks
  e := h.e
  h := h.h
  pc := h.pc
  mem := h.mem
  nmiArmed := by rw [State.armNmi, State.setNmiArmed_nmiArmed, h.nmiArmed, hr, Bool.or_false]
  wait := h.wait
  nmiPending := h.nmiPending
  platform := h.platform
  inputs := h.inputs
  notRam := h.notRam
  wf := h.wf

theorem respects_takeVector (v : Word) : Respects { pc := true } s (s.takeVector v) := by constructor <;> simp
theorem respects_setE (v : Bool) : Respects { e := true } s (s.setE v) := by constructor <;> simp [State.setE]
theorem respects_maskBoth : Respects { masks := true } s s.maskBoth := by constructor <;> simp [State.maskBoth]

theorem respects_write8 (a : Word) (v : Byte) : Respects { mem := true } s (s.write8 a v) := by
  constructor
  case notRam =>
    intro w hw
    rw [State.read_write8, if_neg]
    rintro ⟨rfl, h⟩
    exact hw h
  case wf => exact s.write8_wf a v
  all_goals simp

theorem respects_write16 (a v : Word) : Respects { mem := true } s (s.write16 a v) :=
  (respects_write8 s a _).andThen (respects_write8 _ _ _)

theorem respects_setSp (k : Stack) (w : Word) : Respects {} s (s.setSp k w) := by constructor <;> simp

theorem respects_pushBytes (k : Stack) (bs : List Byte) : Respects { mem := true } s (s.pushBytes k bs) := by
  induction bs generalizing s with
  | nil => constructor <;> simp
  | cons v bs ih => exact ((respects_setSp s k _).andThen (respects_write8 _ _ v)).andThen (ih _)

theorem respects_push16 (k : Stack) (v : Word) : Respects { mem := true } s (s.push16 k v) :=
  respects_pushBytes s k [loByte v, hiByte v]

theorem respects_pushList (k : Stack) (l : RegList) : Respects { mem := true } s (s.pushList k l) :=
  s.pushList_eq k l ▸ respects_pushBytes s k _

theorem respects_pushEntire : Respects { mem := true } s s.pushEntire :=
  s.pushEntire_eq ▸ respects_pushList s .hardware allRegisters

/-- The right to write a register of 30 R110. -/
def Rights.ofReg (r : Reg) : Rights :=
  { dp := decide (r = .dp), masks := decide (r = .cc), e := decide (r = .cc), h := decide (r = .cc), pc := decide (r = .pc) }

theorem respects_writeReg (r : Reg) (v : Word) : Respects (.ofReg r) s (s.writeReg r v) := by
  cases r <;> constructor <;> simp [Rights.ofReg, State.writeReg]

/-- The right to pull a register list. -/
def Rights.ofList (l : RegList) : Rights := { dp := l.dp, masks := l.cc, e := l.cc, h := l.cc, pc := l.pc }

/-- A pull writes no hidden state, and DP, CC and PC only where its list names them. -/
theorem not_mem_listFields (k : Stack) (l : RegList) :
    (l.dp = false → .dp ∉ listFields k l) ∧ (l.cc = false → .cc ∉ listFields k l) ∧
    (l.pc = false → .pc ∉ listFields k l) ∧
    ∀ f ∈ ([.nmiArmed, .nmiPending, .wait, .platform, .inputs] : List Field), f ∉ listFields k l := by
  cases k <;> simp +contextual [listFields, Stack.field, Stack.other]

theorem respects_pullList (k : Stack) (l : RegList) : Respects (.ofList l) s (s.pullList k l) := by
  have hk := s.pullList_keeps k l
  obtain ⟨hdp, hcc, hpc, hhidden⟩ := not_mem_listFields k l
  constructor
  case dp => exact fun h => hk .dp (hdp h)
  case pc => exact fun h => hk .pc (hpc h)
  case masks => exact fun h => have hc : (s.pullList k l).cc = s.cc := hk .cc (hcc h); by rw [hc]; exact ⟨rfl, rfl⟩
  case e | h => exact fun h => have hc : (s.pullList k l).cc = s.cc := hk .cc (hcc h); by rw [hc]
  case nmiArmed => exact (hk .nmiArmed (hhidden _ (by decide))).trans (Bool.or_false _).symm
  case nmiPending => exact hk .nmiPending (hhidden _ (by decide))
  case wait => exact hk .wait (hhidden _ (by decide))
  case platform => exact hk .platform (hhidden _ (by decide))
  case inputs => exact hk .inputs (hhidden _ (by decide))
  all_goals simp

/-! ## Writes of CC -/

/-- E, F and I are kept, and H where `h` does not allow its change. -/
def CC.KeepsControl (h : Bool) (cc cc' : CC) : Prop :=
  cc'.e = cc.e ∧ cc'.f = cc.f ∧ cc'.i = cc.i ∧ (h = false → cc'.h = cc.h)

theorem respects_setCC {h : Bool} {cc : CC} (hc : s.cc.KeepsControl h cc) : Respects { h := h } s (s.setCC cc) := by
  obtain ⟨he, hf, hi, hh⟩ := hc
  constructor
  case masks => exact fun _ => ⟨hi, hf⟩
  case e => exact fun _ => he
  case h => exact hh
  all_goals simp

theorem respects_setAcc_setCC (r : Acc) (v : Byte) {cc : CC} (hc : s.cc.KeepsControl false cc) :
    Respects {} s ((s.setAcc r v).setCC cc) :=
  (respects_setAcc s r v).andThen (respects_setCC _ (s.setAcc_cc r v ▸ hc))

theorem respects_setAcc_setCC_withH (r : Acc) (v : Byte) {cc : CC} (hc : s.cc.KeepsControl true cc) :
    Respects { h := true } s ((s.setAcc r v).setCC cc) :=
  (respects_setAcc s r v).andThen (respects_setCC _ (s.setAcc_cc r v ▸ hc))

/-- A write of CC as a whole. -/
theorem respects_setCC_whole (cc : CC) : Respects { masks := true, e := true, h := true } s (s.setCC cc) := by
  constructor <;> simp

/-! The flag functions write N, Z, V and C, and H where a right to it is asked for. -/

theorem keepsControl_add8 (a m : Byte) (cin : Bool) (cc : CC) : cc.KeepsControl true (add8 a m cin cc).2 :=
  ⟨rfl, rfl, rfl, nofun⟩
theorem keepsControl_sub8 (a m : Byte) (bin h : Bool) (cc : CC) : cc.KeepsControl true (sub8 a m bin h cc).2 :=
  ⟨rfl, rfl, rfl, nofun⟩
theorem keepsControl_logic8 (v : Byte) (cc : CC) : cc.KeepsControl false (logic8 v cc) := ⟨rfl, rfl, rfl, fun _ => rfl⟩
theorem keepsControl_logic16 (v : Word) (cc : CC) : cc.KeepsControl false (logic16 v cc) := ⟨rfl, rfl, rfl, fun _ => rfl⟩
theorem keepsControl_add16 (a m : Word) (cc : CC) : cc.KeepsControl false (add16 a m cc).2 :=
  ⟨rfl, rfl, rfl, fun _ => rfl⟩
theorem keepsControl_sub16 (a m : Word) (cc : CC) : cc.KeepsControl false (sub16 a m cc).2 :=
  ⟨rfl, rfl, rfl, fun _ => rfl⟩

theorem keepsControl_mul8 (a b : Byte) (cc : CC) : cc.KeepsControl false (mul8 a b cc).2 :=
  ⟨rfl, rfl, rfl, fun _ => rfl⟩
theorem keepsControl_sex16 (b : Byte) (cc : CC) : cc.KeepsControl false (sex16 b cc).2 :=
  ⟨rfl, rfl, rfl, fun _ => rfl⟩
theorem keepsControl_daa8 (a : Byte) (v : Bool) (cc : CC) : cc.KeepsControl false (daa8 a v cc).2 :=
  ⟨rfl, rfl, rfl, fun _ => rfl⟩
theorem keepsControl_z (z : Bool) (cc : CC) : cc.KeepsControl false { cc with z := z } := ⟨rfl, rfl, rfl, fun _ => rfl⟩

/-! ## Shapes of instructions -/

theorem respects_addAcc (r : Acc) (c : Bool) (o : Src8) : Respects { h := true } s (s.addAcc r c o) :=
  (respects_operand8 s o).andThen (respects_setAcc_setCC_withH _ r _ (keepsControl_add8 _ _ _ _))

theorem respects_subAcc (r : Acc) (c : Bool) (o : Src8) : Respects { h := true } s (s.subAcc r c o) :=
  ((respects_operand8 s o).andThen (respects_setDraws _ _)).andThen
    (respects_setAcc_setCC_withH _ r _ (keepsControl_sub8 _ _ _ _ _))

theorem respects_cmpAcc (r : Acc) (o : Src8) : Respects { h := true } s (s.cmpAcc r o) :=
  ((respects_operand8 s o).andThen (respects_setDraws _ _)).andThen (respects_setCC _ (keepsControl_sub8 _ _ _ _ _))

theorem respects_logicAcc (r : Acc) (f : Byte → Byte → Byte) (o : Src8) : Respects {} s (s.logicAcc r f o) :=
  (respects_operand8 s o).andThen (respects_setAcc_setCC _ r _ (keepsControl_logic8 _ _))

theorem respects_bitAcc (r : Acc) (o : Src8) : Respects {} s (s.bitAcc r o) :=
  (respects_operand8 s o).andThen (respects_setCC _ (keepsControl_logic8 _ _))

theorem respects_loadAcc (r : Acc) (o : Src8) : Respects {} s (s.loadAcc r o) :=
  (respects_operand8 s o).andThen (respects_setAcc_setCC _ r _ (keepsControl_logic8 _ _))

theorem respects_storeAcc (r : Acc) (e : Ea) : Respects { mem := true } s (s.storeAcc r e) :=
  ((respects_ea s e).andThen (respects_setCC _ (keepsControl_logic8 _ _))).andThen (respects_write8 _ _ _)

theorem respects_testAcc (r : Acc) : Respects {} s (s.testAcc r) := respects_setCC s (keepsControl_logic8 _ _)

theorem respects_testMem (e : Ea) : Respects {} s (s.testMem e) :=
  ((respects_ea s e).andThen (respects_read8 _ _)).andThen (respects_setCC _ (keepsControl_logic8 _ _))

/-- A single-operand function that writes no other flag than N, Z, V and C. -/
def KeepsControlFlags (f : Byte → CC → Byte × CC) : Prop :=
  ∀ (m : Byte) (cc : CC), cc.KeepsControl false (f m cc).2

/-- A single-operand function that writes no other flag than H, N, Z, V and C. -/
def KeepsMaskFlags (f : Byte → Bool → CC → Byte × CC) : Prop :=
  ∀ (m : Byte) (h : Bool) (cc : CC), cc.KeepsControl true (f m h cc).2

theorem keepsControl_lsr8 : KeepsControlFlags lsr8 := fun _ _ => ⟨rfl, rfl, rfl, fun _ => rfl⟩
theorem keepsControl_rol8 : KeepsControlFlags rol8 := fun _ _ => ⟨rfl, rfl, rfl, fun _ => rfl⟩
theorem keepsControl_ror8 : KeepsControlFlags ror8 := fun _ _ => ⟨rfl, rfl, rfl, fun _ => rfl⟩
theorem keepsControl_com8 : KeepsControlFlags com8 := fun _ _ => ⟨rfl, rfl, rfl, fun _ => rfl⟩
theorem keepsControl_inc8 : KeepsControlFlags inc8 := fun _ _ => ⟨rfl, rfl, rfl, fun _ => rfl⟩
theorem keepsControl_dec8 : KeepsControlFlags dec8 := fun _ _ => ⟨rfl, rfl, rfl, fun _ => rfl⟩
theorem keepsControl_clr8 : KeepsControlFlags clr8 := fun _ _ => ⟨rfl, rfl, rfl, fun _ => rfl⟩
theorem keepsControl_asl8 : KeepsMaskFlags asl8 := fun _ _ _ => ⟨rfl, rfl, rfl, nofun⟩
theorem keepsControl_asr8 : KeepsMaskFlags asr8 := fun _ _ _ => ⟨rfl, rfl, rfl, nofun⟩
theorem keepsControl_neg8 : KeepsMaskFlags neg8 := fun _ _ _ => ⟨rfl, rfl, rfl, nofun⟩

theorem respects_unaryAcc {f : Byte → CC → Byte × CC} (hf : KeepsControlFlags f) (r : Acc) :
    Respects {} s (s.unaryAcc r (definedFlags f)) :=
  (respects_setCC s (hf _ _)).andThen (respects_setAcc _ r _)

theorem respects_unaryAcc_withH {f : Byte → Bool → CC → Byte × CC} (hf : KeepsMaskFlags f) (r : Acc) :
    Respects { h := true } s (s.unaryAcc r (undefinedH f)) :=
  ((respects_setDraws s _).andThen (respects_setCC _ (hf _ _ _))).andThen (respects_setAcc _ r _)

theorem respects_unaryMem {f : Byte → CC → Byte × CC} (hf : KeepsControlFlags f) (e : Ea) :
    Respects { mem := true } s (s.unaryMem e (definedFlags f)) :=
  (((respects_ea s e).andThen (respects_read8 _ _)).andThen (respects_setCC _ (hf _ _))).andThen (respects_write8 _ _ _)

theorem respects_unaryMem_withH {f : Byte → Bool → CC → Byte × CC} (hf : KeepsMaskFlags f) (e : Ea) :
    Respects { h := true, mem := true } s (s.unaryMem e (undefinedH f)) :=
  ((((respects_ea s e).andThen (respects_read8 _ _)).andThen (respects_setDraws _ _)).andThen
    (respects_setCC _ (hf _ _ _))).andThen (respects_write8 _ _ _)

theorem respects_writeReg_setCC (r : Reg) (v : Word) {cc : CC} (hr : r ≠ .cc) (hc : s.cc.KeepsControl false cc) :
    Respects ((Rights.ofReg r).andThen {}) s ((s.writeReg r v).setCC cc) := by
  have h : (s.writeReg r v).cc = s.cc := by cases r <;> first | rfl | exact absurd rfl hr
  exact (respects_writeReg s r v).andThen (respects_setCC _ (h ▸ hc))

theorem respects_addD (o : Src16) : Respects {} s (s.addD o) :=
  (respects_operand16 s o).andThen (respects_writeReg_setCC _ .d _ (by decide) (keepsControl_add16 _ _ _))

theorem respects_subD (o : Src16) : Respects {} s (s.subD o) :=
  (respects_operand16 s o).andThen (respects_writeReg_setCC _ .d _ (by decide) (keepsControl_sub16 _ _ _))

theorem respects_compare16 (r : Reg) (o : Src16) : Respects {} s (s.compare16 r o) :=
  (respects_operand16 s o).andThen (respects_setCC _ (keepsControl_sub16 _ _ _))

theorem respects_load16 (r : Reg) (o : Src16) (hr : r ≠ .cc) :
    Respects ((Rights.ofReg r).andThen {}) s (s.load16 r o) :=
  (respects_operand16 s o).andThen (respects_writeReg_setCC _ r _ hr (keepsControl_logic16 _ _))

theorem respects_store16 (r : Reg) (e : Ea) : Respects { mem := true } s (s.store16 r e) :=
  ((respects_ea s e).andThen (respects_setCC _ (keepsControl_logic16 _ _))).andThen (respects_write16 _ _ _)

theorem respects_leaIndex (r : Reg) (m : Indexed) (hr : r ≠ .cc) :
    Respects ((Rights.ofReg r).andThen {}) s (s.leaIndex r m) :=
  (respects_eaIndexed s m).andThen (respects_writeReg_setCC _ r _ hr (keepsControl_z _ _))

theorem respects_leaStack (r : Reg) (m : Indexed) : Respects (.ofReg r) s (s.leaStack r m) :=
  (respects_eaIndexed s m).andThen (respects_writeReg _ r _)

theorem respects_branch (c : Bool) (off : Word) : Respects { pc := true } s (s.branch c off) := by
  cases c
  · exact (respects_refl s).andThen (q := { pc := true }) (by constructor <;> simp [State.branch])
  · exact respects_setPc s _

theorem respects_branchSub (off : Word) : Respects { pc := true, mem := true } s (s.branchSub off) :=
  (respects_push16 s .hardware s.pc).andThen (respects_setPc _ _)

theorem respects_exchange (r1 r2 : Reg) :
    Respects { (Rights.ofReg r1).andThen (.ofReg r2) with arms := (decide (r1 = .s) || decide (r2 = .s)) && inArmSet .exg }
      s (s.exchange r1 r2) := by
  have h := (respects_writeReg s r1 (s.readReg r2)).andThen (respects_writeReg _ r2 (s.readReg r1))
  have hd : (decide (r1 = .s) || decide (r2 = .s)) = decide (r1 = .s ∨ r2 = .s) := (Bool.decide_or _ _).symm
  rw [hd]
  unfold State.exchange
  split
  · next hs => rw [decide_eq_true hs]; exact h.armNmi rfl .exg
  · next hs => rw [decide_eq_false hs]; exact h

theorem respects_transfer (r1 r2 : Reg) :
    Respects { Rights.ofReg r2 with arms := decide (r2 = .s) && inArmSet .tfr } s (s.transfer r1 r2) := by
  have h := respects_writeReg s r2 (s.readReg r1)
  unfold State.transfer
  split
  · next hs => rw [decide_eq_true hs]; exact h.armNmi rfl .tfr
  · next hs => rw [decide_eq_false hs]; exact h

theorem respects_pull16 (k : Stack) : Respects {} s (s.pull16 k).2 := by constructor <;> simp

theorem respects_swiStack : Respects { e := true, mem := true } s s.swiStack :=
  (respects_setE s true).andThen (respects_pushEntire _)

/-- RTI may write everything that it pulls where the frame is the entire state. -/
theorem respects_returnFromInterrupt :
    Respects { dp := true, masks := true, e := true, h := true, pc := true } s s.returnFromInterrupt := by
  have h := respects_pullList s .hardware s.returnList
  rw [← s.returnFromInterrupt_eq] at h
  unfold State.returnList at h
  split at h
  · exact h
  · exact { h with dp := nofun }

theorem respects_pulu (l : RegList) :
    Respects { Rights.ofList l with arms := l.other && inArmSet .pulu } s
      ((s.pullList .user l).when l.other fun t => t.armNmi .pulu) := by
  have h := respects_pullList s .user l
  cases l.other
  · exact h
  · exact h.armNmi rfl .pulu

end

/-! ## Every instruction -/

/-- SWI, which masks both lines (60 R413). -/
def isSwi : Instr → Bool
  | .swi => true
  | _ => false

/-- The rights of an instruction (10 R24, R25, R32 to R35, R38, R40, 20 R60). -/
def rightsOf (i : Instr) : Rights :=
  { dp := writesDp i, masks := isSwi i || writesCC i, e := isSoftwareInterrupt i || writesCC i, h := writesH i || writesCC i,
    pc := writesPc i, mem := writesMemory i, arms := armsNmiGate i, wait := fun w => waitAfter w i }

/-- A result that goes on respects the instruction's rights; a fault is that of an ill-formed one, and nothing refuses. -/
def ResultRespects (i : Instr) (s : State) : Result → Prop
  | .next t => Respects (rightsOf i) s t
  | .fault _ => i.wellFormed = false
  | .refused _ => False

theorem respects_execExg (s : State) (r1 r2 : Reg) : ResultRespects (.exg r1 r2) s (execExg r1 r2 s) := by
  unfold execExg
  split
  · exact respects_exchange s r1 r2
  · next h => exact Bool.eq_false_of_not_eq_true h

theorem respects_execTfr (s : State) (r1 r2 : Reg) : ResultRespects (.tfr r1 r2) s (execTfr r1 r2 s) := by
  unfold execTfr
  split
  · exact respects_transfer s r1 r2
  · next h => exact Bool.eq_false_of_not_eq_true h

/-- Every instruction keeps to its rights, as the operations that its meaning is made of do. -/
theorem exec_respects (i : Instr) (s : State) : ResultRespects i s (exec i s) :=
  match i with
  | .adca _ | .adcb _ | .adda _ | .addb _ => respects_addAcc s _ _ _
  | .anda _ | .andb _ | .eora _ | .eorb _ | .ora _ | .orb _ => respects_logicAcc s _ _ _
  | .asl _ => respects_unaryMem_withH s keepsControl_asl8 _
  | .asla | .aslb => respects_unaryAcc_withH s keepsControl_asl8 _
  | .asr _ => respects_unaryMem_withH s keepsControl_asr8 _
  | .asra | .asrb => respects_unaryAcc_withH s keepsControl_asr8 _
  | .bita _ | .bitb _ => respects_bitAcc s _ _
  | .clr _ => respects_unaryMem s keepsControl_clr8 _
  | .clra | .clrb => respects_unaryAcc s keepsControl_clr8 _
  | .cmpa _ | .cmpb _ => respects_cmpAcc s _ _
  | .com _ => respects_unaryMem s keepsControl_com8 _
  | .coma | .comb => respects_unaryAcc s keepsControl_com8 _
  | .daa => (respects_setDraws s _).andThen (respects_setAcc_setCC _ .a _ (keepsControl_daa8 _ _ _))
  | .dec _ => respects_unaryMem s keepsControl_dec8 _
  | .deca | .decb => respects_unaryAcc s keepsControl_dec8 _
  | .exg r1 r2 => respects_execExg s r1 r2
  | .inc _ => respects_unaryMem s keepsControl_inc8 _
  | .inca | .incb => respects_unaryAcc s keepsControl_inc8 _
  | .lda _ | .ldb _ => respects_loadAcc s _ _
  | .lsr _ => respects_unaryMem s keepsControl_lsr8 _
  | .lsra | .lsrb => respects_unaryAcc s keepsControl_lsr8 _
  | .mul => respects_writeReg_setCC s .d _ (by decide) (keepsControl_mul8 _ _ _)
  | .neg _ => respects_unaryMem_withH s keepsControl_neg8 _
  | .nega | .negb => respects_unaryAcc_withH s keepsControl_neg8 _
  | .rol _ => respects_unaryMem s keepsControl_rol8 _
  | .rola | .rolb => respects_unaryAcc s keepsControl_rol8 _
  | .ror _ => respects_unaryMem s keepsControl_ror8 _
  | .rora | .rorb => respects_unaryAcc s keepsControl_ror8 _
  | .sbca _ | .sbcb _ | .suba _ | .subb _ => respects_subAcc s _ _ _
  | .sta _ | .stb _ => respects_storeAcc s _ _
  | .tst _ => respects_testMem s _
  | .tsta | .tstb => respects_testAcc s _
  | .tfr r1 r2 => respects_execTfr s r1 r2
  | .addd _ => respects_addD s _
  | .cmpd _ | .cmps _ | .cmpu _ | .cmpx _ | .cmpy _ => respects_compare16 s _ _
  | .ldd _ => respects_load16 s .d _ (by decide)
  | .sex => respects_setAcc_setCC s .a _ (keepsControl_sex16 _ _)
  | .std _ | .sts _ | .stu _ | .stx _ | .sty _ => respects_store16 s _ _
  | .subd _ => respects_subD s _
  | .leas _ => (respects_leaStack s .s _).armNmi rfl .leas
  | .leau _ => respects_leaStack s .u _
  | .leax _ => respects_leaIndex s .x _ (by decide)
  | .leay _ => respects_leaIndex s .y _ (by decide)
  | .lds _ => (respects_load16 s .s _ (by decide)).armNmi rfl .lds
  | .ldu _ => respects_load16 s .u _ (by decide)
  | .ldx _ => respects_load16 s .x _ (by decide)
  | .ldy _ => respects_load16 s .y _ (by decide)
  | .pshs _ | .pshu _ => respects_pushList s _ _
  | .puls _ => respects_pullList s _ _
  | .pulu _ => respects_pulu s _
  | .abx => respects_writeReg s .x _
  | .beq _ | .lbeq _ | .bne _ | .lbne _ | .bmi _ | .lbmi _ | .bpl _ | .lbpl _ | .bcs _ | .lbcs _ | .bcc _ | .lbcc _
  | .bvs _ | .lbvs _ | .bvc _ | .lbvc _ | .bgt _ | .lbgt _ | .bge _ | .lbge _ | .ble _ | .lble _ | .blt _ | .lblt _
  | .bhi _ | .lbhi _ | .bls _ | .lbls _ | .bra _ | .lbra _ => respects_branch s _ _
  | .bsr _ | .lbsr _ => respects_branchSub s _
  | .brn _ | .lbrn _ | .nop => respects_refl s
  | .andcc _ | .orcc _ => respects_setCC_whole s _
  | .cwai _ => (((respects_setCC_whole s _).andThen (respects_setE _ _)).andThen (respects_pushEntire _)).andThen
      (respects_setWait _ _)
  | .jmp _ => (respects_ea s _).andThen (respects_setPc _ _)
  | .jsr _ => ((respects_ea s _).andThen (respects_push16 _ _ _)).andThen (respects_setPc _ _)
  | .rti => respects_returnFromInterrupt s
  | .rts => (respects_pull16 s _).andThen (respects_setPc _ _)
  | .swi => ((respects_swiStack s).andThen (respects_maskBoth _)).andThen (respects_takeVector _ _)
  | .swi2 | .swi3 => (respects_swiStack s).andThen (respects_takeVector _ _)
  | .sync => respects_setWait s _

theorem respects_of_exec {i : Instr} {s t : State} (h : exec i s = .next t) : Respects (rightsOf i) s t := by
  have hr := exec_respects i s
  rwa [h] at hr

/-- A well-formed instruction goes on. -/
theorem exec_eq_next {i : Instr} (hw : i.wellFormed = true) (s : State) : ∃ t, exec i s = .next t := by
  have h := exec_respects i s
  cases he : exec i s with
  | next t => exact ⟨t, rfl⟩
  | fault f => rw [he, ResultRespects, hw] at h; cases h
  | refused r => rw [he] at h; exact h.elim

theorem isSwi_eq_false {i : Instr} (h : i ≠ .swi) : isSwi i = false := by
  unfold isSwi
  split
  · exact absurd rfl h
  · rfl

/-- Settles O58, from the rights. -/
theorem writersOfRegisters : Obligations.WritersOfRegisters := by
  intro i s t h
  have hr := respects_of_exec h
  exact ⟨hr.dp, fun hcc hi => hr.masks (Bool.or_eq_false_iff.mpr ⟨isSwi_eq_false hi, hcc⟩),
    fun hcc hi => hr.e (Bool.or_eq_false_iff.mpr ⟨hi, hcc⟩), fun hcc hh => hr.h (Bool.or_eq_false_iff.mpr ⟨hh, hcc⟩), hr.pc⟩

/-- Settles O59, from the rights. -/
theorem writersOfHiddenState : Obligations.WritersOfHiddenState := by
  intro i s t h
  have hr := respects_of_exec h
  exact ⟨hr.nmiArmed, hr.nmiPending, hr.wait, hr.platform, hr.inputs⟩

/-- Settles O60, from the rights. -/
theorem writersOfMemory : Obligations.WritersOfMemory := by
  intro i s t h
  have hr := respects_of_exec h
  exact ⟨hr.mem, hr.notRam⟩

end Sys2Proof.Machine
end

section
/-! Steps (60 R407): what a boundary comes to, the bytes that are fetched, the outcomes of a step and the invariant that every
step keeps. -/

namespace Sys2Proof.Machine

/-! ## The invariant -/

theorem waitAfter_eq_cwaiWaiting {i : Instr} (h : waitAfter .running i = .cwaiWaiting) : ∃ m, i = .cwai m := by
  cases i
  case cwai m => exact ⟨m, rfl⟩
  all_goals exact Wait.noConfusion h

theorem exec_cwai (m : Byte) (s : State) : exec (.cwai m) s =
    .next ((((s.setCC (s.cc.andByte m)).setE true).pushEntire).setWait .cwaiWaiting) := rfl

/-- CWAI sets E before it waits (45 R361). -/
theorem exec_cwai_e {m : Byte} {s t : State} (h : exec (.cwai m) s = .next t) : t.cc.e = true := by
  rw [exec_cwai] at h
  rw [← Host.Outcome.next.inj h]
  simp [State.setE]

/-- A processor that runs keeps the invariant where it keeps memory canonical and arms what it leaves pending. -/
theorem State.Inv.of_running {t : State} (hwf : t.mem.wf = true) (hp : t.nmiPending = true → t.nmiArmed = true)
    (hw : t.wait = .running) : t.Inv :=
  ⟨hwf, hp, fun h => by rw [hw] at h; cases h⟩

/-- An instruction keeps the invariant; only a processor that runs executes one. -/
theorem inv_of_exec {i : Instr} {s t : State} (hs : s.Inv) (hw : s.wait = .running) (h : exec i s = .next t) : t.Inv := by
  obtain ⟨hwf, hpending, -⟩ := hs
  have hr := respects_of_exec h
  refine ⟨hr.wf hwf, fun hp => ?_, fun hc => ?_⟩
  · rw [hr.nmiArmed, hpending (hr.nmiPending ▸ hp), Bool.true_or]
  · obtain ⟨m, rfl⟩ := waitAfter_eq_cwaiWaiting (i := i) (by rw [← hc, hr.wait, hw]; rfl)
    exact exec_cwai_e h

theorem addressesFrom_length (n : Nat) (a : Word) : (addressesFrom n a).length = n := by
  induction n generalizing a with
  | zero => rfl
  | succ n ih => rw [addressesFrom, List.length_cons, ih]

theorem addressesFrom_getElem (n : Nat) (a : Word) (j : Nat) (h : j < (addressesFrom n a).length) :
    (addressesFrom n a)[j] = a + BitVec.ofNat 16 j := by
  induction n generalizing a j with
  | zero => cases h
  | succ n ih =>
    cases j with
    | zero => exact (BitVec.add_zero a).symm
    | succ j => exact (ih (a + 1) j _).trans (succ_address a j)

variable (s : State)

theorem State.inv_fetchBytes (hs : s.Inv) (n : Nat) : (State.fetchBytes n s).2.Inv := by
  simpa [State.Inv] using hs

/-- A fetched instruction is executed, unless its bytes are none. -/
theorem State.runInstruction_eq_next {t : State} (h : s.runInstruction = .next t) :
    ∃ i n, s.decodeAtPc = .ok i n ∧ exec i (State.fetchBytes n s).2 = .next t := by
  unfold State.runInstruction at h
  split at h
  · next i n hd => exact ⟨i, n, hd, h⟩
  · cases h

theorem State.inv_runInstruction {t : State} (hs : s.Inv) (hw : s.wait = .running) (h : s.runInstruction = .next t) :
    t.Inv := by
  obtain ⟨i, n, -, he⟩ := s.runInstruction_eq_next h
  exact inv_of_exec (s.inv_fetchBytes hs n) ((s.fetchBytes_wait n).trans hw) he

/-- The examination latches an edge only while NMI is armed, and begins no wait. -/
theorem State.inv_examined (hs : s.Inv) : s.examined.Inv := by
  obtain ⟨hwf, hpending, hcwai⟩ := hs
  rw [State.examined_eq]
  refine ⟨hwf, fun h => ?_, fun h => hcwai (s.examinedWait_eq_cwaiWaiting_iff.mp h)⟩
  have hd : s.nmiPending = true ∨ s.nowInputs.nmiEdge = true ∧ s.nmiArmed = true := by
    simpa [State.nmiDue] using (show s.nmiDue = true from h)
  exact hd.elim hpending And.right

theorem State.resetSequence_inv (hwf : s.mem.wf = true) : s.resetSequence.Inv :=
  .of_running (by simpa [State.resetSequence] using hwf) (by simp [State.resetSequence]) (by simp [State.resetSequence])

theorem State.stack_wf (l : RegList) (e : Bool) (hwf : s.mem.wf = true) : (s.stack l e).mem.wf = true := by
  unfold State.stack
  split
  · exact hwf
  · exact State.pushList_wf _ _ _ hwf

theorem State.entryState_enter_inv {l : RegList} {e : Bool} {mask : CC → CC} {vector : Word} (hs : s.Inv) :
    (s.entryState.enter l e mask vector).Inv := by
  refine .of_running ?_ (fun h => ?_) (State.enter_wait _)
  · rw [State.enter_mem]
    exact s.entryState.stack_wf l e hs.1
  · rw [s.entryState_enter_nmiPending] at h
    cases h

/-- Settles O24, by the cases of a step. -/
theorem invariantKept : Obligations.InvariantKept := by
  intro s t hs h
  rcases step_cases s with ⟨-, hstep⟩ | ⟨hr, hn, -⟩ | ⟨hr, hn, hf, -⟩ | ⟨hr, hn, hf, hi, -⟩ | ⟨-, hw, hstep⟩ | ⟨-, -, hstep⟩
  case inl => cases hstep.symm.trans h; exact State.resetSequence_inv _ hs.1
  · cases (step_of_nmiDue s hr hn).symm.trans h; exact s.entryState_enter_inv hs
  · cases (step_of_firqDue s hr hn hf).symm.trans h; exact s.entryState_enter_inv hs
  · cases (step_of_irqDue s hr hn hf hi).symm.trans h; exact s.entryState_enter_inv hs
  · exact s.examined.inv_runInstruction (s.inv_examined hs) (s.examined_eq ▸ hw) (hstep.symm.trans h)
  · cases hstep.symm.trans h; exact s.inv_examined hs

/-- Settles O25. -/
theorem invariantAtReset : Obligations.InvariantAtReset :=
  .of_running State.reset_mem_wf (by decide) rfl

/-! ## Boundaries -/

theorem State.setNmiPending_self {s : State} {v : Bool} (h : s.nmiPending = v) : s.setNmiPending v = s := by
  subst h; rfl

theorem State.setWait_self {s : State} {w : Wait} (h : s.wait = w) : s.setWait w = s := by
  subst h; rfl

/-- Where no NMI is due the examination can only end a wait. -/
theorem State.examined_of_nmiDue_eq_false (hn : s.nmiDue = false) : s.examined = s.advanced.setWait s.examinedWait := by
  have hp : s.advanced.nmiPending = false := (Bool.or_eq_false_iff.mp hn).1
  rw [State.examined_eq, hn, State.setNmiPending_self hp]

theorem step_of_reset (hr : s.nowInputs.reset = true) :
    step s = .next (s.advanced.setNmiPending s.nmiDue).resetSequence := by
  simpa [hr, State.Uneventful] using step_cases s

theorem step_of_running (hu : s.Uneventful) (hw : s.examinedWait = .running) : step s = s.examined.runInstruction := by
  obtain ⟨hr, hn, hf, hi⟩ := hu
  have h : s.Uneventful ∧ step s = s.examined.runInstruction := by simpa [hr, hn, hf, hi, hw] using step_cases s
  exact h.2

theorem step_of_waiting (hu : s.Uneventful) (hw : s.examinedWait ≠ .running) : step s = .next s.examined := by
  obtain ⟨hr, hn, hf, hi⟩ := hu
  have h : s.Uneventful ∧ step s = .next s.examined := by simpa [hr, hn, hf, hi, hw] using step_cases s
  exact h.2

/-- Settles O11: the statement's wait is that of the examination. -/
theorem boundaryOrder : Obligations.BoundaryOrder := by
  intro s
  refine ⟨step_of_reset s, fun hr w hw => ?_⟩
  obtain rfl : w = s.examinedWait := hw
  have hx : ∀ b, s.nmiDue = b → s.examined = (s.advanced.setNmiPending b).setWait s.examinedWait := by
    rintro _ rfl
    exact s.examined_eq
  refine ⟨fun hn => ?nmi, fun hn hf => ?firq, fun hn hf hi => ?irq, fun hu hw => ?execute, fun hu hw => ?wait⟩
  case nmi => rw [← hx true hn]; simpa [hr, hn, State.Uneventful] using step_cases s
  case firq => rw [← hx false hn]; simpa [hr, hn, hf, State.Uneventful] using step_cases s
  case irq => rw [← hx false hn]; simpa [hr, hn, hf, hi, State.Uneventful] using step_cases s
  case execute => rw [← hx false hu.2.1]; exact step_of_running s hu hw
  case wait => rw [← hx false hu.2.1]; exact step_of_waiting s hu hw

/-- Settles O12: an edge only matters through the latch, which an unarmed gate closes; a latched one is serviced at once. -/
theorem nmiEdgeNeedsArming : Obligations.NmiEdgeNeedsArming := by
  refine ⟨fun s inp rest ha => ?_, fun s t ha he h => ?_⟩
  · simp only [step, State.cycle, State.boundary, State.latchNmi, State.nowInputs, List.headD_cons, State.setInputs_nmiArmed,
      ha, Bool.and_false]
    rfl
  · have hn : s.nmiDue = true := by rw [State.nmiDue, he, ha, Bool.and_self, Bool.or_true]
    cases hr : s.nowInputs.reset with
    | true => cases (step_of_reset s hr).symm.trans h; exact State.takeVector_nmiPending _ _
    | false => cases (step_of_nmiDue s hr hn).symm.trans h; exact s.entryState_enter_nmiPending

/-- Settles O13: what the examination makes of each wait. -/
theorem waitStates : Obligations.WaitStates := by
  intro s hu
  have hx := s.examined_of_nmiDue_eq_false hu.2.1
  refine ⟨fun hw hf hi => ?sync, fun hw => ?cwai, fun hw hin => ?ended⟩
  case sync =>
    have he : s.examinedWait = .syncing := by simp [State.examinedWait, hw, hu.2.1, hf, hi]
    rw [step_of_waiting s hu (by rw [he]; decide), hx, he, State.setWait_self (s := s.advanced) hw]
  case cwai =>
    have he : s.examinedWait = .cwaiWaiting := s.examinedWait_eq_cwaiWaiting_iff.mpr hw
    rw [step_of_waiting s hu (by rw [he]; decide), hx, he, State.setWait_self (s := s.advanced) hw]
  case ended =>
    have he : s.examinedWait = .running := by
      rcases hin with hf | hi <;> simp [State.examinedWait, *]
    rw [step_of_running s hu he, hx, he]

/-! ## Instructions -/

/-- Where nothing comes before the instruction, it runs in the state whose inputs have been consumed. -/
theorem step_of_undisturbed (hu : s.Undisturbed) : step s = s.advanced.runInstruction := by
  obtain ⟨hw, hu⟩ := hu
  have he : s.examinedWait = .running := by simp [State.examinedWait, hw]
  rw [step_of_running s hu he, s.examined_of_nmiDue_eq_false hu.2.1, he, State.setWait_self (s := s.advanced) hw]

theorem State.runInstruction_of_ok {i : Instr} {n : Nat} (h : s.decodeAtPc = .ok i n) :
    s.runInstruction = exec i (State.fetchBytes n s).2 := by
  rw [State.runInstruction, h]

theorem State.runInstruction_of_illegal {why : Illegal} {bytes : List Byte} (h : s.decodeAtPc = .illegal why bytes) :
    s.runInstruction = .fault (.illegalInstruction s.pc why bytes) := by
  rw [State.runInstruction, h]

theorem State.fetchBytes_keeps (n : Nat) : Keeps [.pc] s (State.fetchBytes n s).2 := by
  rw [s.fetchBytes_snd]
  intro f hf
  cases f
  case pc => exact absurd (List.mem_singleton_self _) hf
  all_goals rfl

/-- Settles O7: what the fetch leaves is the law of fetched bytes. -/
theorem stepRunsTheDecodedInstruction : Obligations.StepRunsTheDecodedInstruction := by
  intro s i n hu hd
  exact ⟨(step_of_undisturbed s hu).trans (s.advanced.runInstruction_of_ok hd), s.advanced.fetchBytes_pc n,
    s.advanced.fetchBytes_keeps n, s.advanced.fetchBytes_mem n⟩

/-- Settles O9. -/
theorem stepFaultsOnIllegalBytes : Obligations.StepFaultsOnIllegalBytes := by
  intro s why bytes hu hd
  exact (step_of_undisturbed s hu).trans (s.advanced.runInstruction_of_illegal hd)

/-- Bytes that stand in RAM or ROM from PC upward are those that a fetch returns. -/
theorem State.fetchBytes_of_holdsInstr {i : Instr} (h : s.HoldsInstr i) :
    State.fetchBytes (encode i).length s =
      (encode i, s.setPc (s.pc + BitVec.ofNat 16 (encode i).length)) := by
  rw [s.fetchBytes_of_isMemory _ fun j hj => (h j hj).1]
  refine Prod.ext (List.ext_getElem (by simp [addressesFrom_length]) fun j _ hj => ?_) rfl
  simp only [List.getElem_map, addressesFrom_getElem]
  exact (h j hj).2

/-- A well-formed instruction whose encoding stands at PC is decoded there, whatever stands behind it. -/
theorem State.decodeAtPc_of_holdsInstr {i : Instr} (hw : i.wellFormed = true) (h : s.HoldsInstr i) :
    s.decodeAtPc = .ok i (encode i).length := by
  have hlen : (encode i).length ≤ longest :=
    decode_length_le (by simpa using decodeEncode i [] hw)
  obtain ⟨k, hk⟩ := Nat.exists_eq_add_of_le hlen
  have htake := s.fetchBytes_take (encode i).length k
  rw [s.fetchBytes_of_holdsInstr h, ← hk] at htake
  rw [State.decodeAtPc, ← List.take_append_drop (encode i).length (State.fetchBytes longest s).1, htake]
  exact decodeEncode i _ hw

/-- Settles O8: the encoding is fetched, and it decodes to its instruction. -/
theorem stepRunsTheBytesInMemory : Obligations.StepRunsTheBytesInMemory := by
  intro s i hu hw h
  have hh : s.advanced.HoldsInstr i := h
  rw [step_of_undisturbed s hu, s.advanced.runInstruction_of_ok (s.advanced.decodeAtPc_of_holdsInstr hw hh),
    s.advanced.fetchBytes_of_holdsInstr hh]
  rfl

/-! ## Outcomes -/

/-- What a step may answer, seen from its start: it never refuses, and a fault is that of the bytes at PC. -/
def StepOutcome (s : State) : Result → Prop
  | .next t => t.platform = s.platform ∧ t.inputs = s.inputs.tail
  | .fault f => ∃ why bytes, f = .illegalInstruction s.pc why bytes
  | .refused _ => False

/-- Bytes that decode are a well-formed instruction, which goes on. -/
theorem State.runInstruction_outcome (x : State) (hp : x.platform = s.platform) (hi : x.inputs = s.inputs.tail)
    (hpc : x.pc = s.pc) : StepOutcome s x.runInstruction := by
  cases hd : x.decodeAtPc with
  | ok i n =>
    obtain ⟨t, ht⟩ := exec_eq_next (encodeDecode _ i n hd).1 (State.fetchBytes n x).2
    have hr := respects_of_exec ht
    rw [x.runInstruction_of_ok hd, ht]
    exact ⟨hr.platform.trans ((x.fetchBytes_platform n).trans hp), hr.inputs.trans ((x.fetchBytes_inputs n).trans hi)⟩
  | illegal why bytes =>
    rw [x.runInstruction_of_illegal hd]
    exact ⟨why, bytes, hpc ▸ rfl⟩

theorem step_outcome : StepOutcome s (step s) := by
  have hx := s.examined_eq
  have hentry : ∀ {l e mask vector}, StepOutcome s (.next (s.entryState.enter l e mask vector)) := fun {_ _ _ _} =>
    ⟨s.entryState_enter_keeps .platform (by decide), s.entryState_enter_keeps .inputs (by decide)⟩
  rcases step_cases s with ⟨-, hstep⟩ | ⟨hr, hn, -⟩ | ⟨hr, hn, hf, -⟩ | ⟨hr, hn, hf, hi, -⟩ | ⟨-, -, hstep⟩ | ⟨-, -, hstep⟩
  case inl => rw [hstep]; exact ⟨State.takeVector_platform _ _, State.takeVector_inputs _ _⟩
  · rw [step_of_nmiDue s hr hn]; exact hentry
  · rw [step_of_firqDue s hr hn hf]; exact hentry
  · rw [step_of_irqDue s hr hn hf hi]; exact hentry
  · rw [hstep]; exact s.runInstruction_outcome _ (hx ▸ rfl) (hx ▸ rfl) (hx ▸ rfl)
  · rw [hstep, hx]; exact ⟨rfl, rfl⟩

/-- Settles O10, from what a step may answer. -/
theorem stepOutcomes : Obligations.StepOutcomes := by
  intro s
  have h := step_outcome s
  refine ⟨fun r hs => ?refused, fun f hs => ?fault, fun t hs => ?next⟩
  case refused | fault | next => rw [hs] at h; exact h

/-! ## Reset -/

/-- Settles O14. -/
theorem resetSequence : Obligations.ResetSequence := by
  intro s hr
  exact ⟨_, step_of_reset s hr, State.takeVector_dp _ _, congrArg CC.i (State.takeVector_cc _ _),
    congrArg CC.f (State.takeVector_cc _ _), State.takeVector_nmiArmed _ _, State.takeVector_nmiPending _ _,
    State.takeVector_wait _ _, takesVector_takeVector _ _, State.takeVector_mem _ _⟩

/-- Settles O15, by evaluation. -/
theorem resetValues : Obligations.ResetValues := ⟨rfl, rfl, rfl, rfl, rfl, rfl, rfl⟩

/-! ## Accesses of the entries -/

/-- The examination changes nothing that an entry's accesses depend on. -/
theorem State.entryAccesses_examined_bus (l : RegList) (cc : CC) (v : Word) :
    (s.examined.entryAccesses l cc v).bus = (s.entryAccesses l cc v).bus := by
  have hx := s.examined_eq
  have hw : s.examined.wait = .cwaiWaiting ↔ s.wait = .cwaiWaiting := hx ▸ s.examinedWait_eq_cwaiWaiting_iff
  unfold State.entryAccesses
  by_cases h : s.wait = .cwaiWaiting
  · rw [if_pos h, if_pos (hw.mpr h)]
    exact State.read16_bus_congr v (hx ▸ rfl) (hx ▸ rfl)
  · rw [if_neg h, if_neg (hw.not.mpr h), hx]
    refine State.read16_bus_congr v ?_ (State.storeDown_bus_congr _ _ rfl rfl)
    simp only [State.storeFrame_platform]
    rfl

/-- Settles O34: each entry's accesses, told of the state before the examination. -/
theorem entryAccessesInOrder : Obligations.EntryAccessesInOrder := by
  intro s
  have hcc : s.examined.cc = s.cc := by rw [s.examined_eq]; rfl
  refine ⟨fun hr => ⟨_, step_of_reset s hr, ?reset⟩, fun hr hn => ⟨s.examined.nmiEntry, ?nmi, ?nmiBus⟩,
    fun hr hn hf => ⟨s.examined.firqEntry, ?firq, ?firqBus⟩, fun hr hn hf hi => ⟨s.examined.irqEntry, ?irq, ?irqBus⟩⟩
  case reset => exact State.takeVector_bus_congr _ rfl rfl
  case nmi => simpa [hr, hn, State.Uneventful] using step_cases s
  case firq => simpa [hr, hn, hf, State.Uneventful] using step_cases s
  case irq => simpa [hr, hn, hf, hi, State.Uneventful] using step_cases s
  case nmiBus => rw [State.nmiEntry_bus, hcc, s.entryAccesses_examined_bus]; rfl
  case firqBus => rw [State.firqEntry_bus, hcc, s.entryAccesses_examined_bus]; rfl
  case irqBus => rw [State.irqEntry_bus, hcc, s.entryAccesses_examined_bus]; rfl

end Sys2Proof.Machine
end

section
/-! The 8-bit data instructions (40, 41). Each statement is the law of the instruction's shape, with the model's flag function
replaced by what it computes in numbers. -/

namespace Sys2Proof.Machine

/-! ## Accumulator and operand -/

section

variable {i : Src8 → Instr} (r : Acc)

theorem setsAcc_of_addAcc (c : Bool) (hi : ∀ o s, exec (i o) s = .next (s.addAcc r c o)) :
    SetsAcc i r (fun s m => sum8 (s.acc r) m (c && s.cc.c).toNat)
      (fun s m cc => cc = s.cc.ofSum8 (s.acc r) m (c && s.cc.c).toNat) := by
  intro s o
  obtain ⟨hv, hcc, hk, hm⟩ := s.addAcc_spec r c o
  rw [add8_eq] at hv hcc
  exact ⟨_, hi o s, hv, hcc, hk, KeepsMemory.of_eq hm⟩

theorem setsAcc_of_subAcc (c : Bool) (hi : ∀ o s, exec (i o) s = .next (s.subAcc r c o)) :
    SetsAcc i r (fun s m => difference8 (s.acc r) m (c && s.cc.c).toNat)
      (fun s m cc => ∃ h, cc = s.cc.ofDifference8 (s.acc r) m (c && s.cc.c).toNat h) := by
  intro s o
  obtain ⟨hv, hcc, hk, hm⟩ := s.subAcc_spec r c o
  rw [sub8_eq] at hv hcc
  exact ⟨_, hi o s, hv, ⟨_, hcc⟩, hk, KeepsMemory.of_eq hm⟩

theorem setsFlags_of_cmpAcc (hi : ∀ o s, exec (i o) s = .next (s.cmpAcc r o)) :
    SetsFlags8 i (fun s m cc => ∃ h, cc = s.cc.ofDifference8 (s.acc r) m 0 h) := by
  intro s o
  obtain ⟨hcc, hk, hm⟩ := s.cmpAcc_spec r o
  rw [sub8_eq] at hcc
  exact ⟨_, hi o s, ⟨_, hcc⟩, hk, KeepsMemory.of_eq hm⟩

theorem setsAcc_of_logicAcc (f : Byte → Byte → Byte) (hi : ∀ o s, exec (i o) s = .next (s.logicAcc r f o)) :
    SetsAcc i r (fun s m => f (s.acc r) m) (fun s m cc => cc = s.cc.ofByteResult (f (s.acc r) m) false) := by
  intro s o
  obtain ⟨hv, hcc, hk, hm⟩ := s.logicAcc_spec r f o
  rw [logic8_eq_ofByteResult] at hcc
  exact ⟨_, hi o s, hv, hcc, hk, KeepsMemory.of_eq hm⟩

theorem setsFlags_of_bitAcc (hi : ∀ o s, exec (i o) s = .next (s.bitAcc r o)) :
    SetsFlags8 i (fun s m cc => cc = s.cc.ofByteResult (s.acc r &&& m) false) := by
  intro s o
  obtain ⟨hcc, hk, hm⟩ := s.bitAcc_spec r o
  rw [logic8_eq_ofByteResult] at hcc
  exact ⟨_, hi o s, hcc, hk, KeepsMemory.of_eq hm⟩

theorem setsAcc_of_loadAcc (hi : ∀ o s, exec (i o) s = .next (s.loadAcc r o)) :
    SetsAcc i r (fun _ m => m) (fun s m cc => cc = s.cc.ofByteResult m false) := by
  intro s o
  obtain ⟨hv, hcc, hk, hm⟩ := s.loadAcc_spec r o
  rw [logic8_eq_ofByteResult] at hcc
  exact ⟨_, hi o s, hv, hcc, hk, KeepsMemory.of_eq hm⟩

end

/-- Settles O36: ADD adds no carry, ADC the flag C. -/
theorem addInstructions : Obligations.AddInstructions :=
  ⟨setsAcc_of_addAcc .a false fun _ _ => rfl, setsAcc_of_addAcc .b false fun _ _ => rfl,
   setsAcc_of_addAcc .a true fun _ _ => rfl, setsAcc_of_addAcc .b true fun _ _ => rfl⟩

/-- Settles O37: SUB and CMP take no borrow, SBC the flag C. -/
theorem subtractInstructions : Obligations.SubtractInstructions :=
  ⟨setsAcc_of_subAcc .a false fun _ _ => rfl, setsAcc_of_subAcc .b false fun _ _ => rfl,
   setsAcc_of_subAcc .a true fun _ _ => rfl, setsAcc_of_subAcc .b true fun _ _ => rfl,
   setsFlags_of_cmpAcc .a fun _ _ => rfl, setsFlags_of_cmpAcc .b fun _ _ => rfl⟩

/-- Settles O38. -/
theorem logicInstructions : Obligations.LogicInstructions :=
  ⟨setsAcc_of_logicAcc .a (· &&& ·) fun _ _ => rfl, setsAcc_of_logicAcc .b (· &&& ·) fun _ _ => rfl,
   setsAcc_of_logicAcc .a (· ^^^ ·) fun _ _ => rfl, setsAcc_of_logicAcc .b (· ^^^ ·) fun _ _ => rfl,
   setsAcc_of_logicAcc .a (· ||| ·) fun _ _ => rfl, setsAcc_of_logicAcc .b (· ||| ·) fun _ _ => rfl,
   setsFlags_of_bitAcc .a fun _ _ => rfl, setsFlags_of_bitAcc .b fun _ _ => rfl⟩

theorem exec_tsta (s : State) : exec .tsta s = .next (s.testAcc .a) := rfl
theorem exec_tstb (s : State) : exec .tstb s = .next (s.testAcc .b) := rfl
theorem exec_tst (s : State) (e : Ea) : exec (.tst e) s = .next (s.testMem e) := rfl

theorem State.testAcc_eq (s : State) (r : Acc) :
    s.testAcc r = { s with cc := s.cc.ofByteResult (s.acc r) false } := by
  rw [State.testAcc, logic8_eq_ofByteResult]
  rfl

/-- Settles O39. -/
theorem loadAndTestByte : Obligations.LoadAndTestByte := by
  refine ⟨setsAcc_of_loadAcc .a fun _ _ => rfl, setsAcc_of_loadAcc .b fun _ _ => rfl, fun s => ?a, fun s => ?b,
    fun s e => ?mem⟩
  case a => rw [exec_tsta, s.testAcc_eq]; rfl
  case b => rw [exec_tstb, s.testAcc_eq]; rfl
  case mem =>
    obtain ⟨hcc, hk, hm⟩ := s.testMem_spec e
    rw [logic8_eq_ofByteResult] at hcc
    exact ⟨_, exec_tst s e, hcc, hk, KeepsMemory.of_eq hm⟩

/-- A store of an accumulator, with its flags in numbers. -/
theorem State.storeAcc_result (s : State) (r : Acc) (e : Ea) :
    (s.storeAcc r e).cc = s.cc.ofByteResult (s.acc r) false ∧ Stored s (s.storeAcc r e) (s.ea e).1 [s.acc r] ∧
    Keeps [.cc] (s.updated (eaUpdate e)) (s.storeAcc r e) := by
  rw [← logic8_eq_ofByteResult]
  exact s.storeAcc_spec r e

/-- Settles O40. -/
theorem storeByte : Obligations.StoreByte := fun s e =>
  ⟨⟨_, rfl, s.storeAcc_result .a e⟩, ⟨_, rfl, s.storeAcc_result .b e⟩⟩

/-! ## Single operand -/

/-- A function with every flag defined computes what the numbers say, whatever H would be. -/
def Computes (f : Byte → CC → Byte × CC) (g : Single) : Prop := ∀ m cc h, f m cc = g m cc h

/-- The same of a function that leaves H undefined. -/
def ComputesWithH (f : Byte → Bool → CC → Byte × CC) (g : Single) : Prop := ∀ m cc h, f m h cc = g m cc h

section

variable {g : Single}

theorem makesAcc_of_defined {f : Byte → CC → Byte × CC} {i : Instr} (r : Acc) (hf : Computes f g)
    (hi : ∀ s, exec i s = .next (s.unaryAcc r (definedFlags f))) : MakesAcc i r g := by
  intro s
  obtain ⟨hv, hcc, hk, hm⟩ := s.unaryAcc_defined r f
  rw [hf _ _ false] at hv hcc
  exact ⟨_, _, hi s, hv, hcc, hk, KeepsMemory.of_eq hm⟩

theorem makesAcc_of_undefinedH {f : Byte → Bool → CC → Byte × CC} {i : Instr} (r : Acc) (hf : ComputesWithH f g)
    (hi : ∀ s, exec i s = .next (s.unaryAcc r (undefinedH f))) : MakesAcc i r g := by
  intro s
  obtain ⟨hv, hcc, hk, hm⟩ := s.unaryAcc_undefinedH r f
  rw [hf] at hv hcc
  exact ⟨_, _, hi s, hv, hcc, hk, KeepsMemory.of_eq hm⟩

theorem makesMem_of_defined {f : Byte → CC → Byte × CC} {i : Ea → Instr} (hf : Computes f g)
    (hi : ∀ e s, exec (i e) s = .next (s.unaryMem e (definedFlags f))) : MakesMem i g := by
  intro s e
  obtain ⟨hcc, hst, hk⟩ := s.unaryMem_defined e f
  rw [hf _ _ false] at hcc hst
  exact ⟨_, _, hi e s, hcc, hst, hk⟩

theorem makesMem_of_undefinedH {f : Byte → Bool → CC → Byte × CC} {i : Ea → Instr} (hf : ComputesWithH f g)
    (hi : ∀ e s, exec (i e) s = .next (s.unaryMem e (undefinedH f))) : MakesMem i g := by
  intro s e
  obtain ⟨hcc, hst, hk⟩ := s.unaryMem_undefinedH e f
  rw [hf] at hcc hst
  exact ⟨_, _, hi e s, hcc, hst, hk⟩

end

/-! What the bits of an operand are in numbers, seen on all 256 bytes. -/

theorem bit7_eq : ∀ m : Byte, m.getLsbD 7 = decide (128 ≤ m.toNat) := by decide
theorem bit0_eq : ∀ m : Byte, m.getLsbD 0 = decide (m.toNat % 2 = 1) := by decide
theorem bit7_xor_bit6_eq : ∀ m : Byte, (m.getLsbD 7 ^^ m.getLsbD 6) = decide (2 * m.toInt < -128 ∨ 127 < 2 * m.toInt) := by
  decide
theorem asl_bits : ∀ m : Byte, m <<< 1 = BitVec.ofNat 8 (2 * m.toNat) := by decide
theorem asr_bits : ∀ m : Byte, BitVec.ofBool (m.getLsbD 7) ++ m.extractLsb' 1 7 = BitVec.ofInt 8 (m.toInt / 2) := by decide
theorem lsr_bits : ∀ m : Byte, 0#1 ++ m.extractLsb' 1 7 = BitVec.ofNat 8 (m.toNat / 2) := by decide
theorem rol_bits : ∀ (m : Byte) (c : Bool), m.extractLsb' 0 7 ++ BitVec.ofBool c = BitVec.ofNat 8 (2 * m.toNat + c.toNat) := by
  decide
theorem ror_bits : ∀ (m : Byte) (c : Bool),
    BitVec.ofBool c ++ m.extractLsb' 1 7 = BitVec.ofNat 8 (m.toNat / 2 + 128 * c.toNat) := by decide
theorem com_bits : ∀ m : Byte, ~~~m = BitVec.ofNat 8 (255 - m.toNat) := by decide
theorem inc_bits : ∀ m : Byte, m + 1 = BitVec.ofNat 8 (m.toNat + 1) := by decide
theorem dec_bits : ∀ m : Byte, m - 1 = BitVec.ofInt 8 ((m.toNat : Int) - 1) := by decide

/-! The single-operand functions. `resultFlags` turns N and Z of a result into numbers. -/

theorem resultFlags (cc : CC) (r : Byte) (v : Bool) :
    ({ cc with n := r.msb, z := r == 0, v := v } : CC) = cc.ofByteResult r v := by
  rw [CC.ofByteResult, byte_msb, byte_beq_zero]

theorem asl8_computes : ComputesWithH asl8 .asl := by
  intro m cc h
  rw [Single.asl, ← asl_bits, ← bit7_xor_bit6_eq, ← bit7_eq, ← resultFlags]
  rfl

theorem asr8_computes : ComputesWithH asr8 .asr := by
  intro m cc h
  rw [Single.asr, ← asr_bits, ← bit0_eq, ← resultFlags]
  rfl

theorem lsr8_computes : Computes lsr8 .lsr := by
  intro m cc h
  rw [Single.lsr, ← lsr_bits, ← bit0_eq, ← resultFlags]
  rfl

theorem rol8_computes : Computes rol8 .rol := by
  intro m cc h
  rw [Single.rol, ← rol_bits, ← bit7_xor_bit6_eq, ← bit7_eq, ← resultFlags]
  rfl

theorem ror8_computes : Computes ror8 .ror := by
  intro m cc h
  rw [Single.ror, ← ror_bits, ← bit0_eq, ← resultFlags]
  rfl

/-- NEG subtracts from 0 (41 R186), so its V and C are those of that difference. -/
theorem neg_flags : ∀ m : Byte,
    decide ((0 : Byte).toInt - m.toInt - (0 : Nat) < -128 ∨ 127 < (0 : Byte).toInt - m.toInt - (0 : Nat)) =
      decide (m.toNat = 128) ∧
    decide ((0 : Byte).toNat < m.toNat + 0) = decide (m.toNat ≠ 0) ∧
    difference8 0 m 0 = BitVec.ofInt 8 (-(m.toNat : Int)) := by
  decide

theorem neg8_computes : ComputesWithH neg8 .neg := by
  intro m cc h
  obtain ⟨hv, hc, hr⟩ := neg_flags m
  rw [neg8, sub8_eq, Single.neg, Bool.toNat_false, CC.ofDifference8, hv, hc, hr]

theorem com8_computes : Computes com8 .com := by
  intro m cc h
  rw [Single.com, ← com_bits, ← resultFlags]
  rfl

theorem clr8_computes : Computes clr8 .clr := fun _ _ _ => rfl

theorem inc_overflow : ∀ m : Byte, (m == 0x7F) = decide (m.toNat = 127) := by decide
theorem dec_overflow : ∀ m : Byte, (m == 0x80) = decide (m.toNat = 128) := by decide

theorem inc8_computes : Computes inc8 .inc := by
  intro m cc h
  rw [Single.inc, ← inc_bits, ← inc_overflow, ← resultFlags]
  rfl

theorem dec8_computes : Computes dec8 .dec := by
  intro m cc h
  rw [Single.dec, ← dec_bits, ← dec_overflow, ← resultFlags]
  rfl

/-- Settles O41. -/
theorem singleOperandAccumulator : Obligations.SingleOperandAccumulator :=
  ⟨makesAcc_of_undefinedH .a asl8_computes fun _ => rfl, makesAcc_of_undefinedH .b asl8_computes fun _ => rfl,
   makesAcc_of_undefinedH .a asr8_computes fun _ => rfl, makesAcc_of_undefinedH .b asr8_computes fun _ => rfl,
   makesAcc_of_defined .a lsr8_computes fun _ => rfl, makesAcc_of_defined .b lsr8_computes fun _ => rfl,
   makesAcc_of_defined .a rol8_computes fun _ => rfl, makesAcc_of_defined .b rol8_computes fun _ => rfl,
   makesAcc_of_defined .a ror8_computes fun _ => rfl, makesAcc_of_defined .b ror8_computes fun _ => rfl,
   makesAcc_of_undefinedH .a neg8_computes fun _ => rfl, makesAcc_of_undefinedH .b neg8_computes fun _ => rfl,
   makesAcc_of_defined .a com8_computes fun _ => rfl, makesAcc_of_defined .b com8_computes fun _ => rfl,
   makesAcc_of_defined .a clr8_computes fun _ => rfl, makesAcc_of_defined .b clr8_computes fun _ => rfl,
   makesAcc_of_defined .a inc8_computes fun _ => rfl, makesAcc_of_defined .b inc8_computes fun _ => rfl,
   makesAcc_of_defined .a dec8_computes fun _ => rfl, makesAcc_of_defined .b dec8_computes fun _ => rfl⟩

/-- Settles O42. -/
theorem singleOperandMemory : Obligations.SingleOperandMemory :=
  ⟨makesMem_of_undefinedH asl8_computes fun _ _ => rfl, makesMem_of_undefinedH asr8_computes fun _ _ => rfl,
   makesMem_of_defined lsr8_computes fun _ _ => rfl, makesMem_of_defined rol8_computes fun _ _ => rfl,
   makesMem_of_defined ror8_computes fun _ _ => rfl, makesMem_of_undefinedH neg8_computes fun _ _ => rfl,
   makesMem_of_defined com8_computes fun _ _ => rfl, makesMem_of_defined clr8_computes fun _ _ => rfl,
   makesMem_of_defined inc8_computes fun _ _ => rfl, makesMem_of_defined dec8_computes fun _ _ => rfl⟩

end Sys2Proof.Machine
end

section
/-! The instructions on words (42, 43), and those with an arithmetic of their own: MUL, SEX, ABX and DAA (40 to 43). -/

namespace Sys2Proof.Machine

variable (s : State)

/-! ## Frames of single writes -/

theorem keeps_armNmi (k : SLoad) : Keeps [.nmiArmed] s (s.armNmi k) := by
  intro f hf
  cases f
  case nmiArmed => exact absurd (List.mem_singleton_self _) hf
  all_goals rfl

/-- A register of 30 R110 is written without any other field. -/
theorem keeps_writeReg_fields (r : Reg) (v : Word) : Keeps (regFields r) s (s.writeReg r v) := by
  intro f hf
  by_cases hc : f = .cc
  · subst hc
    cases r
    case cc => exact absurd (List.mem_singleton_self _) hf
    all_goals rfl
  · have h := keeps_writeReg s r v (s.writeReg r v).cc f (by simp [hc, hf])
    cases f <;> exact h

theorem readReg_armNmi (k : SLoad) (r : Reg) : (s.armNmi k).readReg r = s.readReg r := by cases r <;> rfl

/-! ## 16-bit data -/

theorem compares16_of {i : Src16 → Instr} (r : Reg) (hi : ∀ o s, exec (i o) s = .next (s.compare16 r o)) :
    Compares16 i r := by
  intro s o
  obtain ⟨hcc, hk, hm⟩ := s.compare16_spec r o
  rw [sub16_eq] at hcc
  exact ⟨_, hi o s, hcc, hk, KeepsMemory.of_eq hm⟩

/-- Settles O47. -/
theorem wordArithmeticInstructions : Obligations.WordArithmeticInstructions := by
  refine ⟨fun s o => ⟨?addd, ?subd⟩, compares16_of .d fun _ _ => rfl, compares16_of .x fun _ _ => rfl,
    compares16_of .y fun _ _ => rfl, compares16_of .u fun _ _ => rfl, compares16_of .s fun _ _ => rfl⟩
  case addd =>
    obtain ⟨hd, hcc, hk, hm⟩ := s.addD_spec o
    rw [add16_eq] at hd hcc
    exact ⟨_, rfl, hd, hcc, hk, KeepsMemory.of_eq hm⟩
  case subd =>
    obtain ⟨hd, hcc, hk, hm⟩ := s.subD_spec o
    rw [sub16_eq] at hd hcc
    exact ⟨_, rfl, hd, hcc, hk, KeepsMemory.of_eq hm⟩

/-- What a 16-bit load does, with its flags in numbers. -/
theorem State.load16_result (r : Reg) (hr : r.wide = true) (o : Src16) :
    (s.load16 r o).readReg r = (s.operand16 o).1 ∧ (s.load16 r o).cc = s.cc.ofWordResult (s.operand16 o).1 false ∧
    (s.load16 r o).nmiArmed = s.nmiArmed ∧
    Keeps (.cc :: .nmiArmed :: regFields r) (s.updated (src16Update o)) (s.load16 r o) ∧
    KeepsMemory s (s.load16 r o) := by
  obtain ⟨hv, hcc, harmed, hk, hm⟩ := s.load16_spec r hr o
  rw [logic16_eq_ofWordResult] at hcc
  exact ⟨hv, hcc, harmed, hk.mono (by simp +contextual), KeepsMemory.of_eq hm⟩

theorem loads16_of {i : Src16 → Instr} (r : Reg) (hr : r.wide = true)
    (hi : ∀ o s, exec (i o) s = .next (s.load16 r o)) : Loads16 i r (fun s => s.nmiArmed) :=
  fun s o => ⟨_, hi o s, s.load16_result r hr o⟩

/-- LDS loads and always arms the NMI (60 R405). -/
theorem loads16_lds : Loads16 .lds .s (fun _ => true) := by
  intro s o
  obtain ⟨hv, hcc, -, hk, hm⟩ := s.load16_result .s rfl o
  exact ⟨(s.load16 .s o).armNmi .lds, rfl, (readReg_armNmi _ _ _).trans hv, hcc, Bool.or_true _,
    hk.trans ((keeps_armNmi _ _).mono (by simp)), hm⟩

/-- Settles O48. -/
theorem loadWord : Obligations.LoadWord :=
  ⟨loads16_of .d rfl fun _ _ => rfl, loads16_of .x rfl fun _ _ => rfl, loads16_of .y rfl fun _ _ => rfl,
   loads16_of .u rfl fun _ _ => rfl, loads16_lds⟩

theorem stores16_of {i : Ea → Instr} (r : Reg) (hi : ∀ e s, exec (i e) s = .next (s.store16 r e)) : Stores16 i r := by
  intro s e
  obtain ⟨hcc, hst, hk⟩ := s.store16_spec r e
  rw [logic16_eq_ofWordResult] at hcc
  exact ⟨_, hi e s, hcc, hst, hk⟩

/-- Settles O49. -/
theorem storeWord : Obligations.StoreWord :=
  ⟨stores16_of .d fun _ _ => rfl, stores16_of .x fun _ _ => rfl, stores16_of .y fun _ _ => rfl,
   stores16_of .u fun _ _ => rfl, stores16_of .s fun _ _ => rfl⟩

/-! ## LEA -/

/-- LEAX and LEAY: the address in the register, and Z from it. -/
theorem State.leaIndex_spec (r : Reg) (hr : r.wide = true) (m : Indexed) :
    (s.leaIndex r m).readReg r = (s.eaIndexed m).1 ∧
    (s.leaIndex r m).cc = { s.cc with z := decide ((s.eaIndexed m).1.toNat = 0) } ∧
    Keeps (.cc :: regFields r) (s.updated (indexedUpdate m)) (s.leaIndex r m) ∧ KeepsMemory s (s.leaIndex r m) := by
  refine ⟨?value, ?flags, (keeps_eaIndexed s m).weaken.trans (keeps_writeReg _ r _ _), KeepsMemory.of_eq ?memory⟩
  case value =>
    have h := (s.eaIndexed m).2.readReg_writeReg r (s.eaIndexed m).1
    rw [if_pos hr] at h
    cases r <;> first | exact h | exact absurd hr (by decide)
  case flags => rw [← word_beq_zero, State.leaIndex, State.setCC_cc, State.eaIndexed_cc]
  case memory => rw [State.leaIndex, State.setCC_mem, State.writeReg_mem, State.eaIndexed_mem]

/-- LEAU and LEAS: the address in the register, and no flag. -/
theorem State.leaStack_spec (r : Reg) (hr : r.wide = true) (m : Indexed) :
    (s.leaStack r m).readReg r = (s.eaIndexed m).1 ∧ (s.leaStack r m).nmiArmed = s.nmiArmed ∧
    Keeps (regFields r) (s.updated (indexedUpdate m)) (s.leaStack r m) ∧ KeepsMemory s (s.leaStack r m) := by
  refine ⟨?value, ?armed, (keeps_eaIndexed s m).weaken.trans (keeps_writeReg_fields _ r _), KeepsMemory.of_eq ?memory⟩
  case value => rw [State.leaStack, State.readReg_writeReg, if_pos hr]
  case armed => rw [State.leaStack, State.writeReg_nmiArmed, State.eaIndexed_nmiArmed]
  case memory => rw [State.leaStack, State.writeReg_mem, State.eaIndexed_mem]

/-- Settles O50. -/
theorem loadEffectiveAddress : Obligations.LoadEffectiveAddress := by
  refine fun s m => ⟨?leax, ?leay, ?leau, ?leas⟩
  case leax =>
    obtain ⟨hv, hcc, hk, hm⟩ := s.leaIndex_spec .x rfl m
    exact ⟨_, rfl, hv, hcc, hk.mono (by decide), hm⟩
  case leay =>
    obtain ⟨hv, hcc, hk, hm⟩ := s.leaIndex_spec .y rfl m
    exact ⟨_, rfl, hv, hcc, hk.mono (by decide), hm⟩
  case leau =>
    obtain ⟨hv, -, hk, hm⟩ := s.leaStack_spec .u rfl m
    exact ⟨_, rfl, hv, hk, hm⟩
  case leas =>
    obtain ⟨hv, ha, hk, hm⟩ := s.leaStack_spec .s rfl m
    exact ⟨(s.leaStack .s m).armNmi .leas, rfl, hv, congrArg (· || _) ha,
      (hk.mono (by decide)).trans ((keeps_armNmi _ _).mono (by decide)), hm⟩

/-! ## MUL, SEX, ABX -/

/-- The product of two bytes fits a word. -/
theorem product_toNat (a b : Byte) : (a.setWidth 16 * b.setWidth 16 : Word).toNat = a.toNat * b.toNat := by
  have ha : a.toNat < 256 := a.isLt
  have hb : b.toNat < 256 := b.isLt
  have hp : a.toNat * b.toNat ≤ 255 * 255 := Nat.mul_le_mul (by omega) (by omega)
  rw [BitVec.toNat_mul, BitVec.toNat_setWidth_of_le (by decide), BitVec.toNat_setWidth_of_le (by decide),
    Nat.mod_eq_of_lt (by omega)]

theorem mul8_eq (a b : Byte) (cc : CC) : mul8 a b cc = (a.setWidth 16 * b.setWidth 16,
    { cc with z := decide (a.toNat * b.toNat = 0), c := decide (a.toNat * b.toNat / 128 % 2 = 1) }) := by
  have hz := word_beq_zero (a.setWidth 16 * b.setWidth 16)
  have hc : (a.setWidth 16 * b.setWidth 16 : Word).getLsbD 7 = decide (a.toNat * b.toNat / 128 % 2 = 1) := by
    rw [BitVec.getLsbD, product_toNat, Nat.testBit_eq_decide_div_mod_eq]
  rw [product_toNat] at hz
  rw [mul8, hz, hc]

theorem joinBytes_sign : ∀ b : Byte, (joinBytes (if b.getLsbD 7 then 0xFF else 0x00) b).toInt = b.toInt := by decide

/-- The sign extension of a byte has its sign, and is 0 where the byte is. -/
theorem sex16_eq (b : Byte) (cc : CC) : sex16 b cc = (joinBytes (if b.getLsbD 7 then 0xFF else 0x00) b,
    { cc with n := decide (128 ≤ b.toNat), z := decide (b.toNat = 0) }) := by
  have hflags : ∀ b : Byte, (joinBytes (if b.getLsbD 7 then 0xFF else 0x00) b).msb = decide (128 ≤ b.toNat) ∧
      (joinBytes (if b.getLsbD 7 then 0xFF else 0x00) b == 0) = decide (b.toNat = 0) := by decide
  rw [sex16, (hflags b).1, (hflags b).2]

theorem exec_mul : exec .mul s = .next ((s.setD (mul8 s.a s.b s.cc).1).setCC (mul8 s.a s.b s.cc).2) := rfl
theorem exec_sex : exec .sex s = .next ((s.setA (hiByte (sex16 s.b s.cc).1)).setCC (sex16 s.b s.cc).2) := rfl
theorem exec_abx : exec .abx s = .next (s.setX (s.x + zext8 s.b)) := rfl

/-- Settles O45. -/
theorem multiplyExtendAbx : Obligations.MultiplyExtendAbx := by
  refine fun s => ⟨⟨_, exec_mul s, ?product, ?mulFlags, ?mulKeeps, fun _ => rfl⟩,
    ⟨_, exec_sex s, ?extension, ?sexFlags, keeps_setAcc s .a _ _, fun _ => rfl⟩,
    ⟨_, exec_abx s, ?sum, keeps_writeReg_fields s .x _, fun _ => rfl⟩⟩
  case product =>
    rw [mul8_eq, ← product_toNat]
    exact congrArg BitVec.toNat (joinBytes_hi_lo _)
  case mulFlags => rw [mul8_eq]; rfl
  case mulKeeps => exact (keeps_writeReg s .d _ _).mono (by decide)
  case extension =>
    rw [sex16_eq, hiByte_joinBytes]
    exact joinBytes_sign s.b
  case sexFlags => rw [sex16_eq]; rfl
  case sum =>
    show (s.x + zext8 s.b).toNat = _
    rw [BitVec.toNat_add, zext8, BitVec.toNat_setWidth_of_le (by decide)]

/-! ## DAA -/

theorem low_digit (a : Byte) : (a.extractLsb' 0 4).toNat = a.toNat % 16 := by
  rw [BitVec.extractLsb'_toNat, Nat.shiftRight_zero]

theorem high_digit (a : Byte) : (a.extractLsb' 4 4).toNat = a.toNat / 16 := by
  have ha : a.toNat < 256 := a.isLt
  rw [BitVec.extractLsb'_toNat, Nat.shiftRight_eq_div_pow]
  omega

/-- What DAA adds for the low digit (40 R167). -/
def lowCorrection (a : Byte) (cc : CC) : Nat := if a.toNat % 16 > 9 ∨ cc.h = true then 6 else 0

/-- What DAA adds for the high digit. -/
def highCorrection (a : Byte) (cc : CC) : Nat :=
  if a.toNat / 16 > 9 ∨ cc.c = true ∨ (a.toNat / 16 > 8 ∧ a.toNat % 16 > 9) then 96 else 0

/-- The correction as the model forms it, bit by bit. -/
def correction (a : Byte) (cc : CC) : Byte :=
  (if (a.extractLsb' 0 4).toNat > 9 || cc.h then 0x06 else 0x00) |||
    if (a.extractLsb' 4 4).toNat > 9 || cc.c || ((a.extractLsb' 4 4).toNat > 8 && (a.extractLsb' 0 4).toNat > 9) then 0x60
    else 0x00

theorem correction_toNat (a : Byte) (cc : CC) : (correction a cc).toNat = lowCorrection a cc + highCorrection a cc := by
  simp only [correction, lowCorrection, highCorrection, low_digit, high_digit, Bool.or_eq_true, Bool.and_eq_true,
    decide_eq_true_eq, or_assoc]
  split <;> split <;> rfl

/-- DAA adds the correction as a carryless sum of nine bits. -/
theorem daa8_eq (a : Byte) (v : Bool) (cc : CC) : daa8 a v cc = (sum8 a (correction a cc) 0,
    { cc.ofByteResult (sum8 a (correction a cc) 0) v with
      c := cc.c || decide (256 ≤ a.toNat + lowCorrection a cc + highCorrection a cc) }) := by
  have hr := sum9_setWidth a (correction a cc) false
  have hc := sum9_getLsbD_eight a (correction a cc) false
  rw [correction_toNat, Bool.toNat_false, Nat.add_zero, ← Nat.add_assoc] at hc
  rw [Bool.toNat_false] at hr
  have hs : sum9 a (correction a cc) false = a.setWidth 9 + (correction a cc).setWidth 9 := BitVec.add_zero _
  rw [hs] at hr hc
  rw [← resultFlags, ← hr, ← hc]
  rfl

theorem exec_daa : exec .daa s = .next (((s.setDraws (s.draws + 1)).setA (daa8 s.a (Config.undefBit s.draws) s.cc).1).setCC
    (daa8 s.a (Config.undefBit s.draws) s.cc).2) := rfl

/-- Settles O43. -/
theorem decimalAdjust : Obligations.DecimalAdjust := by
  rintro s low high rfl rfl
  refine ⟨Config.undefBit s.draws, _, exec_daa s, ?value, ?flags,
    (keeps_setDraws s _).weaken.trans (keeps_setAcc _ .a _ _), fun _ => rfl⟩
  case value =>
    show (daa8 s.a (Config.undefBit s.draws) s.cc).1.toNat = _
    rw [daa8_eq, sum8_toNat, correction_toNat, Nat.add_zero, ← Nat.add_assoc]
    rfl
  case flags =>
    show (daa8 s.a (Config.undefBit s.draws) s.cc).2 = _
    rw [daa8_eq]
    rfl

/-- The arithmetic of decimal addition (40 R144): the binary sum of two packed numbers, corrected, is their packed sum. The
low digits add to `d`, the high ones to `h`; each sum from 10 on is corrected by the 6 values a digit leaves out. -/
theorem corrected_digits {d h r low high u : Nat} (hd : d ≤ 19) (hh : h ≤ 18) (hr : r = (16 * h + d) % 256)
    (hlow : low = if r % 16 > 9 ∨ 16 ≤ d then 6 else 0)
    (hhigh : high = if r / 16 > 9 ∨ 256 ≤ 16 * h + d ∨ (r / 16 > 8 ∧ r % 16 > 9) then 96 else 0)
    (hu : u = (r + low + high) % 256) :
    (u / 16 ≤ 9 ∧ u % 16 ≤ 9) ∧ u / 16 * 10 + u % 16 = (10 * h + d) % 100 ∧
    ((256 ≤ 16 * h + d ∨ 256 ≤ r + low + high) ↔ 100 ≤ 10 * h + d) := by
  have hlow' : low = if 10 ≤ d then 6 else 0 := by
    rw [hlow]
    split <;> split <;> omega
  have hhigh' : high = if 100 ≤ 10 * h + d then 96 else 0 := by
    rw [hhigh]
    split <;> split <;> omega
  have hdigits : ∃ t e, t ≤ 9 ∧ e ≤ 9 ∧ u = 16 * t + e ∧
      (10 * h + d = 10 * t + e + 100 ∨ 10 * h + d = 10 * t + e) := by
    split at hlow' <;> split at hhigh'
    · exact ⟨h - 9, d - 10, by omega, by omega, by omega, by omega⟩
    · exact ⟨h + 1, d - 10, by omega, by omega, by omega, by omega⟩
    · exact ⟨h - 10, d, by omega, by omega, by omega, by omega⟩
    · exact ⟨h, d, by omega, by omega, by omega, by omega⟩
  have hcarry : (256 ≤ 16 * h + d ∨ 256 ≤ r + low + high) ↔ 100 ≤ 10 * h + d := by
    split at hlow' <;> split at hhigh' <;> omega
  obtain ⟨t, e, ht, he, rfl, hte⟩ := hdigits
  exact ⟨by omega, by omega, hcarry⟩

theorem corrected_sum {x y cin r low high u : Nat} (hx : x / 16 ≤ 9 ∧ x % 16 ≤ 9) (hy : y / 16 ≤ 9 ∧ y % 16 ≤ 9)
    (hc : cin ≤ 1) (hr : r = (x + y + cin) % 256)
    (hlow : low = if r % 16 > 9 ∨ 16 ≤ x % 16 + y % 16 + cin then 6 else 0)
    (hhigh : high = if r / 16 > 9 ∨ 256 ≤ x + y + cin ∨ (r / 16 > 8 ∧ r % 16 > 9) then 96 else 0)
    (hu : u = (r + low + high) % 256) :
    (u / 16 ≤ 9 ∧ u % 16 ≤ 9) ∧
    u / 16 * 10 + u % 16 = (x / 16 * 10 + x % 16 + (y / 16 * 10 + y % 16) + cin) % 100 ∧
    ((256 ≤ x + y + cin ∨ 256 ≤ r + low + high) ↔ 100 ≤ x / 16 * 10 + x % 16 + (y / 16 * 10 + y % 16) + cin) := by
  have hbin : x + y + cin = 16 * (x / 16 + y / 16) + (x % 16 + y % 16 + cin) := by omega
  have hdec : x / 16 * 10 + x % 16 + (y / 16 * 10 + y % 16) + cin =
      10 * (x / 16 + y / 16) + (x % 16 + y % 16 + cin) := by omega
  rw [hbin] at hr hhigh ⊢
  rw [hdec]
  exact corrected_digits (by omega) (by omega) hr hlow hhigh hu

/-- DAA after an addition of packed decimal numbers. -/
theorem daa_of_sum (t : State) (a m : Byte) (cin : Nat) (cc : CC) (ha : isPackedDecimal a) (hm : isPackedDecimal m)
    (hc : cin ≤ 1) (hta : t.a = sum8 a m cin) (htc : t.cc = cc.ofSum8 a m cin) :
    ∃ u, exec .daa t = .next u ∧ isPackedDecimal u.a ∧ packedValue u.a = (packedValue a + packedValue m + cin) % 100 ∧
      u.cc.c = decide (100 ≤ packedValue a + packedValue m + cin) := by
  obtain ⟨v, u, hu, hua, hucc, -⟩ := decimalAdjust t _ _ rfl rfl
  have hth : t.cc.h = decide (16 ≤ a.toNat % 16 + m.toNat % 16 + cin) := by rw [htc]; rfl
  have htcc : t.cc.c = decide (256 ≤ a.toNat + m.toNat + cin) := by rw [htc]; rfl
  have hucc : u.cc.c = _ := congrArg CC.c hucc
  simp only [hth, htcc, hta, decide_eq_true_eq] at hua hucc
  obtain ⟨hdigits, hvalue, hcarry⟩ := corrected_sum ha hm hc (sum8_toNat a m cin) rfl rfl hua
  refine ⟨u, hu, hdigits, hvalue, ?_⟩
  rw [hucc, ← Bool.decide_or, decide_eq_decide]
  exact hcarry

/-- ADDA or ADCA of packed decimal numbers, then DAA. -/
theorem daa_of_addAcc (c : Bool) (o : Src8) (ha : isPackedDecimal s.a) (hm : isPackedDecimal (s.operand8 o).1) :
    ∃ u, exec .daa (s.addAcc .a c o) = .next u ∧ isPackedDecimal u.a ∧
      packedValue u.a = (packedValue s.a + packedValue (s.operand8 o).1 + (c && s.cc.c).toNat) % 100 ∧
      u.cc.c = decide (100 ≤ packedValue s.a + packedValue (s.operand8 o).1 + (c && s.cc.c).toNat) := by
  obtain ⟨hv, hcc, -⟩ := s.addAcc_spec .a c o
  rw [add8_eq] at hv hcc
  exact daa_of_sum _ s.a _ _ s.cc ha hm (Bool.toNat_le _) hv hcc

/-- Settles O44. -/
theorem decimalAddition : Obligations.DecimalAddition := by
  rintro s o m rfl ha hm
  obtain ⟨u, hu⟩ := daa_of_addAcc s false o ha hm
  obtain ⟨w, hw⟩ := daa_of_addAcc s true o ha hm
  exact ⟨⟨_, u, rfl, hu⟩, ⟨_, w, rfl, hw⟩⟩

end Sys2Proof.Machine
end

section
/-! Registers, addresses and transfers of control: EXG and TFR (40, 41), effective addresses and operands (30), the branches, calls
and jumps (44, 45), and the instructions on CC alone. -/

namespace Sys2Proof.Machine

variable (s : State)

/-! ## CC, NOP and SYNC -/

/-- CC as a byte is written bit by bit, so a bit operation on the flags is the one on the byte. -/
theorem CC.andByte_eq (cc : CC) (m : Byte) : cc.andByte m = CC.ofByte (cc.toByte &&& m) := by
  obtain ⟨e, f, h, i, n, z, v, c⟩ := cc
  simp only [CC.andByte, CC.ofByte, BitVec.getLsbD_and]
  congr 1 <;> congr 1 <;> revert e f h i n z v c <;> decide

theorem CC.orByte_eq (cc : CC) (m : Byte) : cc.orByte m = CC.ofByte (cc.toByte ||| m) := by
  obtain ⟨e, f, h, i, n, z, v, c⟩ := cc
  simp only [CC.orByte, CC.ofByte, BitVec.getLsbD_or]
  congr 1 <;> congr 1 <;> revert e f h i n z v c <;> decide

theorem exec_andcc (m : Byte) : exec (.andcc m) s = .next (s.setCC (s.cc.andByte m)) := rfl
theorem exec_orcc (m : Byte) : exec (.orcc m) s = .next (s.setCC (s.cc.orByte m)) := rfl

/-- Settles O57. -/
theorem conditionCodeNopSync : Obligations.ConditionCodeNopSync := by
  refine fun s => ⟨fun m => ⟨_, exec_andcc s m, ?and, keeps_setCC s _, fun _ => rfl⟩,
    fun m => ⟨_, exec_orcc s m, ?or, keeps_setCC s _, fun _ => rfl⟩, rfl, rfl⟩
  case and => rw [State.setCC_cc, CC.andByte_eq, CC.toByte_ofByte]
  case or => rw [State.setCC_cc, CC.orByte_eq, CC.toByte_ofByte]

/-! ## EXG and TFR -/

theorem loByte_zext8 : ∀ b : Byte, loByte (zext8 b) = b := by decide

/-- A register takes the value of another of its width whole. -/
theorem readReg_writeReg_readReg {r1 r2 : Reg} (hw : r1.wide = r2.wide) (t : State) :
    (t.writeReg r2 (s.readReg r1)).readReg r2 = s.readReg r1 := by
  rw [State.readReg_writeReg]
  split
  next => rfl
  next hn =>
    rw [← hw] at hn
    cases r1 <;> first | exact absurd rfl hn | exact congrArg zext8 (loByte_zext8 _)

/-- Two registers of one width do not overlap: D is the only one made of others, and those are bytes. -/
theorem readReg_writeReg_ne {r1 r2 : Reg} (hw : r1.wide = r2.wide) (hne : r1 ≠ r2) (v : Word) :
    (s.writeReg r2 v).readReg r1 = s.readReg r1 := by
  cases r1 <;> cases r2 <;> first
    | rfl
    | exact absurd rfl hne
    | exact absurd hw (by decide)

/-- An optional arming of the NMI gate, as EXG and TFR end with. -/
theorem armNmi_if_spec (p : Prop) [Decidable p] (k : SLoad) :
    (if p then s.armNmi k else s).nmiArmed = (s.nmiArmed || (decide p && inArmSet k)) ∧
    (∀ r, (if p then s.armNmi k else s).readReg r = s.readReg r) ∧
    Keeps [.nmiArmed] s (if p then s.armNmi k else s) ∧ (if p then s.armNmi k else s).mem = s.mem := by
  by_cases h : p
  · rw [if_pos h, decide_eq_true h, Bool.true_and]
    exact ⟨rfl, readReg_armNmi s k, keeps_armNmi s k, rfl⟩
  · rw [if_neg h, decide_eq_false h, Bool.false_and, Bool.or_false]
    exact ⟨rfl, fun _ => rfl, Keeps.refl _ _, rfl⟩

variable {r1 r2 : Reg}

theorem State.exchange_spec (hw : r1.wide = r2.wide) :
    (s.exchange r1 r2).readReg r1 = s.readReg r2 ∧ (s.exchange r1 r2).readReg r2 = s.readReg r1 ∧
    (s.exchange r1 r2).nmiArmed = (s.nmiArmed || (decide (r1 = .s ∨ r2 = .s) && inArmSet .exg)) ∧
    Keeps (.nmiArmed :: (regFields r1 ++ regFields r2)) s (s.exchange r1 r2) ∧ KeepsMemory s (s.exchange r1 r2) := by
  let t := (s.writeReg r1 (s.readReg r2)).writeReg r2 (s.readReg r1)
  obtain ⟨harmed, hread, hk, hm⟩ := armNmi_if_spec t (r1 = .s ∨ r2 = .s) .exg
  have h2 : t.readReg r2 = s.readReg r1 := readReg_writeReg_readReg s hw _
  have h1 : t.readReg r1 = s.readReg r2 := by
    by_cases he : r1 = r2
    · rw [he, h2, he]
    · exact (readReg_writeReg_ne _ hw he _).trans (readReg_writeReg_readReg s hw.symm s)
  have hfirst := (keeps_writeReg_fields s r1 (s.readReg r2)).mono (gs := .nmiArmed :: (regFields r1 ++ regFields r2))
    (by simp +contextual)
  have hsecond := (keeps_writeReg_fields (s.writeReg r1 (s.readReg r2)) r2 (s.readReg r1)).mono
    (gs := .nmiArmed :: (regFields r1 ++ regFields r2)) (by simp +contextual)
  have htarmed : t.nmiArmed = s.nmiArmed := (State.writeReg_nmiArmed _ _ _).trans (State.writeReg_nmiArmed _ _ _)
  have htmem : t.mem = s.mem := (State.writeReg_mem _ _ _).trans (State.writeReg_mem _ _ _)
  exact ⟨(hread r1).trans h1, (hread r2).trans h2, harmed.trans (by rw [htarmed]),
    (hfirst.trans hsecond).trans (hk.mono (by simp)), KeepsMemory.of_eq (hm.trans htmem)⟩

theorem State.transfer_spec (hw : r1.wide = r2.wide) :
    (s.transfer r1 r2).readReg r2 = s.readReg r1 ∧
    (s.transfer r1 r2).nmiArmed = (s.nmiArmed || (decide (r2 = .s) && inArmSet .tfr)) ∧
    Keeps (.nmiArmed :: regFields r2) s (s.transfer r1 r2) ∧ KeepsMemory s (s.transfer r1 r2) := by
  obtain ⟨harmed, hread, hk, hm⟩ := armNmi_if_spec (s.writeReg r2 (s.readReg r1)) (r2 = .s) .tfr
  have hwrite := (keeps_writeReg_fields s r2 (s.readReg r1)).mono (gs := .nmiArmed :: regFields r2) (by simp +contextual)
  exact ⟨(hread r2).trans (readReg_writeReg_readReg s hw s), harmed.trans (by rw [State.writeReg_nmiArmed]),
    hwrite.trans (hk.mono (by simp)), KeepsMemory.of_eq (hm.trans (State.writeReg_mem _ _ _))⟩

theorem exec_exg : exec (.exg r1 r2) s =
    if pairWellFormed r1 r2 then .next (s.exchange r1 r2) else s.illegalPair 0x1E r1 r2 := rfl
theorem exec_tfr : exec (.tfr r1 r2) s =
    if pairWellFormed r1 r2 then .next (s.transfer r1 r2) else s.illegalPair 0x1F r1 r2 := rfl

/-- Settles O27. -/
theorem exchangeAndTransfer : Obligations.ExchangeAndTransfer := by
  refine fun s r1 r2 => ⟨fun hw => ?oneWidth, fun hw => ?twoWidths⟩
  case oneWidth =>
    have hp : pairWellFormed r1 r2 = true := beq_iff_eq.mpr hw
    exact ⟨⟨_, by rw [exec_exg, if_pos hp], s.exchange_spec hw⟩, ⟨_, by rw [exec_tfr, if_pos hp], s.transfer_spec hw⟩⟩
  case twoWidths =>
    have hp : ¬pairWellFormed r1 r2 = true := mt beq_iff_eq.mp hw
    exact ⟨by rw [exec_exg, if_neg hp]; rfl, by rw [exec_tfr, if_neg hp]; rfl⟩

/-! ## Effective addresses -/

/-- A word plus a signed offset is their integer sum, wrapped once. -/
theorem add_ofInt (base : Word) (n : Int) : base + BitVec.ofInt 16 n = BitVec.ofInt 16 (base.toNat + n) := by
  rw [BitVec.ofInt_add, BitVec.ofInt_natCast, BitVec.ofNat_toNat, BitVec.setWidth_eq]

theorem sub_ofNat (base : Word) (n : Nat) : base - BitVec.ofNat 16 n = BitVec.ofInt 16 (base.toNat - n) := by
  rw [BitVec.sub_eq_add_neg, ← BitVec.ofInt_natCast, ← BitVec.ofInt_neg, add_ofInt, Int.sub_eq_add_neg]

theorem ofInt_toNat (w : Word) : BitVec.ofInt 16 (w.toNat : Int) = w := by
  rw [BitVec.ofInt_natCast, BitVec.ofNat_toNat, BitVec.setWidth_eq]

theorem State.indexedBase_fst (m : Indexed) : (s.indexedBase m).1 = BitVec.ofInt 16 (s.indexedAddress m) := by
  cases m with
  | offset5 r n => exact add_ofInt _ n.toInt
  | postInc1 r | postInc2 r | noOffset r | extIndirect a => exact (ofInt_toNat _).symm
  | preDec1 r => exact sub_ofNat _ 1
  | preDec2 r => exact sub_ofNat _ 2
  | accB r => exact add_ofInt _ s.b.toInt
  | accA r => exact add_ofInt _ s.a.toInt
  | offset8 r n => exact add_ofInt _ n.toInt
  | offset16 r n =>
    have h := add_ofInt (s.indexReg r) n.toInt
    rwa [BitVec.ofInt_toInt] at h
  | accD r =>
    have h := add_ofInt (s.indexReg r) (s.d.toNat : Int)
    rw [ofInt_toNat, s.d_toNat] at h
    exact_mod_cast h
  | pcOffset8 rr n => exact add_ofInt _ n.toInt
  | pcOffset16 rr n =>
    have h := add_ofInt s.pc n.toInt
    rwa [BitVec.ofInt_toInt] at h

theorem State.eaIndexed_of_direct {m : Indexed} (h : m.indirect = false) :
    s.eaIndexed m = (BitVec.ofInt 16 (s.indexedAddress m), s.updated (indexedUpdate m)) := by
  rw [State.eaIndexed, h, ← s.indexedBase_fst, ← s.indexedBase_snd]
  rfl

theorem State.eaIndexed_of_indirect {m : Indexed} (h : m.indirect = true) :
    s.eaIndexed m = (s.updated (indexedUpdate m)).read16 (BitVec.ofInt 16 (s.indexedAddress m)) := by
  rw [State.eaIndexed, h, ← s.indexedBase_fst, ← s.indexedBase_snd]
  rfl

/-- Settles O30. -/
theorem effectiveAddresses : Obligations.EffectiveAddresses := fun s =>
  ⟨fun lo => joinBytes_toNat s.dp lo, fun _ => rfl, fun _ h => congrArg Prod.fst (s.eaIndexed_of_direct h),
   fun _ h => congrArg Prod.fst (s.eaIndexed_of_indirect h)⟩

/-- Reaching an operand leaves the kind of every address alone. -/
theorem State.ea_isMemory (e : Ea) (a : Word) : (s.ea e).2.isMemory a = s.isMemory a :=
  State.isMemory_of_platform (s.ea_platform e) a

theorem State.operand8_mem_eq (e : Ea) : s.operand8 (.mem e) = (s.ea e).2.read8 (s.ea e).1 := rfl
theorem State.operand16_mem_eq (e : Ea) : s.operand16 (.mem e) = (s.ea e).2.read16 (s.ea e).1 := rfl

/-- Settles O31. -/
theorem operandAccess : Obligations.OperandAccess := by
  refine fun s => ⟨fun _ => rfl, fun _ => rfl, fun e h => ?byte, fun e h h' => ?word,
    fun e => ⟨keeps_ea s e, s.ea_mem e, s.ea_draws e⟩, fun _ => rfl, fun _ => rfl,
    fun m h => congrArg Prod.snd (s.eaIndexed_of_direct h),
    fun o => ⟨keeps_operand8 s o, s.operand8_mem o, s.operand8_draws o⟩,
    fun o => ⟨keeps_operand16 s o, s.operand16_mem o, s.operand16_draws o⟩⟩
  case byte => rw [s.operand8_mem_eq, State.read8_of_isMemory _ _ ((s.ea_isMemory e _).trans h), s.ea_mem]
  case word =>
    rw [s.operand16_mem_eq,
      State.read16_of_isMemory _ _ ((s.ea_isMemory e _).trans h) ((s.ea_isMemory e _).trans h'), s.ea_mem]
    rfl

/-! ## The order of effects -/

/-- A read depends on the platform, memory and earlier accesses alone. -/
theorem State.read8_fst_setS (a v : Word) : ((s.setS v).read8 a).1 = (s.read8 a).1 :=
  (State.read8_fst_congr a (State.setS_platform s v) (State.setS_mem s v) (State.setS_bus s v)).1

theorem State.read16_fst_setX (a v : Word) : ((s.setX v).read16 a).1 = (s.read16 a).1 :=
  (State.read16_fst_congr a (State.setX_platform s v) (State.setX_mem s v) (State.setX_bus s v)).1

/-- Settles O32, from what a load, a store and an LEA do with any operand. -/
theorem orderOfEffects : Obligations.OrderOfEffects := by
  refine fun s => ⟨⟨_, rfl, ?ldx⟩, ⟨_, rfl, ?leaxUp⟩, ⟨_, rfl, ?leaxDown⟩, ?stx, ⟨_, rfl, ?ldaValue, ?ldaPointer⟩⟩
  case ldx => exact (s.load16_spec .x rfl _).1.trans (s.read16_fst_setX s.x (s.x + 2))
  case leaxUp => exact (s.leaIndex_spec .x rfl _).1
  case leaxDown => exact (s.leaIndex_spec .x rfl _).1
  case stx =>
    obtain ⟨-, hst, hk⟩ := s.store16_spec .x (.idx (.postInc2 .x false))
    exact ⟨_, rfl, hk .x (by decide), hst⟩
  case ldaValue => exact (s.loadAcc_spec .a _).1.trans (s.read8_fst_setS s.s (s.s + 1))
  case ldaPointer => exact ((s.loadAcc_spec .a _).2.2.1 .s (by decide)).trans (s.pull8_sp .hardware).symm

end Sys2Proof.Machine
end

section
/-! Branches, compares and calls (44, 45): a branch is one operation with a condition and an offset, a compare leaves the flags
that decide its comparison, and the calls stack PC. -/

namespace Sys2Proof.Machine

/-! ## Branches -/

/-- A branch whose machine condition says `taken` and whose offset is extended with its sign. -/
theorem branches_of {w : Nat} {i : BitVec w → Instr} {taken : CC → Prop} (cond : CC → Bool) (extend : BitVec w → Word)
    (hi : ∀ off s, exec (i off) s = .next (s.branch (cond s.cc) (extend off)))
    (hext : ∀ off, extend off = BitVec.ofInt 16 off.toInt) (hcond : ∀ cc, cond cc = true ↔ taken cc) :
    Branches i taken := by
  intro s off
  rw [hi off s, hext off, ← hcond, State.branch, add_ofInt]
  exact ⟨fun h => by rw [if_pos h]; rfl, fun h => by rw [if_neg h]⟩

/-- The short and the long branch of one condition. -/
theorem branches_pair {short : Byte → Instr} {long : Word → Instr} {taken : CC → Prop} (cond : CC → Bool)
    (hcond : ∀ cc, cond cc = true ↔ taken cc)
    (hshort : ∀ off s, exec (short off) s = .next (s.branch (cond s.cc) (sext8 off)))
    (hlong : ∀ off s, exec (long off) s = .next (s.branch (cond s.cc) off)) :
    Branches short taken ∧ Branches long taken :=
  ⟨branches_of cond sext8 hshort (fun _ => rfl) hcond, branches_of cond id hlong (fun _ => BitVec.ofInt_toInt.symm) hcond⟩

theorem branches_bhi : Branches Instr.bhi (fun cc => cc.c = false ∧ cc.z = false) ∧
    Branches Instr.lbhi (fun cc => cc.c = false ∧ cc.z = false) :=
  branches_pair CC.higher (fun cc => by simp [CC.higher]) (fun _ _ => rfl) fun _ _ => rfl

theorem branches_bls : Branches Instr.bls (fun cc => cc.c = true ∨ cc.z = true) ∧
    Branches Instr.lbls (fun cc => cc.c = true ∨ cc.z = true) :=
  branches_pair CC.lowerOrSame (fun cc => by simp [CC.lowerOrSame]) (fun _ _ => rfl) fun _ _ => rfl

theorem branches_bcc : Branches Instr.bcc (fun cc => cc.c = false) ∧ Branches Instr.lbcc (fun cc => cc.c = false) :=
  branches_pair (fun cc => !cc.c) (fun cc => by simp) (fun _ _ => rfl) fun _ _ => rfl

theorem branches_bcs : Branches Instr.bcs (fun cc => cc.c = true) ∧ Branches Instr.lbcs (fun cc => cc.c = true) :=
  branches_pair CC.c (fun _ => Iff.rfl) (fun _ _ => rfl) fun _ _ => rfl

theorem branches_bne : Branches Instr.bne (fun cc => cc.z = false) ∧ Branches Instr.lbne (fun cc => cc.z = false) :=
  branches_pair (fun cc => !cc.z) (fun cc => by simp) (fun _ _ => rfl) fun _ _ => rfl

theorem branches_beq : Branches Instr.beq (fun cc => cc.z = true) ∧ Branches Instr.lbeq (fun cc => cc.z = true) :=
  branches_pair CC.z (fun _ => Iff.rfl) (fun _ _ => rfl) fun _ _ => rfl

theorem branches_bge : Branches Instr.bge (fun cc => cc.n = cc.v) ∧ Branches Instr.lbge (fun cc => cc.n = cc.v) :=
  branches_pair CC.greaterOrEqual (fun cc => by simp [CC.greaterOrEqual]) (fun _ _ => rfl) fun _ _ => rfl

theorem branches_blt : Branches Instr.blt (fun cc => cc.n ≠ cc.v) ∧ Branches Instr.lblt (fun cc => cc.n ≠ cc.v) :=
  branches_pair CC.less (fun cc => by simp [CC.less]) (fun _ _ => rfl) fun _ _ => rfl

theorem branches_bgt : Branches Instr.bgt (fun cc => cc.z = false ∧ cc.n = cc.v) ∧
    Branches Instr.lbgt (fun cc => cc.z = false ∧ cc.n = cc.v) :=
  branches_pair CC.greater (fun cc => by simp [CC.greater]) (fun _ _ => rfl) fun _ _ => rfl

theorem branches_ble : Branches Instr.ble (fun cc => cc.z = true ∨ cc.n ≠ cc.v) ∧
    Branches Instr.lble (fun cc => cc.z = true ∨ cc.n ≠ cc.v) :=
  branches_pair CC.lessOrEqual (fun cc => by simp [CC.lessOrEqual]) (fun _ _ => rfl) fun _ _ => rfl

/-- Settles O54. -/
theorem branchInstructions : Obligations.BranchInstructions :=
  ⟨branches_pair (fun _ => true) (fun _ => iff_of_true rfl trivial) (fun _ _ => rfl) fun _ _ => rfl,
   branches_pair (fun _ => false) (fun _ => iff_of_false Bool.false_ne_true id) (fun _ _ => rfl) fun _ _ => rfl,
   branches_bhi, branches_bls, branches_bcc, branches_bcs, branches_bne, branches_beq,
   branches_pair (fun cc => !cc.v) (fun cc => by simp) (fun _ _ => rfl) fun _ _ => rfl,
   branches_pair CC.v (fun _ => Iff.rfl) (fun _ _ => rfl) fun _ _ => rfl,
   branches_pair (fun cc => !cc.n) (fun cc => by simp) (fun _ _ => rfl) fun _ _ => rfl,
   branches_pair CC.n (fun _ => Iff.rfl) (fun _ _ => rfl) fun _ _ => rfl,
   branches_bge, branches_blt, branches_bgt, branches_ble⟩

/-! ## Compares -/

/-- The flags that a compare of `x` with `y` leaves: C is unsigned less, Z equal, and N against V signed less. -/
structure CC.Orders {w : Nat} (cc : CC) (x y : BitVec w) : Prop where
  c : cc.c = true ↔ x.toNat < y.toNat
  z : cc.z = true ↔ x = y
  less : cc.n ≠ cc.v ↔ x.toInt < y.toInt

theorem branchesIff_of {t : State} {short : Byte → Instr} {long : Word → Instr} {taken : CC → Prop} {p : Prop}
    (h : Branches short taken ∧ Branches long taken) (hp : taken t.cc ↔ p) : BranchesIff t short long p :=
  ⟨fun off => ⟨fun q => (h.1 t off).1 (hp.mpr q), fun q => (h.1 t off).2 (mt hp.mp q)⟩,
   fun off => ⟨fun q => (h.2 t off).1 (hp.mpr q), fun q => (h.2 t off).2 (mt hp.mp q)⟩⟩

/-- Such flags decide every comparison that a branch names. -/
theorem CC.Orders.decidesComparison {w : Nat} {t : State} {x y : BitVec w} (h : t.cc.Orders x y) :
    DecidesComparison t x y := by
  obtain ⟨hc, hz, hless⟩ := h
  have hnc : t.cc.c = false ↔ y.toNat ≤ x.toNat := by rw [← Bool.not_eq_true, hc, Nat.not_lt]
  have hnz : t.cc.z = false ↔ x ≠ y := by rw [← Bool.not_eq_true, hz]
  have hge : t.cc.n = t.cc.v ↔ y.toInt ≤ x.toInt := by rw [← Int.not_lt, ← hless, not_not]
  have hnat : x = y ↔ x.toNat = y.toNat := BitVec.toNat_inj.symm
  have hint : x = y ↔ x.toInt = y.toInt := BitVec.toInt_inj.symm
  refine ⟨branchesIff_of branches_bhi ?hi, branchesIff_of branches_bls ?ls, branchesIff_of branches_bcc hnc,
    branchesIff_of branches_bcs hc, branchesIff_of branches_beq hz, branchesIff_of branches_bne hnz,
    branchesIff_of branches_bgt ?gt, branchesIff_of branches_ble ?le, branchesIff_of branches_bge hge,
    branchesIff_of branches_blt hless⟩
  case hi => rw [hnc, hnz, ne_eq, hnat]; omega
  case ls => rw [hc, hz, hnat]; omega
  case gt => rw [hnz, hge, ne_eq, hint]; omega
  case le => rw [hz, hless, hint]; omega

/-- The flags of an 8-bit difference order its operands: V corrects the sign where the signed difference does not fit. -/
theorem orders_ofDifference8 (cc : CC) (x y : Byte) (h : Bool) : (cc.ofDifference8 x y 0 h).Orders x y := by
  have hx : x.toNat < 256 := x.isLt
  have hy : y.toNat < 256 := y.isLt
  have hd := difference8_toNat x y 0
  refine ⟨?c, ?z, ?less⟩
  case c => simp [CC.ofDifference8]
  case z =>
    simp only [CC.ofDifference8, CC.ofByteResult, decide_eq_true_eq, ← BitVec.toNat_inj]
    omega
  case less =>
    simp only [CC.ofDifference8, CC.ofByteResult, ne_eq, decide_eq_decide, byte_toInt]
    split <;> split <;> omega

theorem word_toInt (a : Word) : a.toInt = if 32768 ≤ a.toNat then (a.toNat : Int) - 65536 else a.toNat := by
  rw [BitVec.toInt_eq_toNat_cond]
  split <;> split <;> omega

theorem orders_ofDifference16 (cc : CC) (x y : Word) : (cc.ofDifference16 x y).Orders x y := by
  have hx : x.toNat < 65536 := x.isLt
  have hy : y.toNat < 65536 := y.isLt
  have hd : (difference16 x y).toNat = (65536 - y.toNat + x.toNat) % 65536 := by
    rw [difference16_eq_sub, BitVec.toNat_sub]
  refine ⟨?c, ?z, ?less⟩
  case c => simp [CC.ofDifference16]
  case z =>
    simp only [CC.ofDifference16, CC.ofWordResult, decide_eq_true_eq, ← BitVec.toNat_inj]
    omega
  case less =>
    simp only [CC.ofDifference16, CC.ofWordResult, ne_eq, decide_eq_decide, word_toInt]
    split <;> split <;> omega

theorem comparesByte_of {i : Src8 → Instr} (r : Acc) (hi : ∀ o s, exec (i o) s = .next (s.cmpAcc r o)) :
    ComparesByte i r := by
  intro s o
  obtain ⟨hcc, -⟩ := s.cmpAcc_spec r o
  rw [sub8_eq] at hcc
  exact ⟨_, hi o s, CC.Orders.decidesComparison (hcc ▸ orders_ofDifference8 _ _ _ _)⟩

theorem comparesWord_of {i : Src16 → Instr} (r : Reg) (hi : ∀ o s, exec (i o) s = .next (s.compare16 r o)) :
    ComparesWord i r := by
  intro s o
  obtain ⟨hcc, -⟩ := s.compare16_spec r o
  rw [sub16_eq] at hcc
  exact ⟨_, hi o s, CC.Orders.decidesComparison (hcc ▸ orders_ofDifference16 _ _ _)⟩

/-- Settles O55. -/
theorem compareThenBranch : Obligations.CompareThenBranch :=
  ⟨comparesByte_of .a fun _ _ => rfl, comparesByte_of .b fun _ _ => rfl, comparesWord_of .d fun _ _ => rfl,
   comparesWord_of .x fun _ _ => rfl, comparesWord_of .y fun _ _ => rfl, comparesWord_of .u fun _ _ => rfl,
   comparesWord_of .s fun _ _ => rfl⟩

/-! ## Calls and jumps -/

variable (s : State)

theorem exec_bsr (off : Byte) : exec (.bsr off) s = .next (s.branchSub (sext8 off)) := rfl
theorem exec_lbsr (off : Word) : exec (.lbsr off) s = .next (s.branchSub off) := rfl
theorem exec_jsr (e : Ea) : exec (.jsr e) s = .next (((s.ea e).2.push16 .hardware (s.ea e).2.pc).setPc (s.ea e).1) := rfl
theorem exec_jmp (e : Ea) : exec (.jmp e) s = .next ((s.ea e).2.setPc (s.ea e).1) := rfl
theorem exec_rts : exec .rts s = .next ((s.pull16 .hardware).2.setPc (s.pull16 .hardware).1) := rfl

theorem keeps_setPc (v : Word) : Keeps [.pc] s (s.setPc v) := keeps_writeReg_fields s .pc v

/-- A call by a signed offset. -/
theorem State.branchSub_target (off : Int) : (s.branchSub (BitVec.ofInt 16 off)).pc = BitVec.ofInt 16 (s.pc.toNat + off) := by
  rw [(s.branchSub_spec _).1, add_ofInt]

/-- A pulled word is what a read at the stack pointer returns. -/
theorem State.pull16_fst : (s.pull16 .hardware).1 = (s.read16 s.s).1 := by
  have h : ((s.pull8 .hardware).2.read8 (s.s + 1)).1 = ((s.read8 s.s).2.read8 (s.s + 1)).1 :=
    State.read8_fst_setS _ _ _
  have hsp : (s.pull8 .hardware).2.s = s.s + 1 := s.pull8_sp .hardware
  show joinBytes (s.read8 s.s).1 ((s.pull8 .hardware).2.read8 (s.pull8 .hardware).2.s).1 = _
  rw [hsp, h]
  rfl

theorem State.pull16_keeps : Keeps [.s] s (s.pull16 .hardware).2 := by
  intro f hf
  cases f
  case s => exact absurd (List.mem_singleton_self _) hf
  case u => exact s.pull16_sp_other .hardware
  all_goals simp [Field.same]

/-- Settles O56. -/
theorem callsAndJumps : Obligations.CallsAndJumps := by
  refine ⟨fun s off => ⟨_, exec_bsr s off, s.branchSub_target off.toInt, (s.branchSub_spec _).2⟩,
    fun s off => ⟨_, exec_lbsr s off, ?lbsr, (s.branchSub_spec _).2⟩, ?jsr,
    fun s e => ⟨_, exec_jmp s e, rfl, (keeps_ea s e).weaken.trans (keeps_setPc _ _), KeepsMemory.of_eq (s.ea_mem e)⟩,
    fun s => ⟨_, exec_rts s, s.pull16_fst, s.pull16_sp .hardware, ?rts, KeepsMemory.of_eq (s.pull16_mem .hardware)⟩⟩
  case lbsr =>
    have h := s.branchSub_target off.toInt
    rwa [BitVec.ofInt_toInt] at h
  case jsr =>
    rintro s _ e rfl
    have hs : (s.ea e).2.s = (s.updated (eaUpdate e)).s := keeps_ea s e .s (by decide)
    have hst := stored_push16 (s := s) (s.ea_platform e) (s.ea_mem e) .hardware (s.ea e).2.pc
    have hsp := (s.ea e).2.push16_sp .hardware (s.ea e).2.pc
    rw [State.ea_pc] at hst hsp
    refine ⟨_, exec_jsr s e, rfl, ?sp, ?stored, ?keeps⟩
    case sp => rw [← hs, State.ea_pc]; exact hsp
    case stored => rw [← hs, State.ea_pc]; exact hst.of_eq rfl
    case keeps =>
      exact (keeps_ea s e).weaken.trans (((keeps_push16 _ .hardware _).mono (by decide)).trans
        ((keeps_setPc _ _).mono (by decide)))
  case rts => exact (s.pull16_keeps.mono (by decide)).trans ((keeps_setPc _ _).mono (by decide))

end Sys2Proof.Machine
end

section
/-! Stacks, software interrupts and the return (43, 45, 60). A pull of bytes that are the frame of some state gives the registers
of that state; that a return undoes an entry, and a pull a push, is this fact with the frame the entry or the push has left. -/

namespace Sys2Proof.Machine

variable (s : State)

/-! ## Pushes and pulls of a register list -/

theorem exec_pshu (l : RegList) : exec (.pshu l) s = .next (s.pushList .user l) := rfl
theorem exec_puls (l : RegList) : exec (.puls l) s = .next (s.pullList .hardware l) := rfl
theorem exec_pulu (l : RegList) : exec (.pulu l) s =
    .next (if l.other = true then (s.pullList .user l).armNmi .pulu else s.pullList .user l) := rfl

/-- Settles O51. -/
theorem pushRegisters : Obligations.PushRegisters := fun s l =>
  ⟨⟨_, exec_pshs s l, s.pushList_sp .hardware l, s.pushList_stored .hardware l, s.pushList_keeps .hardware l⟩,
   ⟨_, exec_pshu s l, s.pushList_sp .user l, s.pushList_stored .user l, s.pushList_keeps .user l⟩⟩

/-- A frame is made of the fields that frames of states speak of. -/
theorem frame_of_keeps {s t : State} (h : Keeps [.nmiArmed] s t) (k : Stack) (l : RegList) : t.frame k l = s.frame k l := by
  have hu : t.u = s.u := h .u (by decide)
  have hs : t.s = s.s := h .s (by decide)
  have hother : t.sp k.other = s.sp k.other := by cases k <;> assumption
  rw [State.frame, State.frame, hother, show t.cc = s.cc from h .cc (by decide), show t.a = s.a from h .a (by decide),
    show t.b = s.b from h .b (by decide), show t.dp = s.dp from h .dp (by decide), show t.x = s.x from h .x (by decide),
    show t.y = s.y from h .y (by decide), show t.pc = s.pc from h .pc (by decide)]

/-- Settles O52. -/
theorem pullRegisters : Obligations.PullRegisters := by
  refine fun s l => ⟨⟨_, exec_puls s l, (s.pullList_spec .hardware l).2, s.pullList_sp .hardware l,
    s.pullList_keeps .hardware l, KeepsMemory.of_eq (s.pullList_mem .hardware l)⟩, ?pulu⟩
  case pulu =>
    obtain ⟨harmed, -, hk, hm⟩ := armNmi_if_spec (s.pullList .user l) (l.other = true) .pulu
    have hpull := s.pullList_keeps .user l
    have hnmi : (s.pullList .user l).nmiArmed = s.nmiArmed := hpull .nmiArmed (by simp [listFields, Stack.field, Stack.other])
    refine ⟨_, exec_pulu s l, (frame_of_keeps hk .user l).trans (s.pullList_spec .user l).2,
      (hk .u (by decide)).trans (s.pullList_sp .user l), ?_, (hpull.mono (by simp +contextual)).trans (hk.mono (by simp)),
      KeepsMemory.of_eq (hm.trans (s.pullList_mem .user l))⟩
    rw [harmed, hnmi, Bool.decide_eq_true]

/-! ## Frames determine the registers -/

theorem toByte_inj {c d : CC} (h : c.toByte = d.toByte) : c = d := by
  rw [← CC.ofByte_toByte c, h, CC.ofByte_toByte]

theorem word_inj {v w : Word} (hh : hiByte v = hiByte w) (hl : loByte v = loByte w) : v = w := by
  rw [← joinBytes_hi_lo v, hh, hl, joinBytes_hi_lo]

theorem byteSlot_length (c : Bool) (v w : Byte) : (if c then [v] else []).length = (if c then [w] else []).length := by
  cases c <;> rfl

theorem wordSlot_length (c : Bool) (v w : Word) :
    (if c then [hiByte v, loByte v] else []).length = (if c then [hiByte w, loByte w] else []).length := by
  cases c <;> rfl

theorem byteSlot_inj {c : Bool} {v w : Byte} (h : (if c then [v] else []) = if c then [w] else []) (hc : c = true) :
    v = w := by
  rw [hc] at h
  exact List.head_eq_of_cons_eq h

theorem wordSlot_inj {c : Bool} {v w : Word}
    (h : (if c then [hiByte v, loByte v] else []) = if c then [hiByte w, loByte w] else []) (hc : c = true) : v = w := by
  rw [hc] at h
  exact word_inj (List.head_eq_of_cons_eq h) (List.head_eq_of_cons_eq (List.tail_eq_of_cons_eq h))

theorem mem_listFields_cases {k : Stack} {l : RegList} {f : Field} (h : f ∈ listFields k l) :
    f = k.field ∨ l.cc = true ∧ f = .cc ∨ l.a = true ∧ f = .a ∨ l.b = true ∧ f = .b ∨ l.dp = true ∧ f = .dp ∨
      l.x = true ∧ f = .x ∨ l.y = true ∧ f = .y ∨ l.other = true ∧ f = k.other.field ∨ l.pc = true ∧ f = .pc := by
  simpa [listFields, or_assoc] using h

/-- Two states with one frame have the same registers of the list: the frame is cut into its slots from the end. -/
theorem same_of_frame_eq {s t : State} {k : Stack} {l : RegList} (h : t.frame k l = s.frame k l) {f : Field}
    (hf : f ∈ listFields k l) (hne : f ≠ k.field) : f.same s t := by
  obtain ⟨h, hpc⟩ := List.append_inj' h (wordSlot_length _ _ _)
  obtain ⟨h, hother⟩ := List.append_inj' h (wordSlot_length _ _ _)
  obtain ⟨h, hy⟩ := List.append_inj' h (wordSlot_length _ _ _)
  obtain ⟨h, hx⟩ := List.append_inj' h (wordSlot_length _ _ _)
  obtain ⟨h, hdp⟩ := List.append_inj' h (byteSlot_length _ _ _)
  obtain ⟨h, hb⟩ := List.append_inj' h (byteSlot_length _ _ _)
  obtain ⟨hcc, ha⟩ := List.append_inj' h (byteSlot_length _ _ _)
  rcases mem_listFields_cases hf with he | ⟨hc, rfl⟩ | ⟨hc, rfl⟩ | ⟨hc, rfl⟩ | ⟨hc, rfl⟩ | ⟨hc, rfl⟩ | ⟨hc, rfl⟩ | ⟨hc, rfl⟩ |
    ⟨hc, rfl⟩
  · exact absurd he hne
  · exact toByte_inj (byteSlot_inj hcc hc)
  · exact byteSlot_inj ha hc
  · exact byteSlot_inj hb hc
  · exact byteSlot_inj hdp hc
  · exact wordSlot_inj hx hc
  · exact wordSlot_inj hy hc
  · have hsp := wordSlot_inj hother hc
    cases k <;> exact hsp
  · exact wordSlot_inj hpc hc

/-- The bytes of a state's frame stand in RAM or ROM upward from the stack pointer. -/
def HoldsFrame (k : Stack) (l : RegList) (s t : State) : Prop :=
  ∀ (j : Nat) (h : j < (s.frame k l).length),
    t.isMemory (t.sp k + BitVec.ofNat 16 j) = true ∧ t.mem.read (t.sp k + BitVec.ofNat 16 j).toNat = (s.frame k l)[j]

theorem isMemory_of_ram {a : Word} (h : s.kind a = .ram) : s.isMemory a = true := by rw [State.isMemory, h]

/-- What has been stored over RAM can be pulled. -/
theorem holdsFrame_of_stored {k : Stack} {l : RegList} {s x t : State} (hst : Stored s t (t.sp k) (x.frame k l))
    (hp : t.platform = s.platform) (hram : ∀ j, j < listSize l → s.kind (t.sp k + BitVec.ofNat 16 j) = .ram) :
    HoldsFrame k l x t := by
  intro j hj
  have hr := hram j (by rwa [x.frame_length] at hj)
  exact ⟨(State.isMemory_of_platform hp _).trans (isMemory_of_ram s hr), (hst.2 j hj).trans (if_pos hr)⟩

/-- A pull of a frame gives the registers of the state whose frame it is, and leaves the others alone. -/
theorem pullList_of_holdsFrame {k : Stack} {l : RegList} {s t : State} (h : HoldsFrame k l s t) {f : Field}
    (hne : f ≠ k.field) :
    (f ∈ listFields k l → f.same s (t.pullList k l)) ∧ (f ∉ listFields k l → f.same t (t.pullList k l)) := by
  refine ⟨fun hf => same_of_frame_eq ?_ hf hne, t.pullList_keeps k l f⟩
  have hlen : (s.frame k l).length = listSize l := s.frame_length k l
  rw [(t.pullList_spec k l).2, t.readBytes_of_isMemory _ _ fun j hj => (h j (by omega)).1]
  refine List.ext_getElem (by simp [addressesFrom_length, hlen]) fun j _ hj => ?_
  simp only [List.getElem_map, addressesFrom_getElem]
  exact (h j hj).2

/-- A pull of the list just pushed over RAM restores every field. -/
theorem pullList_pushList (k : Stack) (l : RegList)
    (hram : ∀ j, j < listSize l → s.kind (s.sp k - BitVec.ofNat 16 (listSize l) + BitVec.ofNat 16 j) = .ram) :
    Keeps [] s ((s.pushList k l).pullList k l) := by
  have hsp := s.pushList_sp k l
  have hst := s.pushList_stored k l
  have hp : (s.pushList k l).platform = s.platform := s.pushList_keeps k l .platform (by cases k <;> decide)
  rw [← hsp] at hst hram
  have hframe := holdsFrame_of_stored hst hp hram
  intro f _
  by_cases hk : f = k.field
  · have hback : ((s.pushList k l).pullList k l).sp k = s.sp k := by rw [State.pullList_sp, hsp, BitVec.sub_add_cancel]
    subst hk
    cases k <;> exact hback
  · obtain ⟨hin, hout⟩ := pullList_of_holdsFrame hframe hk
    by_cases hf : f ∈ listFields k l
    · exact hin hf
    · have hpush := (s.pushList_keeps k l f (by simpa using hk))
      have hpull := hout hf
      cases f <;> exact hpull.trans hpush

/-- Settles O53. -/
theorem pullUndoesPush : Obligations.PullUndoesPush := by
  refine fun s l => ⟨fun hram => ⟨_, _, exec_pshs s l, exec_puls _ l, pullList_pushList s .hardware l hram⟩,
    fun hram => ⟨_, _, exec_pshu s l, exec_pulu _ l, ?_⟩⟩
  exact (pullList_pushList s .user l hram).weaken.trans (armNmi_if_spec _ (l.other = true) .pulu).2.2.1

/-! ## Software interrupts and CWAI -/

/-- The entire state stacked with a given CC, which the register takes too. -/
def State.stackAll (cc : CC) : State := (s.setCC cc).pushList .hardware allRegisters

theorem State.stackAll_spec (cc : CC) :
    StacksEntire s (s.stackAll cc) cc ∧ (s.stackAll cc).cc = cc ∧ Keeps [.cc, .s] s (s.stackAll cc) := by
  have hpush := (s.setCC cc).pushList_keeps .hardware allRegisters
  exact ⟨(stacksList_all _ _ _).mp (stacksList_pushList s _ _), hpush .cc (by decide),
    ((keeps_setCC s cc).mono (by decide)).trans (hpush.mono (by decide))⟩

theorem StacksEntire.of_eq {s t u : State} {cc : CC} (h : StacksEntire s t cc) (hs : u.s = t.s) (hm : u.mem = t.mem) :
    StacksEntire s u cc := (stacksList_all _ _ _).mp (StacksList.of_eq ((stacksList_all _ _ _).mpr h) hs hm)

theorem State.pushEntire_setE (cc : CC) : ((s.setCC cc).setE true).pushEntire = s.stackAll { cc with e := true } := by
  rw [State.pushEntire_eq]
  rfl

theorem State.swiStack_eq : s.swiStack = s.stackAll { s.cc with e := true } := by
  rw [State.swiStack, State.pushEntire_eq]
  rfl

/-- A software interrupt: the entire state stacked with E set, the masks, the vector. -/
def State.softwareEntry (mask : CC → CC) (vector : Word) : State :=
  (s.swiStack.setCC (mask s.swiStack.cc)).takeVector vector

theorem State.maskBoth_eq : s.maskBoth = s.setCC s.cc.withBothMasks := rfl
theorem State.setCC_self : s.setCC s.cc = s := rfl

theorem exec_swi : exec .swi s = .next (s.softwareEntry CC.withBothMasks vectorSwi) := by
  rw [State.softwareEntry, ← State.maskBoth_eq]
  rfl

theorem exec_swi2 : exec .swi2 s = .next (s.softwareEntry id vectorSwi2) := by
  rw [State.softwareEntry, id_eq, State.setCC_self]
  rfl

theorem exec_swi3 : exec .swi3 s = .next (s.softwareEntry id vectorSwi3) := by
  rw [State.softwareEntry, id_eq, State.setCC_self]
  rfl

theorem State.softwareEntry_spec (mask : CC → CC) (vector : Word) :
    StacksEntire s (s.softwareEntry mask vector) { s.cc with e := true } ∧
    (s.softwareEntry mask vector).cc = mask { s.cc with e := true } ∧
    TakesVector (s.softwareEntry mask vector) vector ∧ Keeps [.cc, .s, .pc] s (s.softwareEntry mask vector) := by
  obtain ⟨hst, hcc, hk⟩ := s.stackAll_spec { s.cc with e := true }
  rw [State.softwareEntry, s.swiStack_eq, hcc]
  generalize s.stackAll { s.cc with e := true } = t at hst hk
  have hmask : Keeps [.cc, .s, .pc] t (t.setCC (mask { s.cc with e := true })) := (keeps_setCC t _).mono (by decide)
  exact ⟨hst.of_eq (State.takeVector_s _ _) (State.takeVector_mem _ _), State.takeVector_cc _ _, takesVector_takeVector _ _,
    ((hk.mono (by decide)).trans hmask).trans ((keeps_takeVector _ vector).mono (by decide))⟩

/-- Settles O20. -/
theorem softwareInterrupts : Obligations.SoftwareInterrupts := fun s =>
  ⟨⟨_, exec_swi s, s.softwareEntry_spec _ _⟩, ⟨_, exec_swi2 s, s.softwareEntry_spec _ _⟩,
   ⟨_, exec_swi3 s, s.softwareEntry_spec _ _⟩⟩

/-- CWAI stacks before it waits, with the CC that it leaves. -/
theorem exec_cwai_eq (m : Byte) : exec (.cwai m) s =
    .next ((s.stackAll { CC.ofByte (s.cc.toByte &&& m) with e := true }).setWait .cwaiWaiting) := by
  rw [exec_cwai, State.pushEntire_setE, CC.andByte_eq]

/-- Settles O21. -/
theorem cwai : Obligations.Cwai := by
  rintro s m cc rfl
  obtain ⟨hst, hcc, hk⟩ := s.stackAll_spec { CC.ofByte (s.cc.toByte &&& m) with e := true }
  have hexec := exec_cwai_eq s m
  generalize s.stackAll _ = t at hst hcc hk hexec
  exact ⟨_, hexec, hcc, hst.of_eq rfl rfl, rfl, (hk.mono (by decide)).trans ((keeps_setWait t _).mono (by decide))⟩

/-! ## The return -/

theorem exec_rti : exec .rti s = .next (s.pullList .hardware s.returnList) := by
  rw [← s.returnFromInterrupt_eq]
  rfl

/-- The registers of a frame with the E bit given (60 R413). -/
def frameList (e : Bool) : RegList := if e then allRegisters else pcAndCC

theorem State.returnList_eq : s.returnList = frameList ((s.byteAt s.s).getLsbD 7) := rfl

/-- Settles O22. -/
theorem returnFromInterrupt : Obligations.ReturnFromInterrupt := by
  refine fun s => ⟨fun he => ?entire, fun he => ?short⟩
  case entire =>
    have hl : s.returnList = allRegisters := by rw [s.returnList_eq, he]; rfl
    exact ⟨s.pullList .hardware allRegisters, hl ▸ exec_rti s, s.pullList_sp .hardware _,
      (s.pullList_spec .hardware allRegisters).2.symm,
      (s.pullList_keeps .hardware _).mono (by decide), KeepsMemory.of_eq (s.pullList_mem .hardware _)⟩
  case short =>
    have hl : s.returnList = pcAndCC := by rw [s.returnList_eq, he]; rfl
    exact ⟨s.pullList .hardware pcAndCC, hl ▸ exec_rti s, s.pullList_sp .hardware _,
      (s.pullList_spec .hardware pcAndCC).2.symm,
      (s.pullList_keeps .hardware _).mono (by decide), KeepsMemory.of_eq (s.pullList_mem .hardware _)⟩

/-- The lowest byte of an interrupt frame is CC, which tells the return what else to pull. -/
theorem returnList_of_holdsFrame {s t : State} (h : HoldsFrame .hardware (frameList s.cc.e) s t) :
    t.returnList = frameList s.cc.e := by
  have hframe : ∃ rest, s.frame .hardware (frameList s.cc.e) = s.cc.toByte :: rest := by
    cases s.cc.e <;> exact ⟨_, rfl⟩
  obtain ⟨rest, hrest⟩ := hframe
  obtain ⟨hmem, hbyte⟩ := h 0 (by rw [hrest]; exact Nat.succ_pos _)
  simp only [hrest, List.getElem_cons_zero, BitVec.add_zero] at hmem hbyte
  have hcc : CC.ofByte (t.byteAt t.s) = s.cc := by
    rw [State.byteAt, State.read8_of_isMemory t t.s hmem, ← CC.ofByte_toByte s.cc]
    exact congrArg CC.ofByte hbyte
  rw [t.returnList_eq]
  exact congrArg (fun c : CC => frameList c.e) hcc

/-- The twelve bytes below S are RAM. -/
def State.RamBelow : Prop := ∀ j, j < 12 → s.kind (s.s - 12 + BitVec.ofNat 16 j) = .ram

/-- A shorter frame lies in the twelve bytes of the entire one. -/
theorem ram_of_ramBelow (hram : s.RamBelow) (n : Nat) (hn : n ≤ 12) (j : Nat) (hj : j < n) :
    s.kind (s.s - BitVec.ofNat 16 n + BitVec.ofNat 16 j) = .ram := by
  have h := hram (12 - n + j) (by omega)
  have hsum : BitVec.ofNat 16 (12 - n) + BitVec.ofNat 16 n = (12 : Word) := by
    rw [← BitVec.ofNat_add, Nat.sub_add_cancel hn]
    rfl
  have ha : s.s - 12 + BitVec.ofNat 16 (12 - n + j) = s.s - BitVec.ofNat 16 n + BitVec.ofNat 16 j := by
    rw [BitVec.ofNat_add, ← hsum]
    generalize BitVec.ofNat 16 (12 - n) = p, BitVec.ofNat 16 n = q, BitVec.ofNat 16 j = r
    bv_omega
  rwa [ha] at h

/-- RTI undoes whatever has stacked a frame below S and changed CC, PC and the fields `fs`: S and the registers are as they
were, and CC is that of the frame. -/
theorem rti_undoes {s t : State} {cc : CC} {fs : List Field} (hram : s.RamBelow) (hst : StacksList (frameList cc.e) s t cc)
    (hk : Keeps (.cc :: .s :: .pc :: fs) s t) (hp : t.platform = s.platform) :
    ∃ u, exec .rti t = .next u ∧ u.cc = cc ∧ u.wait = t.wait ∧ Keeps (.cc :: fs) s u := by
  obtain ⟨hs, hstored⟩ := hst
  have hsize : listSize (frameList cc.e) ≤ 12 := listSize_le _
  have hframe : HoldsFrame .hardware (frameList cc.e) (s.setCC cc) t :=
    holdsFrame_of_stored (s := s) (x := s.setCC cc) (show Stored s t t.s _ by rwa [hs]) hp fun j hj => by
      show s.kind (t.s + _) = _
      rw [hs]
      exact ram_of_ramBelow s hram _ hsize j hj
  have hlist : t.returnList = frameList cc.e := returnList_of_holdsFrame (s := s.setCC cc) hframe
  have hmem : ∀ e, Field.cc ∈ listFields .hardware (frameList e) ∧ Field.pc ∈ listFields .hardware (frameList e) ∧
      Field.wait ∉ listFields .hardware (frameList e) := by decide
  obtain ⟨hmemcc, hmempc, hmemwait⟩ := hmem cc.e
  have hpull := fun (f : Field) (hne : f ≠ .s) => pullList_of_holdsFrame hframe (f := f) hne
  refine ⟨_, hlist ▸ exec_rti t, (hpull .cc (by decide)).1 hmemcc, (hpull .wait (by decide)).2 hmemwait, fun f hf => ?_⟩
  obtain ⟨hfcc, hffs⟩ : f ≠ .cc ∧ f ∉ fs := by simpa using hf
  by_cases hfs : f = .s
  · subst hfs
    exact (t.pullList_sp .hardware _).trans (by rw [show t.sp .hardware = t.s from rfl, hs, BitVec.sub_add_cancel])
  obtain ⟨hin, hout⟩ := hpull f hfs
  by_cases hl : f ∈ listFields .hardware (frameList cc.e)
  · have hsame := hin hl
    cases f
    case cc => exact absurd rfl hfcc
    all_goals exact hsame
  · have hpc : f ≠ .pc := fun he => hl (he ▸ hmempc)
    have h1 := hk f (by simp [hfcc, hfs, hpc, hffs])
    have h2 := hout hl
    cases f <;> exact h2.trans h1

/-! ## Returns from the entries -/

theorem State.RamBelow.advanced {s : State} (h : s.RamBelow) : s.advanced.RamBelow := h

/-- RTI undoes a hardware entry that has stacked its frame. -/
theorem rti_undoes_enter {l : RegList} {e : Bool} {mask : CC → CC} {vector : Word} {fs : List Field} (hram : s.RamBelow)
    (hl : frameList e = l) (hw : s.wait ≠ .cwaiWaiting)
    (hk : Keeps (.cc :: .s :: .pc :: fs) s.advanced (s.entryState.enter l e mask vector)) :
    ∃ u, exec .rti (s.entryState.enter l e mask vector) = .next u ∧ u.cc = { s.cc with e := e } ∧
      Keeps (.cc :: fs) s.advanced u := by
  subst hl
  have hst := (s.entryState_enter_of_not_waiting (l := frameList e) (e := e) (mask := mask) (vector := vector) hw).1
  obtain ⟨u, hu, hcc, -, hkeeps⟩ := rti_undoes hram.advanced (s := s.advanced) (cc := { s.cc with e := e }) hst hk
    (s.entryState_enter_keeps .platform (by decide))
  exact ⟨u, hu, hcc, hkeeps⟩

theorem isSoftwareInterrupt_cases {i : Instr} (h : isSoftwareInterrupt i = true) : i = .swi ∨ i = .swi2 ∨ i = .swi3 := by
  cases i
  case swi => exact .inl rfl
  case swi2 => exact .inr (.inl rfl)
  case swi3 => exact .inr (.inr rfl)
  all_goals exact absurd h Bool.false_ne_true

/-- Every software interrupt is one entry. -/
theorem exec_of_isSoftwareInterrupt {i : Instr} (h : isSoftwareInterrupt i = true) :
    ∃ mask vector, ∀ s, exec i s = .next (s.softwareEntry mask vector) := by
  rcases isSoftwareInterrupt_cases h with rfl | rfl | rfl
  · exact ⟨_, _, exec_swi⟩
  · exact ⟨_, _, exec_swi2⟩
  · exact ⟨_, _, exec_swi3⟩

/-- A request that is due is an entry. -/
theorem step_of_due (hr : s.nowInputs.reset = false) (hdue : s.nmiDue = true ∨ s.firqDue = true ∨ s.irqDue = true) :
    ∃ l e mask vector, step s = .next (s.entryState.enter l e mask vector) := by
  cases hn : s.nmiDue
  · cases hf : s.firqDue
    · exact ⟨_, _, _, _, step_of_irqDue s hr hn hf (by simpa [hn, hf] using hdue)⟩
    · exact ⟨_, _, _, _, step_of_firqDue s hr hn hf⟩
  · exact ⟨_, _, _, _, step_of_nmiDue s hr hn⟩

theorem keeps_advanced {s t : State} {fs : List Field} (h : Keeps fs s t) :
    Keeps fs s.advanced t.advanced := by
  intro f hf
  have hsame := h f hf
  cases f
  case inputs => exact congrArg List.tail hsame
  all_goals exact hsame

/-- A state that differs from another in CC and S only, its wait apart, sees the same inputs and requests. -/
theorem requests_of_keeps {s t : State} (h : Keeps [.cc, .s, .wait] s t) :
    t.nowInputs = s.nowInputs ∧ t.nmiDue = s.nmiDue := by
  have hin : t.nowInputs = s.nowInputs :=
    congrArg (·.headD Inputs.quiet) (show t.inputs = s.inputs from h .inputs (by decide))
  refine ⟨hin, ?_⟩
  rw [State.nmiDue, State.nmiDue, hin, show t.nmiPending = s.nmiPending from h .nmiPending (by decide),
    show t.nmiArmed = s.nmiArmed from h .nmiArmed (by decide)]

/-- RTI undoes CWAI, whichever request has ended the wait: the entry stacks nothing, so the frame is the one CWAI left. -/
theorem rti_undoes_cwai {s t : State} {cc : CC} (hram : s.RamBelow) (he : cc.e = true) (hcc : t.cc = cc)
    (hst : StacksEntire s t cc) (hw : t.wait = .cwaiWaiting) (hk : Keeps [.cc, .s, .wait] s t)
    (hr : s.nowInputs.reset = false)
    (hdue : s.nmiDue = true ∨ (s.nowInputs.firq = true ∧ cc.f = false) ∨ (s.nowInputs.irq = true ∧ cc.i = false)) :
    ∃ v u, step t = .next v ∧ exec .rti v = .next u ∧ u.cc = cc ∧ u.wait = .running ∧
      Keeps [.cc, .nmiPending, .wait] s.advanced u := by
  obtain ⟨hin, hnmi⟩ := requests_of_keeps hk
  have htdue : t.nmiDue = true ∨ t.firqDue = true ∨ t.irqDue = true := by
    simpa [State.firqDue, State.irqDue, hin, hnmi, hcc] using hdue
  obtain ⟨l, e, mask, vector, hstep⟩ := step_of_due t (hin ▸ hr) htdue
  obtain ⟨hvs, -, -⟩ := t.entryState_enter_of_waiting (l := l) (e := e) (mask := mask) (vector := vector) hw
  have hvmem : (t.entryState.enter l e mask vector).mem = t.mem := by
    rw [State.enter_mem, State.stack_of_waiting _ _ _ (t.examinedWait_eq_cwaiWaiting_iff.mpr hw)]
    rfl
  have hframe : StacksList (frameList cc.e) s.advanced (t.entryState.enter l e mask vector) cc := by
    rw [he]
    exact StacksList.of_eq ((stacksList_all _ _ _).mpr hst) hvs hvmem
  have hkeeps : Keeps [.cc, .s, .pc, .nmiPending, .wait] s.advanced (t.entryState.enter l e mask vector) :=
    ((keeps_advanced hk).mono (by decide)).trans t.entryState_enter_keeps
  obtain ⟨u, hu, hucc, huw, huk⟩ := rti_undoes hram.advanced hframe hkeeps (hkeeps .platform (by decide))
  exact ⟨_, u, hstep, hu, hucc, huw.trans (State.enter_wait _), huk⟩

/-- Settles O23. -/
theorem returnUndoesEntry : Obligations.ReturnUndoesEntry := by
  intro s hram
  refine ⟨fun hr hw hn => ?nmi, fun hr hw hn hf => ?firq, fun hr hw hn hf hi => ?irq, fun i hi => ?software,
    fun m cc hc => ?cwai⟩
  case nmi =>
    obtain ⟨u, hu⟩ := rti_undoes_enter s hram rfl hw s.entryState_enter_keeps
    exact ⟨_, u, step_of_nmiDue s hr hn, hu⟩
  case firq =>
    obtain ⟨u, hu⟩ := rti_undoes_enter s hram rfl hw (s.entryState_enter_keeps_of_not_nmiDue hn)
    exact ⟨_, u, step_of_firqDue s hr hn hf, hu⟩
  case irq =>
    obtain ⟨u, hu⟩ := rti_undoes_enter s hram rfl hw (s.entryState_enter_keeps_of_not_nmiDue hn)
    exact ⟨_, u, step_of_irqDue s hr hn hf hi, hu⟩
  case software =>
    obtain ⟨mask, vector, hexec⟩ := exec_of_isSoftwareInterrupt hi
    obtain ⟨hst, -, -, hk⟩ := s.softwareEntry_spec mask vector
    have ht := hexec s
    generalize s.softwareEntry mask vector = t at hst hk ht
    obtain ⟨u, hu, hcc, -, hkeeps⟩ := rti_undoes (cc := { s.cc with e := true }) (fs := []) hram
      ((stacksList_all _ _ _).mpr hst) hk (hk .platform (by decide))
    exact ⟨t, u, ht, hu, hcc, hkeeps⟩
  case cwai =>
    obtain ⟨t, ht, htcc, hst, hw, hk⟩ := cwai s m cc hc
    exact ⟨t, ht, rti_undoes_cwai hram (hc ▸ rfl) htcc hst hw hk⟩

end Sys2Proof.Machine
end

section
/-! The accesses of every instruction (20 R60): each shared operation leaves the record of the environment's accesses as the data
accesses of its instruction do. -/

namespace Sys2Proof.Machine

variable (s : State)

/-! ## Read-modify-write instructions -/

theorem readThenWrite_of_defined {f : Byte → CC → Byte × CC} {g : Single} (hf : Computes f g) (e : Ea) :
    (s.unaryMem e (definedFlags f)).bus = (s.readThenWrite e g).bus := by
  rw [s.unaryMem_defined_bus, hf _ _ false]
  rfl

/-- A result that does not depend on H is written whatever the free draw of H gives. -/
theorem readThenWrite_of_undefinedH {f : Byte → Bool → CC → Byte × CC} {g : Single} (hf : ComputesWithH f g)
    (hg : ∀ m cc h, (g m cc h).1 = (g m cc false).1) (e : Ea) :
    (s.unaryMem e (undefinedH f)).bus = (s.readThenWrite e g).bus := by
  rw [s.unaryMem_undefinedH_bus, hf, hg]
  rfl

/-! ## Stacks -/

theorem State.stackAll_bus (cc : CC) : (s.stackAll cc).bus = (s.storeFrame allRegisters cc).bus := by
  rw [State.stackAll, State.pushList_bus]
  exact State.storeDown_bus_congr _ _ rfl rfl

/-- A software interrupt reads its vector after the frame, whatever it masks in between. -/
theorem State.softwareEntry_bus (mask : CC → CC) (v : Word) : (s.softwareEntry mask v).bus =
    ((s.storeFrame allRegisters { s.cc with e := true }).read16 v).2.bus := by
  have hbus := (s.swiStack.setCC_bus (mask s.swiStack.cc)).trans s.swiStack_bus
  have hplatform : (s.swiStack.setCC (mask s.swiStack.cc)).platform =
      (s.storeFrame allRegisters { s.cc with e := true }).platform := by
    rw [State.setCC_platform, State.swiStack_platform, State.storeFrame_platform]
  rw [State.softwareEntry, State.takeVector_bus]
  exact State.read16_bus_congr v hplatform hbus

theorem State.jsr_bus (e : Ea) : ((s.ea e).2.push16 .hardware (s.ea e).2.pc).bus =
    ((s.ea e).2.storeDown (s.updated (eaUpdate e)).s [loByte s.pc, hiByte s.pc]).bus := by
  have hs : (s.ea e).2.sp .hardware = (s.updated (eaUpdate e)).s := keeps_ea s e .s (by decide)
  rw [State.push16_bus, hs, State.ea_pc]

theorem State.pulu_bus (l : RegList) : ((s.pullList .user l).when l.other fun t => t.armNmi .pulu).bus =
    (State.readBytes (listSize l) s.u s).2.bus :=
  (State.when_keep (s.pullList .user l) State.bus (fun t => t.armNmi .pulu) l.other fun _ => rfl).trans (s.pullList_bus .user l)

/-! ## Every instruction -/

/-- A result that goes on has made the instruction's data accesses. -/
def ResultAccesses (i : Instr) (s : State) : Result → Prop
  | .next t => t.bus = (s.dataAccesses i).bus
  | .fault _ | .refused _ => True

theorem accesses_execExg (r1 r2 : Reg) : ResultAccesses (.exg r1 r2) s (execExg r1 r2 s) := by
  unfold execExg
  split
  · exact s.exchange_bus r1 r2
  · trivial

theorem accesses_execTfr (r1 r2 : Reg) : ResultAccesses (.tfr r1 r2) s (execTfr r1 r2 s) := by
  unfold execTfr
  split
  · exact s.transfer_bus r1 r2
  · trivial

variable {s} in
/-- The record of a meaning that is told by an equation. -/
theorem accesses_of_eq {i : Instr} {t u : State} (h : exec i s = .next t) (hu : s.dataAccesses i = u) (hb : t.bus = u.bus) :
    ResultAccesses i s (exec i s) := by
  rw [h, ResultAccesses, hb, hu]

theorem dataAccesses_swi : s.dataAccesses .swi =
    ((s.storeFrame allRegisters { s.cc with e := true }).read16 vectorSwi).2 := rfl
theorem dataAccesses_swi2 : s.dataAccesses .swi2 =
    ((s.storeFrame allRegisters { s.cc with e := true }).read16 vectorSwi2).2 := rfl
theorem dataAccesses_swi3 : s.dataAccesses .swi3 =
    ((s.storeFrame allRegisters { s.cc with e := true }).read16 vectorSwi3).2 := rfl

theorem dataAccesses_cwai (m : Byte) : s.dataAccesses (.cwai m) =
    s.storeFrame allRegisters { CC.ofByte (s.cc.toByte &&& m) with e := true } := rfl

theorem accesses_swi : ResultAccesses .swi s (exec .swi s) :=
  accesses_of_eq (exec_swi s) (dataAccesses_swi s) (s.softwareEntry_bus _ vectorSwi)
theorem accesses_swi2 : ResultAccesses .swi2 s (exec .swi2 s) :=
  accesses_of_eq (exec_swi2 s) (dataAccesses_swi2 s) (s.softwareEntry_bus _ vectorSwi2)
theorem accesses_swi3 : ResultAccesses .swi3 s (exec .swi3 s) :=
  accesses_of_eq (exec_swi3 s) (dataAccesses_swi3 s) (s.softwareEntry_bus _ vectorSwi3)

theorem accesses_cwai (m : Byte) : ResultAccesses (.cwai m) s (exec (.cwai m) s) :=
  accesses_of_eq (exec_cwai_eq s m) (dataAccesses_cwai s m)
    ((State.setWait_bus _ _).trans (s.stackAll_bus _))

/-- Every instruction makes its data accesses, as the operations that its meaning is made of do. -/
theorem exec_accesses (i : Instr) (s : State) : ResultAccesses i s (exec i s) :=
  match i with
  | .adca o | .adda o => s.addAcc_bus .a _ o
  | .adcb o | .addb o => s.addAcc_bus .b _ o
  | .sbca o | .suba o => s.subAcc_bus .a _ o
  | .sbcb o | .subb o => s.subAcc_bus .b _ o
  | .cmpa o => s.cmpAcc_bus .a o
  | .cmpb o => s.cmpAcc_bus .b o
  | .anda o | .eora o | .ora o => s.logicAcc_bus .a _ o
  | .andb o | .eorb o | .orb o => s.logicAcc_bus .b _ o
  | .bita o => s.bitAcc_bus .a o
  | .bitb o => s.bitAcc_bus .b o
  | .lda o => s.loadAcc_bus .a o
  | .ldb o => s.loadAcc_bus .b o
  | .sta e => s.storeAcc_bus .a e
  | .stb e => s.storeAcc_bus .b e
  | .tst e => s.testMem_bus e
  | .tsta | .tstb => rfl
  | .asl e => readThenWrite_of_undefinedH s asl8_computes (fun _ _ _ => rfl) e
  | .asr e => readThenWrite_of_undefinedH s asr8_computes (fun _ _ _ => rfl) e
  | .neg e => readThenWrite_of_undefinedH s neg8_computes (fun _ _ _ => rfl) e
  | .lsr e => readThenWrite_of_defined s lsr8_computes e
  | .rol e => readThenWrite_of_defined s rol8_computes e
  | .ror e => readThenWrite_of_defined s ror8_computes e
  | .com e => readThenWrite_of_defined s com8_computes e
  | .clr e => readThenWrite_of_defined s clr8_computes e
  | .inc e => readThenWrite_of_defined s inc8_computes e
  | .dec e => readThenWrite_of_defined s dec8_computes e
  | .asla | .asra | .nega => s.unaryAcc_undefinedH_bus .a _
  | .aslb | .asrb | .negb => s.unaryAcc_undefinedH_bus .b _
  | .lsra | .rola | .rora | .coma | .clra | .inca | .deca => s.unaryAcc_defined_bus .a _
  | .lsrb | .rolb | .rorb | .comb | .clrb | .incb | .decb => s.unaryAcc_defined_bus .b _
  | .daa | .mul | .sex | .abx => rfl
  | .exg r1 r2 => accesses_execExg s r1 r2
  | .tfr r1 r2 => accesses_execTfr s r1 r2
  | .addd o => s.addD_bus o
  | .subd o => s.subD_bus o
  | .cmpd o => s.compare16_bus .d o
  | .cmpx o => s.compare16_bus .x o
  | .cmpy o => s.compare16_bus .y o
  | .cmpu o => s.compare16_bus .u o
  | .cmps o => s.compare16_bus .s o
  | .ldd o => s.load16_bus .d o
  | .ldx o => s.load16_bus .x o
  | .ldy o => s.load16_bus .y o
  | .ldu o => s.load16_bus .u o
  | .lds o => s.load16_bus .s o
  | .std e => s.store16_bus .d e
  | .stx e => s.store16_bus .x e
  | .sty e => s.store16_bus .y e
  | .stu e => s.store16_bus .u e
  | .sts e => s.store16_bus .s e
  | .leax m => s.leaIndex_bus .x m
  | .leay m => s.leaIndex_bus .y m
  | .leau m => s.leaStack_bus .u m
  | .leas m => s.leaStack_bus .s m
  | .pshs l => s.pushList_bus .hardware l
  | .pshu l => s.pushList_bus .user l
  | .puls l => s.pullList_bus .hardware l
  | .pulu l => s.pulu_bus l
  | .beq _ | .lbeq _ | .bne _ | .lbne _ | .bmi _ | .lbmi _ | .bpl _ | .lbpl _ | .bcs _ | .lbcs _ | .bcc _ | .lbcc _
  | .bvs _ | .lbvs _ | .bvc _ | .lbvc _ | .bgt _ | .lbgt _ | .bge _ | .lbge _ | .ble _ | .lble _ | .blt _ | .lblt _
  | .bhi _ | .lbhi _ | .bls _ | .lbls _ | .bra _ | .lbra _ | .brn _ | .lbrn _ => s.branch_bus _ _
  | .bsr _ | .lbsr _ => s.branchSub_bus _
  | .jmp _ => rfl
  | .jsr e => s.jsr_bus e
  | .rts => s.pull16_bus .hardware
  | .rti => s.returnFromInterrupt_bus
  | .swi => accesses_swi s
  | .swi2 => accesses_swi2 s
  | .swi3 => accesses_swi3 s
  | .cwai m => accesses_cwai s m
  | .andcc _ | .orcc _ | .nop | .sync => rfl

/-- A well-formed instruction runs and leaves the record as its data accesses do. -/
theorem exec_makes {i : Instr} {b : List BusAccess} (hw : i.wellFormed = true) (hb : (s.dataAccesses i).bus = b) :
    ∃ t, exec i s = .next t ∧ t.bus = b := by
  obtain ⟨t, ht⟩ := exec_eq_next hw s
  have hr := exec_accesses i s
  rw [ht] at hr
  exact ⟨t, ht, hr.trans hb⟩

/-! ## Accesses of a device -/

section

variable {s} {a : Word}

theorem State.read8_of_device (h : s.kind a = .device) :
    s.read8 a = (Config.environment s.bus a, s.setBus (.read a :: s.bus)) :=
  s.read8_of_not_isMemory a (by rw [State.isMemory, h])

theorem State.read8_bus_of_device (h : s.kind a = .device) : (s.read8 a).2.bus = .read a :: s.bus := by
  rw [State.read8_of_device h]
  rfl

theorem State.read16_bus_of_device (h : s.kind a = .device) (h' : s.kind (a + 1) = .device) :
    (s.read16 a).2.bus = .read (a + 1) :: .read a :: s.bus := by
  rw [State.read16, State.read8_of_device h]
  exact State.read8_bus_of_device h'

theorem State.write8_bus_of_device (h : s.kind a = .device) (v : Byte) : (s.write8 a v).bus = .write a v :: s.bus := by
  rw [s.write8_of_device a v h]
  rfl

theorem State.write16_bus_of_device (h : s.kind a = .device) (h' : s.kind (a + 1) = .device) (v : Word) :
    (s.write16 a v).bus = .write (a + 1) (loByte v) :: .write a (hiByte v) :: s.bus := by
  rw [State.write16, s.write8_of_device a _ h]
  exact State.write8_bus_of_device (s := s.setBus (.write a (hiByte v) :: s.bus)) h' _

/-- A read-modify-write of a device register: the byte it answers, then the result. -/
theorem State.readThenWrite_bus_of_device (h : s.kind a = .device) (f : Single) : (s.readThenWrite (.ext a) f).bus =
    .write a (f (Config.environment s.bus a) s.cc false).1 :: .read a :: s.bus := by
  have hb : s.eaByte (.ext a) = Config.environment s.bus a := congrArg Prod.fst (State.read8_of_device h)
  have hr : ((s.ea (.ext a)).2.read8 (s.ea (.ext a)).1).2 = s.setBus (.read a :: s.bus) :=
    congrArg Prod.snd (State.read8_of_device h)
  rw [State.readThenWrite, hb, hr]
  exact State.write8_bus_of_device (s := s.setBus (.read a :: s.bus)) h _

/-- A word pushed onto device registers: the low byte first, at the higher address. -/
theorem State.storeDown_bus_of_device (h : s.kind a = .device) (h' : s.kind (a + 1) = .device) (lo hi : Byte) :
    (s.storeDown (a + 2) [lo, hi]).bus = .write a hi :: .write (a + 1) lo :: s.bus := by
  have h1 : a + 2 - 1 = a + 1 := by bv_omega
  have h2 : a + 1 - 1 = a := by bv_omega
  simp only [State.storeDown, h1, h2]
  rw [s.write8_of_device _ _ h']
  exact State.write8_bus_of_device (s := s.setBus (.write (a + 1) lo :: s.bus)) h _

end

/-- Settles O33: the eleven device clauses are the second one, evaluated. -/
theorem accessesInOrder : Obligations.AccessesInOrder := by
  refine ⟨fun s n => s.fetchBytes_bus n, fun s i hw => exec_makes s hw rfl, fun s a h h' => ?device⟩
  case device =>
    refine ⟨exec_makes s rfl ?lda, exec_makes s rfl ?cmpb, exec_makes s rfl ?tst, exec_makes s rfl ?sta, exec_makes s rfl ?clr,
      exec_makes s rfl ?inc, exec_makes s rfl ?jmp, exec_makes s rfl ?leax, exec_makes s rfl ?ldd, exec_makes s rfl ?std,
      fun hs => exec_makes s rfl ?jsr⟩
    case lda | cmpb | tst => exact State.read8_bus_of_device h
    case sta => exact State.write8_bus_of_device h s.a
    case clr => exact State.readThenWrite_bus_of_device h .clr
    case inc => rw [inc_bits]; exact State.readThenWrite_bus_of_device h .inc
    case jmp => rfl
    case leax | ldd => exact State.read16_bus_of_device h h'
    case std =>
      have hw := State.write16_bus_of_device h h' s.d
      rwa [State.d, hiByte_joinBytes, loByte_joinBytes] at hw
    case jsr =>
      have hd := State.storeDown_bus_of_device h h' (loByte s.pc) (hiByte s.pc)
      rwa [← hs] at hd

end Sys2Proof.Machine
end
